-- ==== Sys2Proof/Word.lean ====
section
/-! DEFINITION. Word: the 64-bit value every operation reads and writes (`00_scope.md` R8, R10). -/

namespace Sys2Proof

/-- "Every operation's interface is fixed at 64 bits in and out" (R8); bit 0 is the least significant bit (R10). -/
abbrev Word := BitVec 64

end Sys2Proof
end

