-- ==== Sys2Proof/Syntax.lean ====
section
/-! DEFINITION. Syntax: the operation set of the block, one constructor per row of spec/opcode_table.json (`30_encoding.md` R88).
An instruction is a control word (R80): its selector is the constructor, its only field is the rounding field `rm`,
which every control word carries, also where its rule ignores it (R42). The operands `a`, `b`, `c` are not part of the
control word: they are values on the request port (R33, R81). -/

namespace Sys2Proof

/-- One operation of the block, with the `rm` field of its control word (R80, R88). -/
inductive Instr where
  -- 64-bit integer (0x01 to 0x12)
  | add (rm : BitVec 3)           -- ADD, R102
  | sub (rm : BitVec 3)           -- SUB, R103
  | mul (rm : BitVec 3)           -- MUL, R104
  | mulh (rm : BitVec 3)          -- MULH, R105
  | mulhsu (rm : BitVec 3)        -- MULHSU, R106
  | mulhu (rm : BitVec 3)         -- MULHU, R107
  | div (rm : BitVec 3)           -- DIV, R108
  | divu (rm : BitVec 3)          -- DIVU, R109
  | rem (rm : BitVec 3)           -- REM, R110
  | remu (rm : BitVec 3)          -- REMU, R111
  | and (rm : BitVec 3)           -- AND, R112
  | or (rm : BitVec 3)            -- OR, R113
  | xor (rm : BitVec 3)           -- XOR, R114
  | sll (rm : BitVec 3)           -- SLL, R115
  | srl (rm : BitVec 3)           -- SRL, R116
  | sra (rm : BitVec 3)           -- SRA, R117
  | slt (rm : BitVec 3)           -- SLT, R118
  | sltu (rm : BitVec 3)          -- SLTU, R119
  -- 32-bit W forms (0x18 to 0x21)
  | addw (rm : BitVec 3)          -- ADDW, R121
  | subw (rm : BitVec 3)          -- SUBW, R122
  | mulw (rm : BitVec 3)          -- MULW, R123
  | divw (rm : BitVec 3)          -- DIVW, R124
  | divuw (rm : BitVec 3)         -- DIVUW, R125
  | remw (rm : BitVec 3)          -- REMW, R126
  | remuw (rm : BitVec 3)         -- REMUW, R127
  | sllw (rm : BitVec 3)          -- SLLW, R128
  | srlw (rm : BitVec 3)          -- SRLW, R129
  | sraw (rm : BitVec 3)          -- SRAW, R130
  -- packed integer (0x28 to 0x39)
  | vadd32 (rm : BitVec 3)        -- VADD32, R151
  | vsub32 (rm : BitVec 3)        -- VSUB32, R152
  | vmul32 (rm : BitVec 3)        -- VMUL32, R153
  | vdiv32 (rm : BitVec 3)        -- VDIV32, R154
  | vrem32 (rm : BitVec 3)        -- VREM32, R155
  | vadd16 (rm : BitVec 3)        -- VADD16, R156
  | vsub16 (rm : BitVec 3)        -- VSUB16, R157
  | vmul16 (rm : BitVec 3)        -- VMUL16, R158
  | vdiv16 (rm : BitVec 3)        -- VDIV16, R159
  | vrem16 (rm : BitVec 3)        -- VREM16, R160
  | vmvlo (rm : BitVec 3)         -- VMVLO, R161
  | vmvhi (rm : BitVec 3)         -- VMVHI, R162
  -- fault injection and ECC (0x3C to 0x3F)
  | faultInject (rm : BitVec 3)   -- FAULT_INJECT, R180
  | eccCheck (rm : BitVec 3)      -- ECC_CHECK, R182
  | eccEncode (rm : BitVec 3)     -- ECC_ENCODE, R407
  | eccAdapt (rm : BitVec 3)      -- ECC_ADAPT, R430
  -- single-precision scalar (0x40 to 0x5B)
  | faddS (rm : BitVec 3)         -- FADD.S, R250
  | fsubS (rm : BitVec 3)         -- FSUB.S, R251
  | fmulS (rm : BitVec 3)         -- FMUL.S, R252
  | fdivS (rm : BitVec 3)         -- FDIV.S, R253
  | fsqrtS (rm : BitVec 3)        -- FSQRT.S, R254
  | fmaddS (rm : BitVec 3)        -- FMADD.S, R255
  | fmsubS (rm : BitVec 3)        -- FMSUB.S, R256
  | fnmsubS (rm : BitVec 3)       -- FNMSUB.S, R257
  | fnmaddS (rm : BitVec 3)       -- FNMADD.S, R258
  | fsgnjS (rm : BitVec 3)        -- FSGNJ.S, R259
  | fsgnjnS (rm : BitVec 3)       -- FSGNJN.S, R260
  | fsgnjxS (rm : BitVec 3)       -- FSGNJX.S, R261
  | fminS (rm : BitVec 3)         -- FMIN.S, R262
  | fmaxS (rm : BitVec 3)         -- FMAX.S, R263
  | feqS (rm : BitVec 3)          -- FEQ.S, R264
  | fltS (rm : BitVec 3)          -- FLT.S, R265
  | fleS (rm : BitVec 3)          -- FLE.S, R266
  | fclassS (rm : BitVec 3)       -- FCLASS.S, R267
  | fcvtWS (rm : BitVec 3)        -- FCVT.W.S, R268
  | fcvtWuS (rm : BitVec 3)       -- FCVT.WU.S, R269
  | fcvtLS (rm : BitVec 3)        -- FCVT.L.S, R270
  | fcvtLuS (rm : BitVec 3)       -- FCVT.LU.S, R271
  | fcvtSW (rm : BitVec 3)        -- FCVT.S.W, R272
  | fcvtSWu (rm : BitVec 3)       -- FCVT.S.WU, R273
  | fcvtSL (rm : BitVec 3)        -- FCVT.S.L, R274
  | fcvtSLu (rm : BitVec 3)       -- FCVT.S.LU, R275
  | fmvXW (rm : BitVec 3)         -- FMV.X.W, R276
  | fmvWX (rm : BitVec 3)         -- FMV.W.X, R277
  -- double-precision scalar (0x80 to 0x9B)
  | faddD (rm : BitVec 3)         -- FADD.D, R300
  | fsubD (rm : BitVec 3)         -- FSUB.D, R301
  | fmulD (rm : BitVec 3)         -- FMUL.D, R302
  | fdivD (rm : BitVec 3)         -- FDIV.D, R303
  | fsqrtD (rm : BitVec 3)        -- FSQRT.D, R304
  | fmaddD (rm : BitVec 3)        -- FMADD.D, R305
  | fmsubD (rm : BitVec 3)        -- FMSUB.D, R306
  | fnmsubD (rm : BitVec 3)       -- FNMSUB.D, R307
  | fnmaddD (rm : BitVec 3)       -- FNMADD.D, R308
  | fsgnjD (rm : BitVec 3)        -- FSGNJ.D, R309
  | fsgnjnD (rm : BitVec 3)       -- FSGNJN.D, R310
  | fsgnjxD (rm : BitVec 3)       -- FSGNJX.D, R311
  | fminD (rm : BitVec 3)         -- FMIN.D, R312
  | fmaxD (rm : BitVec 3)         -- FMAX.D, R313
  | feqD (rm : BitVec 3)          -- FEQ.D, R314
  | fltD (rm : BitVec 3)          -- FLT.D, R315
  | fleD (rm : BitVec 3)          -- FLE.D, R316
  | fclassD (rm : BitVec 3)       -- FCLASS.D, R317
  | fcvtWD (rm : BitVec 3)        -- FCVT.W.D, R318
  | fcvtWuD (rm : BitVec 3)       -- FCVT.WU.D, R319
  | fcvtLD (rm : BitVec 3)        -- FCVT.L.D, R320
  | fcvtLuD (rm : BitVec 3)       -- FCVT.LU.D, R321
  | fcvtDW (rm : BitVec 3)        -- FCVT.D.W, R322
  | fcvtDWu (rm : BitVec 3)       -- FCVT.D.WU, R323
  | fcvtDL (rm : BitVec 3)        -- FCVT.D.L, R324
  | fcvtDLu (rm : BitVec 3)       -- FCVT.D.LU, R325
  | fmvXD (rm : BitVec 3)         -- FMV.X.D, R326
  | fmvDX (rm : BitVec 3)         -- FMV.D.X, R327
  -- bfloat16 x4 (0xC0 to 0xC4)
  | bf16Add (rm : BitVec 3)       -- BF16.ADD, R354
  | bf16Sub (rm : BitVec 3)       -- BF16.SUB, R355
  | bf16Mul (rm : BitVec 3)       -- BF16.MUL, R356
  | bf16Div (rm : BitVec 3)       -- BF16.DIV, R357
  | bf16Dot (rm : BitVec 3)       -- BF16.DOT, R358
  -- float32 x2 (0xD0 to 0xD5)
  | pf32Add (rm : BitVec 3)       -- PF32.ADD, R382
  | pf32Sub (rm : BitVec 3)       -- PF32.SUB, R383
  | pf32Mul (rm : BitVec 3)       -- PF32.MUL, R384
  | pf32Div (rm : BitVec 3)       -- PF32.DIV, R385
  | pf32Rem (rm : BitVec 3)       -- PF32.REM, R386
  | pf32Pack (rm : BitVec 3)      -- PF32.PACK, R387
deriving DecidableEq, Repr

/-- The rounding field of the control word (R39, R80). -/
def Instr.rm : Instr → BitVec 3
  | .add rm => rm
  | .sub rm => rm
  | .mul rm => rm
  | .mulh rm => rm
  | .mulhsu rm => rm
  | .mulhu rm => rm
  | .div rm => rm
  | .divu rm => rm
  | .rem rm => rm
  | .remu rm => rm
  | .and rm => rm
  | .or rm => rm
  | .xor rm => rm
  | .sll rm => rm
  | .srl rm => rm
  | .sra rm => rm
  | .slt rm => rm
  | .sltu rm => rm
  | .addw rm => rm
  | .subw rm => rm
  | .mulw rm => rm
  | .divw rm => rm
  | .divuw rm => rm
  | .remw rm => rm
  | .remuw rm => rm
  | .sllw rm => rm
  | .srlw rm => rm
  | .sraw rm => rm
  | .vadd32 rm => rm
  | .vsub32 rm => rm
  | .vmul32 rm => rm
  | .vdiv32 rm => rm
  | .vrem32 rm => rm
  | .vadd16 rm => rm
  | .vsub16 rm => rm
  | .vmul16 rm => rm
  | .vdiv16 rm => rm
  | .vrem16 rm => rm
  | .vmvlo rm => rm
  | .vmvhi rm => rm
  | .faultInject rm => rm
  | .eccCheck rm => rm
  | .eccEncode rm => rm
  | .eccAdapt rm => rm
  | .faddS rm => rm
  | .fsubS rm => rm
  | .fmulS rm => rm
  | .fdivS rm => rm
  | .fsqrtS rm => rm
  | .fmaddS rm => rm
  | .fmsubS rm => rm
  | .fnmsubS rm => rm
  | .fnmaddS rm => rm
  | .fsgnjS rm => rm
  | .fsgnjnS rm => rm
  | .fsgnjxS rm => rm
  | .fminS rm => rm
  | .fmaxS rm => rm
  | .feqS rm => rm
  | .fltS rm => rm
  | .fleS rm => rm
  | .fclassS rm => rm
  | .fcvtWS rm => rm
  | .fcvtWuS rm => rm
  | .fcvtLS rm => rm
  | .fcvtLuS rm => rm
  | .fcvtSW rm => rm
  | .fcvtSWu rm => rm
  | .fcvtSL rm => rm
  | .fcvtSLu rm => rm
  | .fmvXW rm => rm
  | .fmvWX rm => rm
  | .faddD rm => rm
  | .fsubD rm => rm
  | .fmulD rm => rm
  | .fdivD rm => rm
  | .fsqrtD rm => rm
  | .fmaddD rm => rm
  | .fmsubD rm => rm
  | .fnmsubD rm => rm
  | .fnmaddD rm => rm
  | .fsgnjD rm => rm
  | .fsgnjnD rm => rm
  | .fsgnjxD rm => rm
  | .fminD rm => rm
  | .fmaxD rm => rm
  | .feqD rm => rm
  | .fltD rm => rm
  | .fleD rm => rm
  | .fclassD rm => rm
  | .fcvtWD rm => rm
  | .fcvtWuD rm => rm
  | .fcvtLD rm => rm
  | .fcvtLuD rm => rm
  | .fcvtDW rm => rm
  | .fcvtDWu rm => rm
  | .fcvtDL rm => rm
  | .fcvtDLu rm => rm
  | .fmvXD rm => rm
  | .fmvDX rm => rm
  | .bf16Add rm => rm
  | .bf16Sub rm => rm
  | .bf16Mul rm => rm
  | .bf16Div rm => rm
  | .bf16Dot rm => rm
  | .pf32Add rm => rm
  | .pf32Sub rm => rm
  | .pf32Mul rm => rm
  | .pf32Div rm => rm
  | .pf32Rem rm => rm
  | .pf32Pack rm => rm

end Sys2Proof
end

