-- ==== Sys2Proof/WellFormed.lean ====
section
/-! DEFINITION. WellFormed: which control words of R88 have a meaning. The one check is the reserved rounding field
(`10_state.md` R41, `30_encoding.md` R85): `rm` 5, 6, 7 on a selector that rounds. -/

namespace Sys2Proof

/-- The "rounds" column of `30_encoding.md` R88: does the selector's rule read `rm`? -/
def Instr.rounds : Instr → Bool
  | .add _ => false
  | .sub _ => false
  | .mul _ => false
  | .mulh _ => false
  | .mulhsu _ => false
  | .mulhu _ => false
  | .div _ => false
  | .divu _ => false
  | .rem _ => false
  | .remu _ => false
  | .and _ => false
  | .or _ => false
  | .xor _ => false
  | .sll _ => false
  | .srl _ => false
  | .sra _ => false
  | .slt _ => false
  | .sltu _ => false
  | .addw _ => false
  | .subw _ => false
  | .mulw _ => false
  | .divw _ => false
  | .divuw _ => false
  | .remw _ => false
  | .remuw _ => false
  | .sllw _ => false
  | .srlw _ => false
  | .sraw _ => false
  | .vadd32 _ => false
  | .vsub32 _ => false
  | .vmul32 _ => false
  | .vdiv32 _ => false
  | .vrem32 _ => false
  | .vadd16 _ => false
  | .vsub16 _ => false
  | .vmul16 _ => false
  | .vdiv16 _ => false
  | .vrem16 _ => false
  | .vmvlo _ => false
  | .vmvhi _ => false
  | .faultInject _ => false
  | .eccCheck _ => false
  | .eccEncode _ => false
  | .eccAdapt _ => false
  | .faddS _ => true
  | .fsubS _ => true
  | .fmulS _ => true
  | .fdivS _ => true
  | .fsqrtS _ => true
  | .fmaddS _ => true
  | .fmsubS _ => true
  | .fnmsubS _ => true
  | .fnmaddS _ => true
  | .fsgnjS _ => false
  | .fsgnjnS _ => false
  | .fsgnjxS _ => false
  | .fminS _ => false
  | .fmaxS _ => false
  | .feqS _ => false
  | .fltS _ => false
  | .fleS _ => false
  | .fclassS _ => false
  | .fcvtWS _ => true
  | .fcvtWuS _ => true
  | .fcvtLS _ => true
  | .fcvtLuS _ => true
  | .fcvtSW _ => true
  | .fcvtSWu _ => true
  | .fcvtSL _ => true
  | .fcvtSLu _ => true
  | .fmvXW _ => false
  | .fmvWX _ => false
  | .faddD _ => true
  | .fsubD _ => true
  | .fmulD _ => true
  | .fdivD _ => true
  | .fsqrtD _ => true
  | .fmaddD _ => true
  | .fmsubD _ => true
  | .fnmsubD _ => true
  | .fnmaddD _ => true
  | .fsgnjD _ => false
  | .fsgnjnD _ => false
  | .fsgnjxD _ => false
  | .fminD _ => false
  | .fmaxD _ => false
  | .feqD _ => false
  | .fltD _ => false
  | .fleD _ => false
  | .fclassD _ => false
  | .fcvtWD _ => true
  | .fcvtWuD _ => true
  | .fcvtLD _ => true
  | .fcvtLuD _ => true
  | .fcvtDW _ => true
  | .fcvtDWu _ => true
  | .fcvtDL _ => true
  | .fcvtDLu _ => true
  | .fmvXD _ => false
  | .fmvDX _ => false
  | .bf16Add _ => true
  | .bf16Sub _ => true
  | .bf16Mul _ => true
  | .bf16Div _ => true
  | .bf16Dot _ => true
  | .pf32Add _ => true
  | .pf32Sub _ => true
  | .pf32Mul _ => true
  | .pf32Div _ => true
  | .pf32Rem _ => false
  | .pf32Pack _ => false

/-- The reserved rounding values (R39, R85). -/
def reservedRm (rm : BitVec 3) : Bool := decide (5 ≤ rm.toNat)

/-- An instruction is well formed unless it rounds under a reserved rounding value (R41, R85). -/
def Instr.wellFormed (i : Instr) : Bool := !(i.rounds && reservedRm i.rm)

end Sys2Proof
end

