-- ==== Sys2Proof/Decode.lean ====
section
/-! DEFINITION. Decode: from a control word of 11 bits to an instruction, total, and the encoder after it
(`30_encoding.md` R80, R82, R84, R86, R88). A word whose selector is unassigned is rejected by name. -/

namespace Sys2Proof

/-- What a control word is (R86): an operation of R88, or an unassigned selector (R82, R84). -/
inductive Decoded where
  /-- The word selects an operation. -/
  | instr (i : Instr)
  /-- The word's selector is unassigned: the block answers zeros (R84), so this is no fault and no refusal. -/
  | unassigned (op : BitVec 8)
deriving DecidableEq, Repr

/-- The selector field `op`, bits 7:0 of the control word (R80). -/
def opField (word : BitVec 11) : BitVec 8 := word.extractLsb' 0 8

/-- The rounding field `rm`, bits 10:8 of the control word (R80). -/
def rmField (word : BitVec 11) : BitVec 3 := word.extractLsb' 8 3

/-- The selectors of R82: 64-bit integer (0x01 to 0x12). -/
def decodeInteger (op : Nat) (rm : BitVec 3) : Option Instr :=
  match op with
  | 0x01 => some (.add rm)
  | 0x02 => some (.sub rm)
  | 0x03 => some (.mul rm)
  | 0x04 => some (.mulh rm)
  | 0x05 => some (.mulhsu rm)
  | 0x06 => some (.mulhu rm)
  | 0x07 => some (.div rm)
  | 0x08 => some (.divu rm)
  | 0x09 => some (.rem rm)
  | 0x0A => some (.remu rm)
  | 0x0B => some (.and rm)
  | 0x0C => some (.or rm)
  | 0x0D => some (.xor rm)
  | 0x0E => some (.sll rm)
  | 0x0F => some (.srl rm)
  | 0x10 => some (.sra rm)
  | 0x11 => some (.slt rm)
  | 0x12 => some (.sltu rm)
  | _ => none

/-- The selectors of R82: 32-bit W forms (0x18 to 0x21). -/
def decodeIntegerW (op : Nat) (rm : BitVec 3) : Option Instr :=
  match op with
  | 0x18 => some (.addw rm)
  | 0x19 => some (.subw rm)
  | 0x1A => some (.mulw rm)
  | 0x1B => some (.divw rm)
  | 0x1C => some (.divuw rm)
  | 0x1D => some (.remw rm)
  | 0x1E => some (.remuw rm)
  | 0x1F => some (.sllw rm)
  | 0x20 => some (.srlw rm)
  | 0x21 => some (.sraw rm)
  | _ => none

/-- The selectors of R82: packed integer (0x28 to 0x39). -/
def decodeSimd (op : Nat) (rm : BitVec 3) : Option Instr :=
  match op with
  | 0x28 => some (.vadd32 rm)
  | 0x29 => some (.vsub32 rm)
  | 0x2A => some (.vmul32 rm)
  | 0x2B => some (.vdiv32 rm)
  | 0x2C => some (.vrem32 rm)
  | 0x30 => some (.vadd16 rm)
  | 0x31 => some (.vsub16 rm)
  | 0x32 => some (.vmul16 rm)
  | 0x33 => some (.vdiv16 rm)
  | 0x34 => some (.vrem16 rm)
  | 0x38 => some (.vmvlo rm)
  | 0x39 => some (.vmvhi rm)
  | _ => none

/-- The selectors of R82: fault injection and ECC (0x3C to 0x3F). -/
def decodeFaultEcc (op : Nat) (rm : BitVec 3) : Option Instr :=
  match op with
  | 0x3C => some (.faultInject rm)
  | 0x3D => some (.eccCheck rm)
  | 0x3E => some (.eccEncode rm)
  | 0x3F => some (.eccAdapt rm)
  | _ => none

/-- The selectors of R82: single-precision scalar (0x40 to 0x5B). -/
def decodeSingle (op : Nat) (rm : BitVec 3) : Option Instr :=
  match op with
  | 0x40 => some (.faddS rm)
  | 0x41 => some (.fsubS rm)
  | 0x42 => some (.fmulS rm)
  | 0x43 => some (.fdivS rm)
  | 0x44 => some (.fsqrtS rm)
  | 0x45 => some (.fmaddS rm)
  | 0x46 => some (.fmsubS rm)
  | 0x47 => some (.fnmsubS rm)
  | 0x48 => some (.fnmaddS rm)
  | 0x49 => some (.fsgnjS rm)
  | 0x4A => some (.fsgnjnS rm)
  | 0x4B => some (.fsgnjxS rm)
  | 0x4C => some (.fminS rm)
  | 0x4D => some (.fmaxS rm)
  | 0x4E => some (.feqS rm)
  | 0x4F => some (.fltS rm)
  | 0x50 => some (.fleS rm)
  | 0x51 => some (.fclassS rm)
  | 0x52 => some (.fcvtWS rm)
  | 0x53 => some (.fcvtWuS rm)
  | 0x54 => some (.fcvtLS rm)
  | 0x55 => some (.fcvtLuS rm)
  | 0x56 => some (.fcvtSW rm)
  | 0x57 => some (.fcvtSWu rm)
  | 0x58 => some (.fcvtSL rm)
  | 0x59 => some (.fcvtSLu rm)
  | 0x5A => some (.fmvXW rm)
  | 0x5B => some (.fmvWX rm)
  | _ => none

/-- The selectors of R82: double-precision scalar (0x80 to 0x9B). -/
def decodeDouble (op : Nat) (rm : BitVec 3) : Option Instr :=
  match op with
  | 0x80 => some (.faddD rm)
  | 0x81 => some (.fsubD rm)
  | 0x82 => some (.fmulD rm)
  | 0x83 => some (.fdivD rm)
  | 0x84 => some (.fsqrtD rm)
  | 0x85 => some (.fmaddD rm)
  | 0x86 => some (.fmsubD rm)
  | 0x87 => some (.fnmsubD rm)
  | 0x88 => some (.fnmaddD rm)
  | 0x89 => some (.fsgnjD rm)
  | 0x8A => some (.fsgnjnD rm)
  | 0x8B => some (.fsgnjxD rm)
  | 0x8C => some (.fminD rm)
  | 0x8D => some (.fmaxD rm)
  | 0x8E => some (.feqD rm)
  | 0x8F => some (.fltD rm)
  | 0x90 => some (.fleD rm)
  | 0x91 => some (.fclassD rm)
  | 0x92 => some (.fcvtWD rm)
  | 0x93 => some (.fcvtWuD rm)
  | 0x94 => some (.fcvtLD rm)
  | 0x95 => some (.fcvtLuD rm)
  | 0x96 => some (.fcvtDW rm)
  | 0x97 => some (.fcvtDWu rm)
  | 0x98 => some (.fcvtDL rm)
  | 0x99 => some (.fcvtDLu rm)
  | 0x9A => some (.fmvXD rm)
  | 0x9B => some (.fmvDX rm)
  | _ => none

/-- The selectors of R82: bfloat16 x4 (0xC0 to 0xC4). -/
def decodeBf16 (op : Nat) (rm : BitVec 3) : Option Instr :=
  match op with
  | 0xC0 => some (.bf16Add rm)
  | 0xC1 => some (.bf16Sub rm)
  | 0xC2 => some (.bf16Mul rm)
  | 0xC3 => some (.bf16Div rm)
  | 0xC4 => some (.bf16Dot rm)
  | _ => none

/-- The selectors of R82: float32 x2 (0xD0 to 0xD5). -/
def decodePackedF32 (op : Nat) (rm : BitVec 3) : Option Instr :=
  match op with
  | 0xD0 => some (.pf32Add rm)
  | 0xD1 => some (.pf32Sub rm)
  | 0xD2 => some (.pf32Mul rm)
  | 0xD3 => some (.pf32Div rm)
  | 0xD4 => some (.pf32Rem rm)
  | 0xD5 => some (.pf32Pack rm)
  | _ => none

/-- The operation a selector names, if it names one (R82, R88). -/
def decodeSelector (op : Nat) (rm : BitVec 3) : Option Instr :=
  (decodeInteger op rm).or <| (decodeIntegerW op rm).or <| (decodeSimd op rm).or <| (decodeFaultEcc op rm).or <|
    (decodeSingle op rm).or <| (decodeDouble op rm).or <| (decodeBf16 op rm).or (decodePackedF32 op rm)

/-- The decoder: total on control words (R80, R86). -/
def decode (word : BitVec 11) : Decoded :=
  match decodeSelector (opField word).toNat (rmField word) with
  | some i => .instr i
  | none => .unassigned (opField word)

/-- The selector value of each operation (R88). -/
def Instr.selector : Instr → BitVec 8
  | .add _ => 0x01#8
  | .sub _ => 0x02#8
  | .mul _ => 0x03#8
  | .mulh _ => 0x04#8
  | .mulhsu _ => 0x05#8
  | .mulhu _ => 0x06#8
  | .div _ => 0x07#8
  | .divu _ => 0x08#8
  | .rem _ => 0x09#8
  | .remu _ => 0x0A#8
  | .and _ => 0x0B#8
  | .or _ => 0x0C#8
  | .xor _ => 0x0D#8
  | .sll _ => 0x0E#8
  | .srl _ => 0x0F#8
  | .sra _ => 0x10#8
  | .slt _ => 0x11#8
  | .sltu _ => 0x12#8
  | .addw _ => 0x18#8
  | .subw _ => 0x19#8
  | .mulw _ => 0x1A#8
  | .divw _ => 0x1B#8
  | .divuw _ => 0x1C#8
  | .remw _ => 0x1D#8
  | .remuw _ => 0x1E#8
  | .sllw _ => 0x1F#8
  | .srlw _ => 0x20#8
  | .sraw _ => 0x21#8
  | .vadd32 _ => 0x28#8
  | .vsub32 _ => 0x29#8
  | .vmul32 _ => 0x2A#8
  | .vdiv32 _ => 0x2B#8
  | .vrem32 _ => 0x2C#8
  | .vadd16 _ => 0x30#8
  | .vsub16 _ => 0x31#8
  | .vmul16 _ => 0x32#8
  | .vdiv16 _ => 0x33#8
  | .vrem16 _ => 0x34#8
  | .vmvlo _ => 0x38#8
  | .vmvhi _ => 0x39#8
  | .faultInject _ => 0x3C#8
  | .eccCheck _ => 0x3D#8
  | .eccEncode _ => 0x3E#8
  | .eccAdapt _ => 0x3F#8
  | .faddS _ => 0x40#8
  | .fsubS _ => 0x41#8
  | .fmulS _ => 0x42#8
  | .fdivS _ => 0x43#8
  | .fsqrtS _ => 0x44#8
  | .fmaddS _ => 0x45#8
  | .fmsubS _ => 0x46#8
  | .fnmsubS _ => 0x47#8
  | .fnmaddS _ => 0x48#8
  | .fsgnjS _ => 0x49#8
  | .fsgnjnS _ => 0x4A#8
  | .fsgnjxS _ => 0x4B#8
  | .fminS _ => 0x4C#8
  | .fmaxS _ => 0x4D#8
  | .feqS _ => 0x4E#8
  | .fltS _ => 0x4F#8
  | .fleS _ => 0x50#8
  | .fclassS _ => 0x51#8
  | .fcvtWS _ => 0x52#8
  | .fcvtWuS _ => 0x53#8
  | .fcvtLS _ => 0x54#8
  | .fcvtLuS _ => 0x55#8
  | .fcvtSW _ => 0x56#8
  | .fcvtSWu _ => 0x57#8
  | .fcvtSL _ => 0x58#8
  | .fcvtSLu _ => 0x59#8
  | .fmvXW _ => 0x5A#8
  | .fmvWX _ => 0x5B#8
  | .faddD _ => 0x80#8
  | .fsubD _ => 0x81#8
  | .fmulD _ => 0x82#8
  | .fdivD _ => 0x83#8
  | .fsqrtD _ => 0x84#8
  | .fmaddD _ => 0x85#8
  | .fmsubD _ => 0x86#8
  | .fnmsubD _ => 0x87#8
  | .fnmaddD _ => 0x88#8
  | .fsgnjD _ => 0x89#8
  | .fsgnjnD _ => 0x8A#8
  | .fsgnjxD _ => 0x8B#8
  | .fminD _ => 0x8C#8
  | .fmaxD _ => 0x8D#8
  | .feqD _ => 0x8E#8
  | .fltD _ => 0x8F#8
  | .fleD _ => 0x90#8
  | .fclassD _ => 0x91#8
  | .fcvtWD _ => 0x92#8
  | .fcvtWuD _ => 0x93#8
  | .fcvtLD _ => 0x94#8
  | .fcvtLuD _ => 0x95#8
  | .fcvtDW _ => 0x96#8
  | .fcvtDWu _ => 0x97#8
  | .fcvtDL _ => 0x98#8
  | .fcvtDLu _ => 0x99#8
  | .fmvXD _ => 0x9A#8
  | .fmvDX _ => 0x9B#8
  | .bf16Add _ => 0xC0#8
  | .bf16Sub _ => 0xC1#8
  | .bf16Mul _ => 0xC2#8
  | .bf16Div _ => 0xC3#8
  | .bf16Dot _ => 0xC4#8
  | .pf32Add _ => 0xD0#8
  | .pf32Sub _ => 0xD1#8
  | .pf32Mul _ => 0xD2#8
  | .pf32Div _ => 0xD3#8
  | .pf32Rem _ => 0xD4#8
  | .pf32Pack _ => 0xD5#8

/-- The control word of an instruction: `rm * 256 + op` (R80). -/
def encode (i : Instr) : BitVec 11 := i.rm ++ i.selector

/-- The instruction the decoder reads from the table's bits `w` (bit 0 the control word's bit 0). A control word has 11
bits (R80): a value that needs more is no control word, and is refused here. Bits above `nbits` are 0. -/
def decodeTableWord (nbits w : Nat) : Option Instr :=
  if w % 2 ^ nbits < 2 ^ 11 then
    match decode (BitVec.ofNat 11 (w % 2 ^ nbits)) with
    | .instr i => some i
    | .unassigned _ => none
  else none

end Sys2Proof
end

