-- ==== Sys2Proof/Config.lean ====
section
/-! DEFINITION. Config: the names of the block's parameters and settings (`00_scope.md` R9) and the values the spec leaves
open for good, as constants with no body (assumption log 6 and 7). -/

namespace Sys2Proof

/-- The four effective rounding modes (`10_state.md` R39, R40). -/
inductive RoundMode where
  /-- RNE: to nearest, ties to even. -/
  | rne
  /-- RTZ: toward zero. -/
  | rtz
  /-- RDN: downward, toward minus infinity. -/
  | rdn
  /-- RUP: upward, toward plus infinity. -/
  | rup
deriving DecidableEq, Repr

/-- The parameter BF16_NARROW (`46_packed_bf16.md` R351). -/
inductive NarrowRule where
  /-- Round to nearest, ties to even, on bit 16. -/
  | rne
  /-- Keep the upper 16 bits. -/
  | trunc
deriving DecidableEq, Repr

/-- The parameter WU_EXTEND (`44_fp_single.md` R269). -/
inductive ExtendRule where
  /-- Copy bit 31 of the 32-bit result upward. -/
  | sign
  /-- Fill with zeros. -/
  | zero
deriving DecidableEq, Repr

/-- The parameter DECODE_META (`48_ecc_codec.md` R405). -/
inductive MetaRule where
  /-- A recomputing decode keeps bits 63:39 of its input. -/
  | keep
  /-- A recomputing decode returns metadata 0. -/
  | zero
deriving DecidableEq, Repr

/-- The outcome of one FAULT_INJECT draw (`42_alu_fault_ecc.md` R180): no flip, or a flip of one of the low 32 bits. -/
inductive FaultDraw where
  | noFlip
  | flip (k : Fin 32)
deriving DecidableEq, Repr, Inhabited

/-- A probability strictly between 0 and 1 (`92_eei_decisions.md` D16: `0 < P_FLIP < 1`), by its odds: `hits + 1` against
`misses + 1`. Every rational number of that interval is one of these, and every one of these is in it. -/
structure FlipProbability where
  hits   : Nat
  misses : Nat
deriving DecidableEq, Repr, Inhabited

/-- The probability as a number. -/
def FlipProbability.value (p : FlipProbability) : ℚ := (p.hits + 1) / (p.hits + p.misses + 2)

/-- The state of the fault-injection generator: an opaque type of the spec (`10_state.md` R30), carried by the natural
numbers, which have a value for every state a generator may be in. -/
abbrev RngState := Nat

/-- What a computed NaN may depend on besides being a fresh draw (`43_fp_numerics.md` R211: "the draw may depend on the
operands"): the selector, the effective rounding mode where the rule reads one, the lane or step inside the request, and
the operands as that computation reads them (zero-extended). -/
structure NanSite where
  selector : BitVec 8
  mode     : Option RoundMode
  index    : Nat
  x        : BitVec 64
  y        : BitVec 64
  z        : BitVec 64
deriving DecidableEq, Repr

/-- SEED: the host's choice at construction (`70_reset_and_hazards.md` R490). Free value, assumption log 6. -/
opaque Config.seed : Nat

/-- `rng_init` (R490). Free value, assumption log 6. -/
opaque Config.rngInit : Nat → RngState

/-- `rng_next` (R181). Free value, assumption log 6. -/
opaque Config.rngNext : RngState → RngState

/-- P_FLIP: the probability of a flip (`00_scope.md` R9, R180). Free value, assumption log 6. -/
opaque Config.pFlip : FlipProbability

/-- The map from P_FLIP and `rng` to the outcome of a FAULT_INJECT request (R180, R181), under no law of probability: "a
model keeps every outcome possible on every call" (R180). Free value, assumption log 6. -/
opaque Config.rngDraw : FlipProbability → RngState → FaultDraw

/-- NAN_PICK_S: the bits the sign and payload of a computed single-precision NaN are taken from (R211), a fresh value
for every draw count. Free value, assumption log 7. -/
opaque Config.nanPickS : Nat → NanSite → BitVec 32

/-- NAN_PICK_D: the same for double precision (R211). Free value, assumption log 7. -/
opaque Config.nanPickD : Nat → NanSite → BitVec 64

end Sys2Proof
end

