-- ==== Sys2Proof/Machine/State.lean ====
section
/-! DEFINITION. State: everything the spec gives the machine, as plain data, and its value at reset.
The block's only persistent state is the generator `rng` (`10_state.md` R30). Around it stand the two ports (R33, R34), the
caller's side of the request port (`20_memory.md` R66, `70_reset_and_hazards.md` R500), the ambient rounding mode (R43), the
open parameters of `00_scope.md` R9 and the model's own draw counter. There is no register file, program counter or memory
(R31, R32, R60). -/

namespace Sys2Proof.Machine

/-- One request (R33): the control word and the three operands. -/
structure Request where
  /-- `op` in bits 7:0, `rm` in bits 10:8 (R80). -/
  ctrl : BitVec 11
  a : Word
  b : Word
  c : Word
deriving DecidableEq, Repr

/-- One response (R34). -/
structure Response where
  result : Word
  /-- The overflow flag; `flip` for FAULT_INJECT, "corrected" for ECC_CHECK (R34, R36). -/
  ovf : Bool
  /-- NX, UF, OF, DZ, NV in bits 0 to 4 (R37). -/
  fflags : BitVec 5
deriving DecidableEq, Repr

/-- The open parameters with a stated default (`00_scope.md` R9). No step changes them. -/
structure Params where
  bf16Narrow : NarrowRule
  wuExtend   : ExtendRule
  decodeMeta : MetaRule
deriving DecidableEq, Repr

/-- The machine's state. -/
structure State where
  /-- Requests the caller has issued and the block has not yet taken, oldest first (R66). -/
  requests : List Request
  /-- Another request is in progress when the next one is presented: a breach of R500 by the caller. -/
  inProgress : Bool
  /-- The request port: the request the block works on (R33). R52 gives it no value between requests: that it keeps an
  answered request until the next one is taken is the model's choice (DESIGN CHOICE, assumption log 4). -/
  port : Request
  /-- The response port: the last response, if one has been given (R34). R52 gives it no value between requests: that it
  keeps a response until the next one is the model's choice (DESIGN CHOICE, assumption log 5). -/
  response : Option Response
  /-- The fault-injection generator (R30). -/
  rng : RngState
  /-- AMBIENT_RM, the caller's rounding mode (R40, R43). -/
  ambientRm : RoundMode
  /-- The parameters (R9). -/
  params : Params
  /-- The model's own counter of NaN draws (assumption log 7); no field of the spec. -/
  nanDraws : Nat
deriving DecidableEq, Repr

/-- The reasons a step can fault: none. "No request raises an exception, a trap or a fault, and none aborts"
(`60_exceptions.md` R460), so the type has no constructor. -/
inductive Fault where
deriving DecidableEq, Repr

/-- The reasons a step can be refused: the model's own outcome, never the block's (R464). -/
inductive Refusal where
  /-- An instruction that has no meaning in the model yet; raised by `exec`'s arms only. Safe. -/
  | notModelled (mnemonic : String)
  /-- `rm` 5, 6 or 7 on a selector that rounds: "the source defines no behaviour for it" (R41). Raised by the meanings of
  the rounding selectors. Safe: the model stops where the block does something unknown. -/
  | reservedRoundingMode
  /-- A request presented while another is in progress (R500). Raised by `step`. Safe. -/
  | requestInProgress
deriving DecidableEq, Repr

/-- The machine right after reset (R490, R491, R52): the generator seeded, nothing issued, nothing answered. The port's
zeros (log 4), the ambient mode RNE (log 8) and the parameters' defaults (log 9, 10, 11) are named in the assumption log. -/
def State.reset : State where
  requests := []
  inProgress := false
  port := { ctrl := 0, a := 0, b := 0, c := 0 }
  response := none
  rng := Config.rngInit Config.seed
  ambientRm := .rne
  params := { bf16Narrow := .rne, wuExtend := .sign, decodeMeta := .keep }
  nanDraws := 0

end Sys2Proof.Machine
end

