-- ==== Sys2Proof/Machine/Flags.lean ====
section
/-! DEFINITION. Flags: the integer overflow flag (`40_integer_scalar.md` R101) and the layout of `fflags`
(`10_state.md` R37). -/

namespace Sys2Proof.Machine

/-- The exact integer `z` lies outside the signed range of width `n` (R101). -/
def signedOverflow (n : Nat) (z : Int) : Bool :=
  decide (z < -(2 : Int) ^ (n - 1)) || decide ((2 : Int) ^ (n - 1) - 1 < z)

/-- `fflags` bit 0: inexact (R37). -/
def flagNX : BitVec 5 := 0x01#5
/-- `fflags` bit 1: underflow (R37). -/
def flagUF : BitVec 5 := 0x02#5
/-- `fflags` bit 2: overflow (R37). -/
def flagOF : BitVec 5 := 0x04#5
/-- `fflags` bit 3: divide-by-zero (R37). -/
def flagDZ : BitVec 5 := 0x08#5
/-- `fflags` bit 4: invalid operation (R37). -/
def flagNV : BitVec 5 := 0x10#5

/-- The flag `f` where the condition holds, no flag elsewhere. -/
def flagIf (p : Bool) (f : BitVec 5) : BitVec 5 := if p then f else 0#5

end Sys2Proof.Machine
end

