-- ==== Sys2Proof/Machine/Numerics.lean ====
section
/-! DEFINITION. Numerics: the floating-point procedures every floating operation shares (`43_fp_numerics.md` R200 to R227),
over any IEEE-style format, with exact integer arithmetic and one rounding at the end (R205). A NaN that an IEEE
computation produces (R211) takes its sign and payload from the argument `pick`. -/

namespace Sys2Proof.Machine

/-- A floating-point format by its precision `p` and largest exponent `emax` (R200). Its bias is `emax`, its width the
width of the patterns it is used with. -/
structure Format where
  precision : Nat
  emax      : Nat
deriving DecidableEq, Repr

/-- S, binary32 (R200). -/
def single : Format := { precision := 24, emax := 127 }
/-- D, binary64 (R200). -/
def double : Format := { precision := 53, emax := 1023 }
/-- H, bfloat16 (R200). -/
def bfloat16 : Format := { precision := 8, emax := 127 }

/-- The number `t = p - 1` of fraction bits (R201). -/
def fractionBits (F : Format) : Nat := F.precision - 1
/-- The smallest normal exponent (R200). -/
def emin (F : Format) : Int := 1 - (F.emax : Int)
/-- The exponent field of all ones (R201). -/
def maxField (F : Format) : Nat := 2 * F.emax + 1

/-- What a pattern stands for (R201): a NaN, an infinity, or the finite value `(-1)^neg * sig * 2^exp`. -/
inductive Datum where
  | nan (quiet : Bool)
  | inf (neg : Bool)
  | fin (neg : Bool) (sig : Nat) (exp : Int)
deriving DecidableEq, Repr

/-- The exponent field `E` (R201). -/
def exponentField (F : Format) {w : Nat} (v : BitVec w) : Nat := v.toNat / 2 ^ fractionBits F % (maxField F + 1)

/-- The fraction field `T` (R201). -/
def fractionField (F : Format) {w : Nat} (v : BitVec w) : Nat := v.toNat % 2 ^ fractionBits F

/-- Decoding a pattern (R201); a NaN is quiet when the most-significant fraction bit is 1 (R202). -/
def datum (F : Format) {w : Nat} (v : BitVec w) : Datum :=
  let t := fractionField F v
  let e := exponentField F v
  if e = maxField F then
    if t = 0 then .inf v.msb else .nan (decide (2 ^ (fractionBits F - 1) ≤ t))
  else if e = 0 then .fin v.msb t (emin F - fractionBits F)
  else .fin v.msb (2 ^ fractionBits F + t) ((e : Int) - F.emax - fractionBits F)

/-- Is the datum a NaN? -/
def Datum.isNaN : Datum → Bool
  | .nan _ => true
  | .inf _ => false
  | .fin _ _ _ => false

/-- Is the datum a signaling NaN (R202)? -/
def Datum.isSignaling : Datum → Bool
  | .nan quiet => !quiet
  | .inf _ => false
  | .fin _ _ _ => false

/-- Is the datum a zero of either sign? -/
def Datum.isZero : Datum → Bool
  | .nan _ => false
  | .inf _ => false
  | .fin _ sig _ => decide (sig = 0)

/-- Is the datum an infinity? -/
def Datum.isInf : Datum → Bool
  | .nan _ => false
  | .inf _ => true
  | .fin _ _ _ => false

/-- The datum with its sign changed where `p` holds. -/
def Datum.negateIf (p : Bool) : Datum → Datum
  | .nan quiet => .nan quiet
  | .inf neg => .inf (neg ^^ p)
  | .fin neg sig exp => .fin (neg ^^ p) sig exp

/-- A pattern from its sign and its other bits. -/
def signedPattern {w : Nat} (neg : Bool) (magnitude : Nat) : BitVec w :=
  BitVec.ofNat w ((if neg then 2 ^ (w - 1) else 0) + magnitude)

/-- A zero of the given sign. -/
def zeroPattern {w : Nat} (neg : Bool) : BitVec w := signedPattern neg 0

/-- The infinity of the given sign (R201). -/
def infPattern (F : Format) {w : Nat} (neg : Bool) : BitVec w := signedPattern neg (maxField F * 2 ^ fractionBits F)

/-- `MAX_F`, the largest finite magnitude, with the given sign (R200). -/
def maxPattern (F : Format) {w : Nat} (neg : Bool) : BitVec w := signedPattern neg (maxField F * 2 ^ fractionBits F - 1)

/-- `qNaN_F`, the canonical quiet NaN (R210). -/
def canonicalNaN (F : Format) {w : Nat} : BitVec w :=
  signedPattern false (maxField F * 2 ^ fractionBits F + 2 ^ (fractionBits F - 1))

/-- The sign bit changed (R227). -/
def negatePattern {w : Nat} (v : BitVec w) : BitVec w := v ^^^ BitVec.twoPow w (w - 1)

/-- A floating result: its pattern and the flags its computation raises. -/
structure FpResult (w : Nat) where
  value : BitVec w
  flags : BitVec 5
deriving DecidableEq, Repr

/-- A result that raises nothing. -/
def exactResult {w : Nat} (v : BitVec w) : FpResult w := { value := v, flags := 0#5 }

/-- A computed NaN (R211): exponent all ones and most-significant fraction bit 1, sign and payload from `pick`; NV where
the operation is invalid or an operand signaling (R212). -/
def nanResult (F : Format) {w : Nat} (pick : BitVec w) (invalid : Bool) : FpResult w :=
  { value := pick ||| canonicalNaN F, flags := flagIf invalid flagNV }

/-! ### Exact positive values and rounding (R205 to R208) -/

/-- An exact positive real: the ratio `num / den`, or the square root of that ratio. -/
inductive Exact where
  | ratio (num den : Nat)
  | root (num den : Nat)
deriving DecidableEq, Repr

/-- What stands after the integer part of a non-negative real: nothing, less than a half, a half, or more. -/
inductive Rest where
  | exact
  | below
  | half
  | above
deriving DecidableEq, Repr

/-- A non-negative real as far as rounding sees it: its integer part and what stands after it. -/
structure Scaled where
  floor : Nat
  rest  : Rest
deriving DecidableEq, Repr

/-- `floor(log2(num / den))` for positive `num` and `den`. -/
def ratioLog2 (num den : Nat) : Int :=
  let d : Int := (num.log2 : Int) - (den.log2 : Int)
  if den * 2 ^ d.toNat ≤ num * 2 ^ (-d).toNat then d else d - 1

/-- `floor(log2(x))`: the exponent `e` of R206. -/
def Exact.floorLog2 : Exact → Int
  | .ratio num den => ratioLog2 num den
  | .root num den => ratioLog2 num den / 2

/-- The integer part of the square root of `n`, for `n` below `4 ^ fuel`: one bit of the root for each unit of fuel. -/
def isqrt : Nat → Nat → Nat
  | 0, _ => 0
  | fuel + 1, n =>
    let r := 2 * isqrt fuel (n / 4)
    if (r + 1) * (r + 1) ≤ n then r + 1 else r

/-- Where `x` stands against a half: the rest after an integer part, from a doubled remainder and the unit. -/
def restOf (zero : Bool) (twice unit : Nat) : Rest :=
  if zero then .exact else if twice < unit then .below else if twice = unit then .half else .above

/-- `num / den` as integer part and rest. -/
def scaledRatio (num den : Nat) : Scaled :=
  { floor := num / den, rest := restOf (num % den == 0) (2 * (num % den)) den }

/-- The square root of `num / den` as integer part and rest: with `n` the integer part, the root is above `n + 1/2`
exactly when `4 * num` is above `(2 * n + 1) ^ 2 * den`. -/
def scaledRoot (num den : Nat) : Scaled :=
  let q := num / den
  let n := isqrt (q.log2 / 2 + 1) q
  { floor := n, rest := restOf (n * n * den == num) (4 * num) ((2 * n + 1) * (2 * n + 1) * den) }

/-- `x / 2^k` as integer part and rest. -/
def Exact.scaled (x : Exact) (k : Int) : Scaled :=
  match x with
  | .ratio num den => scaledRatio (num * 2 ^ (-k).toNat) (den * 2 ^ k.toNat)
  | .root num den => scaledRoot (num * 2 ^ (-(2 * k)).toNat) (den * 2 ^ (2 * k).toNat)

/-- `rnd_m(y, s)` (R206): the rounding of a non-negative real to an integer under mode `m`, `neg` its sign. -/
def roundInt (m : RoundMode) (neg : Bool) (y : Scaled) : Nat :=
  match y.rest with
  | .exact => y.floor
  | .below =>
    match m with
    | .rne => y.floor
    | .rtz => y.floor
    | .rdn => if neg then y.floor + 1 else y.floor
    | .rup => if neg then y.floor else y.floor + 1
  | .half =>
    match m with
    | .rne => if y.floor % 2 = 0 then y.floor else y.floor + 1
    | .rtz => y.floor
    | .rdn => if neg then y.floor + 1 else y.floor
    | .rup => if neg then y.floor else y.floor + 1
  | .above =>
    match m with
    | .rne => y.floor + 1
    | .rtz => y.floor
    | .rdn => if neg then y.floor + 1 else y.floor
    | .rup => if neg then y.floor else y.floor + 1

/-- `overflow_F(s, m)` (R207). -/
def overflowResult (F : Format) {w : Nat} (m : RoundMode) (neg : Bool) : FpResult w :=
  let toInf := match m with
    | .rne => true
    | .rtz => false
    | .rdn => neg
    | .rup => !neg
  { value := if toInf then infPattern F neg else maxPattern F neg, flags := flagOF ||| flagNX }

/-- `tiny_F(X, m)` (R208): rounded to `p` bits with an unbounded exponent range, the magnitude is below `2^emin`. Below
that bound the rounding reaches it only by carrying out of the binade just under it. -/
def tiny (F : Format) (m : RoundMode) (neg : Bool) (x : Exact) : Bool :=
  let e := x.floorLog2
  decide (e < emin F) &&
    !(decide (e + 1 = emin F) && decide (roundInt m neg (x.scaled (e - fractionBits F)) = 2 ^ F.precision))

/-- The magnitude bits of `n * 2^(e - p + 1)` in F (R206): a subnormal when `n < 2^(p-1)` (then `e` is `emin`), and
otherwise the exponent field `e - emin + 1` over the fraction `n - 2^(p-1)`, whose hidden bit is the field's unit. -/
def magnitudeBits (F : Format) (n : Nat) (e : Int) : Nat := (e - emin F).toNat * 2 ^ fractionBits F + n

/-- `round_F(x, m)` for the exact real of magnitude `x` and sign `neg` (R206, R207, R208). -/
def roundTo (F : Format) {w : Nat} (m : RoundMode) (neg : Bool) (x : Exact) : FpResult w :=
  let e1 := max x.floorLog2 (emin F)
  let y := x.scaled (e1 - fractionBits F)
  let n := roundInt m neg y
  let carry := decide (n = 2 ^ F.precision)
  let e2 := if carry then e1 + 1 else e1
  let n2 := if carry then 2 ^ (F.precision - 1) else n
  if (F.emax : Int) < e2 then overflowResult F m neg
  else
    { value := signedPattern neg (magnitudeBits F n2 e2)
      flags := if y.rest = .exact then 0#5 else flagNX ||| flagIf (tiny F m neg x) flagUF }

/-- The exact positive value `sig * 2^exp`. -/
def dyadic (sig : Nat) (exp : Int) : Exact := .ratio (sig * 2 ^ exp.toNat) (2 ^ (-exp).toNat)

/-- A finite value rounded: an exact zero keeps its sign and raises nothing (R216), any other value is rounded (R206). -/
def roundFinite (F : Format) {w : Nat} (m : RoundMode) (neg : Bool) (sig : Nat) (exp : Int) : FpResult w :=
  if sig = 0 then exactResult (zeroPattern neg) else roundTo F m neg (dyadic sig exp)

/-! ### Sums, products, quotients, roots (R216, R217, R224 to R227) -/

/-- The signed integer `(-1)^neg * sig * 2^(exp - e)`, for `e` at most `exp`. -/
def alignedInt (neg : Bool) (sig : Nat) (exp e : Int) : Int :=
  let m : Int := (sig * 2 ^ (exp - e).toNat : Nat)
  if neg then -m else m

/-- The sum of two finite values, rounded once; the sign of an exact zero is R216's. -/
def addFinite (F : Format) {w : Nat} (m : RoundMode) (neg1 : Bool) (sig1 : Nat) (exp1 : Int)
    (neg2 : Bool) (sig2 : Nat) (exp2 : Int) : FpResult w :=
  let e := min exp1 exp2
  let z := alignedInt neg1 sig1 exp1 e + alignedInt neg2 sig2 exp2 e
  if z = 0 then exactResult (zeroPattern (if neg1 = neg2 then neg1 else decide (m = .rdn)))
  else roundTo F m (decide (z < 0)) (dyadic z.natAbs e)

/-- The sum of two data (R212, R216, R217, R227). -/
def addDatum (F : Format) {w : Nat} (m : RoundMode) (pick : BitVec w) (x y : Datum) : FpResult w :=
  match x, y with
  | .nan q, d => nanResult F pick (!q || d.isSignaling)
  | .inf _, .nan q => nanResult F pick (!q)
  | .fin _ _ _, .nan q => nanResult F pick (!q)
  | .inf s, .inf s' => if s = s' then exactResult (infPattern F s) else nanResult F pick true
  | .inf s, .fin _ _ _ => exactResult (infPattern F s)
  | .fin _ _ _, .inf s => exactResult (infPattern F s)
  | .fin s n e, .fin s' n' e' => addFinite F m s n e s' n' e'

/-- `add_F(a, b, m)` (R227). -/
def addF (F : Format) {w : Nat} (m : RoundMode) (pick x y : BitVec w) : FpResult w :=
  addDatum F m pick (datum F x) (datum F y)

/-- `sub_F(a, b, m) = add_F(a, -b, m)` (R227). -/
def subF (F : Format) {w : Nat} (m : RoundMode) (pick x y : BitVec w) : FpResult w :=
  addF F m pick x (negatePattern y)

/-- `mul_F(a, b, m)` (R212, R216, R217, R227). -/
def mulF (F : Format) {w : Nat} (m : RoundMode) (pick x y : BitVec w) : FpResult w :=
  match datum F x, datum F y with
  | .nan q, d => nanResult F pick (!q || d.isSignaling)
  | .inf _, .nan q => nanResult F pick (!q)
  | .fin _ _ _, .nan q => nanResult F pick (!q)
  | .inf s, .inf s' => exactResult (infPattern F (s ^^ s'))
  | .inf s, .fin s' n _ => if n = 0 then nanResult F pick true else exactResult (infPattern F (s ^^ s'))
  | .fin s n _, .inf s' => if n = 0 then nanResult F pick true else exactResult (infPattern F (s ^^ s'))
  | .fin s n e, .fin s' n' e' => roundFinite F m (s ^^ s') (n * n') (e + e')

/-- The exact quotient of two positive finite values. -/
def quotientExact (sig1 : Nat) (exp1 : Int) (sig2 : Nat) (exp2 : Int) : Exact :=
  .ratio (sig1 * 2 ^ (exp1 - exp2).toNat) (sig2 * 2 ^ (exp2 - exp1).toNat)

/-- The IEEE quotient (R212, R216, R217): `div_ieee_S` of R353, and R225 after its zero-divisor test. A non-zero finite
value over a zero is an infinity with DZ, zero over zero is invalid, an infinity over a zero is an infinity without a
flag (DEDUCED, assumption log 14). -/
def quotientF (F : Format) {w : Nat} (m : RoundMode) (pick x y : BitVec w) : FpResult w :=
  match datum F x, datum F y with
  | .nan q, d => nanResult F pick (!q || d.isSignaling)
  | .inf _, .nan q => nanResult F pick (!q)
  | .fin _ _ _, .nan q => nanResult F pick (!q)
  | .inf _, .inf _ => nanResult F pick true
  | .inf s, .fin s' _ _ => exactResult (infPattern F (s ^^ s'))
  | .fin s _ _, .inf s' => exactResult (zeroPattern (s ^^ s'))
  | .fin s n e, .fin s' n' e' =>
    if n' = 0 then
      if n = 0 then nanResult F pick true else { value := infPattern F (s ^^ s'), flags := flagDZ }
    else if n = 0 then exactResult (zeroPattern (s ^^ s'))
    else roundTo F m (s ^^ s') (quotientExact n e n' e')

/-- `div_F(a, b, m)` (R225): a zero divisor first, whatever `a` is; then the IEEE quotient. -/
def divF (F : Format) {w : Nat} (m : RoundMode) (pick x y : BitVec w) : FpResult w :=
  if (datum F y).isZero then { value := canonicalNaN F, flags := flagDZ } else quotientF F m pick x y

/-- The exact square root of a positive finite value. -/
def rootExact (sig : Nat) (exp : Int) : Exact := .root (sig * 2 ^ exp.toNat) (2 ^ (-exp).toNat)

/-- `sqrt_F(a, m)` (R226): a negative operand first; a NaN; zeros and the positive infinity as they are; the rest rounded. -/
def sqrtF (F : Format) {w : Nat} (m : RoundMode) (pick x : BitVec w) : FpResult w :=
  match datum F x with
  | .nan q => nanResult F pick (!q)
  | .inf neg => if neg then { value := canonicalNaN F, flags := flagNV } else exactResult x
  | .fin neg n e =>
    if n = 0 then exactResult x
    else if neg then { value := canonicalNaN F, flags := flagNV }
    else roundTo F m false (rootExact n e)

/-- `a * b` is zero times infinity (R212, R224). -/
def zeroTimesInf (x y : Datum) : Bool := (x.isZero && y.isInf) || (x.isInf && y.isZero)

/-- The exact product of two data that are not NaNs and not zero times infinity. -/
def productDatum (x y : Datum) : Datum :=
  match x, y with
  | .fin s n e, .fin s' n' e' => .fin (s ^^ s') (n * n') (e + e')
  | .inf s, .inf s' => .inf (s ^^ s')
  | .inf s, .fin s' _ _ => .inf (s ^^ s')
  | .fin s _ _, .inf s' => .inf (s ^^ s')
  | .nan q, _ => .nan q
  | .inf _, .nan q => .nan q
  | .fin _ _ _, .nan q => .nan q

/-- `fma_F(a, b, c, np, nc, m)` (R224): `(-1)^np * (a * b) + (-1)^nc * c`, rounded once. Zero times infinity is invalid
whatever `c` is; then a NaN operand; then the sum of the exact product and the addend. -/
def fmaF (F : Format) {w : Nat} (m : RoundMode) (np nc : Bool) (pick x y z : BitVec w) : FpResult w :=
  let dx := datum F x
  let dy := datum F y
  let dz := datum F z
  if zeroTimesInf dx dy then nanResult F pick true
  else if dx.isNaN || dy.isNaN || dz.isNaN then
    nanResult F pick (dx.isSignaling || dy.isSignaling || dz.isSignaling)
  else addDatum F m pick ((productDatum dx dy).negateIf np) (dz.negateIf nc)

/-! ### Conversions, minimum and maximum, comparison, classification, sign injection (R218 to R223) -/

/-- An integer of a conversion, with its flags. -/
structure IntResult where
  value : Int
  flags : BitVec 5
deriving DecidableEq, Repr

/-- `cvt_to_int_F(x, m, N, signed)` (R218). -/
def cvtToInt (F : Format) {w : Nat} (m : RoundMode) (bits : Nat) (signed : Bool) (x : BitVec w) : IntResult :=
  let lo : Int := if signed then -(2 : Int) ^ (bits - 1) else 0
  let hi : Int := if signed then (2 : Int) ^ (bits - 1) - 1 else (2 : Int) ^ bits - 1
  match datum F x with
  | .nan _ => { value := hi, flags := flagNV }
  | .inf neg => { value := if neg then lo else hi, flags := flagNV }
  | .fin neg sig exp =>
    let y := (dyadic sig exp).scaled 0
    let r : Int := (roundInt m neg y : Nat)
    let n := if neg then -r else r
    if n < lo then { value := lo, flags := flagNV }
    else if hi < n then { value := hi, flags := flagNV }
    else { value := n, flags := if y.rest = .exact then 0#5 else flagNX }

/-- `cvt_from_int_F(n, m)` (R219): zero gives `+0`; any other integer is rounded. -/
def cvtFromInt (F : Format) {w : Nat} (m : RoundMode) (n : Int) : FpResult w :=
  roundFinite F m (decide (n < 0)) n.natAbs 0

/-- The numeric relation "less than" of two data; false when one is a NaN (R221). -/
def Datum.lt : Datum → Datum → Bool
  | .nan _, _ => false
  | .inf _, .nan _ => false
  | .fin _ _ _, .nan _ => false
  | .inf s, .inf s' => s && !s'
  | .inf s, .fin _ _ _ => s
  | .fin _ _ _, .inf s => !s
  | .fin s n e, .fin s' n' e' => decide (alignedInt s n e (min e e') < alignedInt s' n' e' (min e e'))

/-- The numeric relation "equal" of two data, with `+0 = -0`; false when one is a NaN (R221). -/
def Datum.eq : Datum → Datum → Bool
  | .nan _, _ => false
  | .inf _, .nan _ => false
  | .fin _ _ _, .nan _ => false
  | .inf s, .inf s' => s == s'
  | .inf _, .fin _ _ _ => false
  | .fin _ _ _, .inf _ => false
  | .fin s n e, .fin s' n' e' => decide (alignedInt s n e (min e e') = alignedInt s' n' e' (min e e'))

/-- The relations FEQ, FLT and FLE ask for (R221). -/
inductive Rel where
  | eq
  | lt
  | le
deriving DecidableEq, Repr

/-- `cmp_F(a, b, rel)` (R221). -/
def cmpF (F : Format) {w : Nat} (rel : Rel) (x y : BitVec w) : Bool :=
  match rel with
  | .eq => (datum F x).eq (datum F y)
  | .lt => (datum F x).lt (datum F y)
  | .le => (datum F x).lt (datum F y) || (datum F x).eq (datum F y)

/-- `minmax_F(a, b, ismax)` (R220). -/
def minmaxF (F : Format) {w : Nat} (ismax : Bool) (pick x y : BitVec w) : FpResult w :=
  let dx := datum F x
  let dy := datum F y
  let fl := flagIf (dx.isSignaling || dy.isSignaling) flagNV
  if dx.isNaN && dy.isNaN then { value := (nanResult F pick false).value, flags := fl }
  else if dx.isNaN then { value := y, flags := fl }
  else if dy.isNaN then { value := x, flags := fl }
  else if dx.isZero && dy.isZero && (x.msb ^^ y.msb) then { value := zeroPattern (!ismax), flags := fl }
  else if ismax then { value := if cmpF F .le y x then x else y, flags := fl }
  else { value := if cmpF F .le x y then x else y, flags := fl }

/-- `class_F(a)` (R222): one bit of ten. -/
def classF (F : Format) {w : Nat} (x : BitVec w) : BitVec 10 :=
  match datum F x with
  | .inf true => 0x001#10
  | .fin true sig _ => if sig = 0 then 0x008#10 else if exponentField F x = 0 then 0x004#10 else 0x002#10
  | .fin false sig _ => if sig = 0 then 0x010#10 else if exponentField F x = 0 then 0x020#10 else 0x040#10
  | .inf false => 0x080#10
  | .nan false => 0x100#10
  | .nan true => 0x200#10

/-- `a` with the given sign bit: `s ++ a[w-2:0]` (R223). -/
def withSign {w : Nat} (neg : Bool) (x : BitVec w) : BitVec w :=
  (x &&& ~~~(BitVec.twoPow w (w - 1))) ||| (if neg then BitVec.twoPow w (w - 1) else 0#w)

/-- `sgnj(a, b)` (R223). -/
def sgnj {w : Nat} (x y : BitVec w) : BitVec w := withSign y.msb x
/-- `sgnjn(a, b)` (R223). -/
def sgnjn {w : Nat} (x y : BitVec w) : BitVec w := withSign (!y.msb) x
/-- `sgnjx(a, b)` (R223). -/
def sgnjx {w : Nat} (x y : BitVec w) : BitVec w := withSign (x.msb ^^ y.msb) x

end Sys2Proof.Machine
end

