-- ==== Sys2Proof/Machine/Operands.lean ====
section
/-! DEFINITION. Operands: how a 64-bit operand is read (`10_state.md` R35, `00_scope.md` R10, R12) and how a narrower result
is placed in the 64-bit result (`43_fp_numerics.md` R213, `40_integer_scalar.md` R120). -/

namespace Sys2Proof.Machine

/-- The first operand of the request being worked on (R33). -/
def State.a (s : State) : Word := s.port.a
/-- The second operand (R33). -/
def State.b (s : State) : Word := s.port.b
/-- The third operand: the addend of a fused multiply-add, the accumulator of BF16.DOT (R33). -/
def State.c (s : State) : Word := s.port.c

/-- `v[31:0]`: a single-precision value, a W operand, packed lane 0 of width 32 (R35, R120). -/
def low32 (v : Word) : BitVec 32 := v.extractLsb' 0 32

/-- `v[63:32]`: packed lane 1 of width 32 (R12). -/
def high32 (v : Word) : BitVec 32 := v.extractLsb' 32 32

/-- `lane_16(v, i)` (R12). -/
def lane16 (v : Word) (i : Nat) : BitVec 16 := v.extractLsb' (16 * i) 16

/-- `lane_32(v, i)` (R12). -/
def lane32 (v : Word) (i : Nat) : BitVec 32 := v.extractLsb' (32 * i) 32

/-- `pack_32(l0, l1)` (R12). -/
def pack32 (l0 l1 : BitVec 32) : Word := l1 ++ l0

/-- `pack_16(l0, l1, l2, l3)` (R12). -/
def pack16 (l0 l1 l2 l3 : BitVec 16) : Word := l3 ++ l2 ++ l1 ++ l0

/-- `sext_64` of a 32-bit value (R11). -/
def sext64 (v : BitVec 32) : Word := v.signExtend 64

/-- `zext_64` of a 32-bit value (R11). -/
def zext64 (v : BitVec 32) : Word := v.setWidth 64

/-- A truth value as a 64-bit 0 or 1 (R118, R119, R213). -/
def boolWord (p : Bool) : Word := if p then 1#64 else 0#64

/-- The shift amount of a 64-bit shift: `b[5:0]` (R115). -/
def shamt64 (b : Word) : Nat := (b.extractLsb' 0 6).toNat

/-- The shift amount of a W shift: `b[4:0]` (R120). -/
def shamt32 (b : Word) : Nat := (b.extractLsb' 0 5).toNat

/-- `ext` of the unsigned 32-bit conversions, by the parameter WU_EXTEND (R269). -/
def extendWu (rule : ExtendRule) (v : BitVec 32) : Word :=
  match rule with
  | .sign => sext64 v
  | .zero => zext64 v

/-- The effective rounding mode `eff(rm)` (R39, R40); none for the reserved values 5, 6, 7 (R41). -/
def effMode (ambient : RoundMode) (rm : BitVec 3) : Option RoundMode :=
  match rm.toNat with
  | 0 => some .rne
  | 1 => some .rtz
  | 2 => some .rdn
  | 3 => some .rup
  | 4 => some ambient
  | _ => none

end Sys2Proof.Machine
end

