-- ==== Sys2Proof/Machine/Ops.lean ====
section
/-! DEFINITION. Ops: the operations every meaning shares: taking the next request (`10_state.md` R33, `20_memory.md` R66),
answering it (R34), the rounding field's check (R40, R41), the NaN draws (`43_fp_numerics.md` R211) and the generator's advance
(`42_alu_fault_ecc.md` R181). There is no exception to take and none to return from (`60_exceptions.md` R460, R466). -/

namespace Sys2Proof.Machine

/-- What the request side offers a step. -/
inductive Fetched where
  /-- No request is issued. -/
  | idle
  /-- A request is presented while another is in progress (R500). -/
  | overlapping
  /-- The control word of the oldest request, and the state with that request on the port (R66). -/
  | taken (ctrl : BitVec 11) (s : State)
deriving DecidableEq, Repr

/-- Take the oldest request issued (R66), unless another one is in progress (R500). Nothing but taking a request writes the
port, so an answered request stays there until the next one is taken, where R52 gives no value (DESIGN CHOICE, assumption
log 4). -/
def State.take (s : State) : Fetched :=
  match s.requests with
  | [] => .idle
  | q :: rest => if s.inProgress then .overlapping else .taken q.ctrl { s with requests := rest, port := q }

/-- Write the response port (R34); the request port is left as it is (DESIGN CHOICE, assumption log 4). -/
def State.respond (s : State) (result : Word) (ovf : Bool) (fflags : BitVec 5) : State :=
  { s with response := some { result := result, ovf := ovf, fflags := fflags } }

/-- The answer of an integer, packed-integer, fault-injection or ECC request: `fflags = 0` (R34, D6). -/
def State.answerInt (s : State) (result : Word) (ovf : Bool) : State := s.respond result ovf 0#5

/-- The answer of a floating request: `ovf = 0` (R34, D6). -/
def State.answerFloat (s : State) (result : Word) (fflags : BitVec 5) : State := s.respond result false fflags

/-- The answer of an unassigned selector: zeros (R84, R462). -/
def State.answerUnassigned (s : State) : State := s.respond 0#64 false 0#5

/-- The next request's NaN draws are fresh (assumption log 7). -/
def State.advanceDraws (s : State) : State := { s with nanDraws := s.nanDraws + 1 }

/-- One advance of the fault-injection generator (R181). -/
def State.advanceRng (s : State) : State := { s with rng := Config.rngNext s.rng }

/-- A rounding selector under its effective mode, or its refusal for a reserved `rm` (R40, R41). -/
def withMode (rm : BitVec 3) (s : State) (k : RoundMode → State) : Host.Outcome State Fault Refusal :=
  match effMode s.ambientRm rm with
  | some m => .next (k m)
  | none => .refused .reservedRoundingMode

/-- NAN_PICK_S for one computation of the current request (R211). -/
def drawS (s : State) (selector : BitVec 8) (mode : Option RoundMode) (index : Nat) (x y z : BitVec 32) : BitVec 32 :=
  Config.nanPickS s.nanDraws
    { selector := selector, mode := mode, index := index, x := zext64 x, y := zext64 y, z := zext64 z }

/-- NAN_PICK_D for one computation of the current request (R211). -/
def drawD (s : State) (selector : BitVec 8) (mode : Option RoundMode) (x y z : BitVec 64) : BitVec 64 :=
  Config.nanPickD s.nanDraws { selector := selector, mode := mode, index := 0, x := x, y := y, z := z }

/-- The answer of a floating request whose result is a single: zero-extended (R213). The draw counter moves on. -/
def State.answerS (s : State) (r : FpResult 32) : State := (s.answerFloat (zext64 r.value) r.flags).advanceDraws

/-- The answer of a floating request whose result is a double (R213). The draw counter moves on. -/
def State.answerD (s : State) (r : FpResult 64) : State := (s.answerFloat r.value r.flags).advanceDraws

end Sys2Proof.Machine
end

