-- ==== Sys2Proof/Machine/Bf16.lean ====
section
/-! DEFINITION. Bf16: the meanings of the packed bfloat16 selectors (`46_packed_bf16.md` R350 to R358): each lane expanded to
binary32, computed there, clamped and narrowed. -/

namespace Sys2Proof.Machine

/-- `expand(h)` (R350). -/
def expandBf16 (h : BitVec 16) : BitVec 32 := h ++ 0x0000#16

/-- `narrow(x)` (R351), by the parameter BF16_NARROW. -/
def narrowBf16 (rule : NarrowRule) (x : BitVec 32) : BitVec 16 :=
  if (datum single x).isNaN then x.extractLsb' 16 16 ||| 0x0040#16
  else
    match rule with
    | .rne => (x + 0x7FFF#32 + (x.extractLsb' 16 1).setWidth 32).extractLsb' 16 16
    | .trunc => x.extractLsb' 16 16

/-- `clamp(x)` (R352): a NaN as it is, anything else above the bfloat16 maximum at that maximum, with its sign. -/
def clampBf16 (x : BitVec 32) : BitVec 32 :=
  if (datum single x).isNaN then x
  else if 0x7F7F0000 < x.toNat % 2 ^ 31 then withSign x.msb 0x7F7F0000#32
  else x

/-- One lane of the elementwise procedure (R353): the operation on the expanded lanes, then clamp and narrow. -/
def bf16Lane (s : State) (selector : BitVec 8) (m : RoundMode)
    (f : RoundMode → BitVec 32 → BitVec 32 → BitVec 32 → FpResult 32) (i : Nat) : FpResult 16 :=
  let x := expandBf16 (lane16 s.a i)
  let y := expandBf16 (lane16 s.b i)
  let r := f m (drawS s selector (some m) i x y 0#32) x y
  { value := narrowBf16 s.params.bf16Narrow (clampBf16 r.value), flags := r.flags }

/-- The elementwise lane procedure (R353): four lanes, their flags ORed. -/
def State.answerBf16 (s : State) (selector : BitVec 8)
    (f : RoundMode → BitVec 32 → BitVec 32 → BitVec 32 → FpResult 32) (m : RoundMode) : State :=
  let r0 := bf16Lane s selector m f 0
  let r1 := bf16Lane s selector m f 1
  let r2 := bf16Lane s selector m f 2
  let r3 := bf16Lane s selector m f 3
  (s.answerFloat (pack16 r0.value r1.value r2.value r3.value)
    (r0.flags ||| r1.flags ||| r2.flags ||| r3.flags)).advanceDraws

/-- BF16.ADD (R354). -/
def execBf16Add (rm : BitVec 3) (s : State) : Host.Outcome State Fault Refusal :=
  withMode rm s (s.answerBf16 0xC0#8 (addF single))

/-- BF16.SUB (R355). -/
def execBf16Sub (rm : BitVec 3) (s : State) : Host.Outcome State Fault Refusal :=
  withMode rm s (s.answerBf16 0xC1#8 (subF single))

/-- BF16.MUL (R356). -/
def execBf16Mul (rm : BitVec 3) (s : State) : Host.Outcome State Fault Refusal :=
  withMode rm s (s.answerBf16 0xC2#8 (mulF single))

/-- BF16.DIV: the plain IEEE quotient in each lane (R353, R357). -/
def execBf16Div (rm : BitVec 3) (s : State) : Host.Outcome State Fault Refusal :=
  withMode rm s (s.answerBf16 0xC3#8 (quotientF single))

/-- One step of the dot product (R358): the lane's product added to the accumulator, each rounded. -/
def dotStep (s : State) (m : RoundMode) (acc : FpResult 32) (i : Nat) : FpResult 32 :=
  let x := expandBf16 (lane16 s.a i)
  let y := expandBf16 (lane16 s.b i)
  let p := mulF single m (drawS s 0xC4#8 (some m) (2 * i) x y 0#32) x y
  let r := addF single m (drawS s 0xC4#8 (some m) (2 * i + 1) acc.value p.value 0#32) acc.value p.value
  { value := r.value, flags := acc.flags ||| p.flags ||| r.flags }

/-- BF16.DOT (R358): `(((c + p0) + p1) + p2) + p3` in float32, neither clamped nor narrowed. -/
def execBf16Dot (rm : BitVec 3) (s : State) : Host.Outcome State Fault Refusal :=
  withMode rm s fun m => s.answerS ([0, 1, 2, 3].foldl (dotStep s m) (exactResult (low32 s.c)))

end Sys2Proof.Machine
end

