-- ==== Sys2Proof/Machine/Double.lean ====
section
/-! DEFINITION. Double: the meanings of the double-precision selectors (`45_fp_double.md` R300 to R327). A float operand is
all 64 bits (R203) and so is a double result (R213); `ovf` is 0. -/

namespace Sys2Proof.Machine

/-- The answer of an operation of one float operand; `mode` is what its NaN draw may depend on (R211). -/
def State.unaryD (s : State) (selector : BitVec 8) (mode : Option RoundMode)
    (f : BitVec 64 → BitVec 64 → FpResult 64) : State :=
  s.answerD (f (drawD s selector mode s.a 0#64 0#64) s.a)

/-- The answer of an operation of two float operands. -/
def State.binaryD (s : State) (selector : BitVec 8) (mode : Option RoundMode)
    (f : BitVec 64 → BitVec 64 → BitVec 64 → FpResult 64) : State :=
  s.answerD (f (drawD s selector mode s.a s.b 0#64) s.a s.b)

/-- The answer of an operation of three float operands. -/
def State.ternaryD (s : State) (selector : BitVec 8) (mode : Option RoundMode)
    (f : BitVec 64 → BitVec 64 → BitVec 64 → BitVec 64 → FpResult 64) : State :=
  s.answerD (f (drawD s selector mode s.a s.b s.c) s.a s.b s.c)

/-- The answer of a conversion to an integer, `place` putting the integer in the result (R213). -/
def State.toIntD (s : State) (place : Int → Word) (r : IntResult) : State := s.answerFloat (place r.value) r.flags

/-- The answer of a conversion from an integer (R213, R219): no NaN arises. -/
def State.fromIntD (s : State) (m : RoundMode) (n : Int) : State :=
  let r : FpResult 64 := cvtFromInt double m n
  s.answerFloat r.value r.flags

/-- FADD.D (R300). -/
def execFaddD (rm : BitVec 3) (s : State) : Host.Outcome State Fault Refusal :=
  withMode rm s fun m => s.binaryD 0x80#8 (some m) (addF double m)

/-- FSUB.D (R301). -/
def execFsubD (rm : BitVec 3) (s : State) : Host.Outcome State Fault Refusal :=
  withMode rm s fun m => s.binaryD 0x81#8 (some m) (subF double m)

/-- FMUL.D (R302). -/
def execFmulD (rm : BitVec 3) (s : State) : Host.Outcome State Fault Refusal :=
  withMode rm s fun m => s.binaryD 0x82#8 (some m) (mulF double m)

/-- FDIV.D (R303). -/
def execFdivD (rm : BitVec 3) (s : State) : Host.Outcome State Fault Refusal :=
  withMode rm s fun m => s.binaryD 0x83#8 (some m) (divF double m)

/-- FSQRT.D (R304). -/
def execFsqrtD (rm : BitVec 3) (s : State) : Host.Outcome State Fault Refusal :=
  withMode rm s fun m => s.unaryD 0x84#8 (some m) (sqrtF double m)

/-- FMADD.D: `a*b + c` (R305). -/
def execFmaddD (rm : BitVec 3) (s : State) : Host.Outcome State Fault Refusal :=
  withMode rm s fun m => s.ternaryD 0x85#8 (some m) (fmaF double m false false)

/-- FMSUB.D: `a*b - c` (R306). -/
def execFmsubD (rm : BitVec 3) (s : State) : Host.Outcome State Fault Refusal :=
  withMode rm s fun m => s.ternaryD 0x86#8 (some m) (fmaF double m false true)

/-- FNMSUB.D: `-(a*b) + c` (R307). -/
def execFnmsubD (rm : BitVec 3) (s : State) : Host.Outcome State Fault Refusal :=
  withMode rm s fun m => s.ternaryD 0x87#8 (some m) (fmaF double m true false)

/-- FNMADD.D: `-(a*b) - c` (R308). -/
def execFnmaddD (rm : BitVec 3) (s : State) : Host.Outcome State Fault Refusal :=
  withMode rm s fun m => s.ternaryD 0x88#8 (some m) (fmaF double m true true)

/-- FSGNJ.D (R309). -/
def execFsgnjD (s : State) : Host.Outcome State Fault Refusal :=
  .next (s.answerFloat (sgnj s.a s.b) 0#5)

/-- FSGNJN.D (R310). -/
def execFsgnjnD (s : State) : Host.Outcome State Fault Refusal :=
  .next (s.answerFloat (sgnjn s.a s.b) 0#5)

/-- FSGNJX.D (R311). -/
def execFsgnjxD (s : State) : Host.Outcome State Fault Refusal :=
  .next (s.answerFloat (sgnjx s.a s.b) 0#5)

/-- FMIN.D (R312). -/
def execFminD (s : State) : Host.Outcome State Fault Refusal :=
  .next (s.binaryD 0x8C#8 none (minmaxF double false))

/-- FMAX.D (R313). -/
def execFmaxD (s : State) : Host.Outcome State Fault Refusal :=
  .next (s.binaryD 0x8D#8 none (minmaxF double true))

/-- FEQ.D (R314). -/
def execFeqD (s : State) : Host.Outcome State Fault Refusal :=
  .next (s.answerFloat (boolWord (cmpF double .eq s.a s.b)) 0#5)

/-- FLT.D (R315). -/
def execFltD (s : State) : Host.Outcome State Fault Refusal :=
  .next (s.answerFloat (boolWord (cmpF double .lt s.a s.b)) 0#5)

/-- FLE.D (R316). -/
def execFleD (s : State) : Host.Outcome State Fault Refusal :=
  .next (s.answerFloat (boolWord (cmpF double .le s.a s.b)) 0#5)

/-- FCLASS.D (R317). -/
def execFclassD (s : State) : Host.Outcome State Fault Refusal :=
  .next (s.answerFloat ((classF double s.a).setWidth 64) 0#5)

/-- FCVT.W.D: to signed 32-bit (R318). -/
def execFcvtWD (rm : BitVec 3) (s : State) : Host.Outcome State Fault Refusal :=
  withMode rm s fun m => s.toIntD (fun n => sext64 (BitVec.ofInt 32 n)) (cvtToInt double m 32 true s.a)

/-- FCVT.WU.D: to unsigned 32-bit (R319). -/
def execFcvtWuD (rm : BitVec 3) (s : State) : Host.Outcome State Fault Refusal :=
  withMode rm s fun m =>
    s.toIntD (fun n => extendWu s.params.wuExtend (BitVec.ofInt 32 n)) (cvtToInt double m 32 false s.a)

/-- FCVT.L.D: to signed 64-bit (R320). -/
def execFcvtLD (rm : BitVec 3) (s : State) : Host.Outcome State Fault Refusal :=
  withMode rm s fun m => s.toIntD (fun n => BitVec.ofInt 64 n) (cvtToInt double m 64 true s.a)

/-- FCVT.LU.D: to unsigned 64-bit (R321). -/
def execFcvtLuD (rm : BitVec 3) (s : State) : Host.Outcome State Fault Refusal :=
  withMode rm s fun m => s.toIntD (fun n => BitVec.ofInt 64 n) (cvtToInt double m 64 false s.a)

/-- FCVT.D.W: from signed 32-bit (R322). -/
def execFcvtDW (rm : BitVec 3) (s : State) : Host.Outcome State Fault Refusal :=
  withMode rm s fun m => s.fromIntD m (low32 s.a).toInt

/-- FCVT.D.WU: from unsigned 32-bit (R323). -/
def execFcvtDWu (rm : BitVec 3) (s : State) : Host.Outcome State Fault Refusal :=
  withMode rm s fun m => s.fromIntD m ((low32 s.a).toNat : Int)

/-- FCVT.D.L: from signed 64-bit (R324). -/
def execFcvtDL (rm : BitVec 3) (s : State) : Host.Outcome State Fault Refusal :=
  withMode rm s fun m => s.fromIntD m s.a.toInt

/-- FCVT.D.LU: from unsigned 64-bit (R325). -/
def execFcvtDLu (rm : BitVec 3) (s : State) : Host.Outcome State Fault Refusal :=
  withMode rm s fun m => s.fromIntD m (s.a.toNat : Int)

/-- FMV.X.D: the pattern as it is (R326). -/
def execFmvXD (s : State) : Host.Outcome State Fault Refusal :=
  .next (s.answerFloat s.a 0#5)

/-- FMV.D.X: the pattern as it is (R327). -/
def execFmvDX (s : State) : Host.Outcome State Fault Refusal :=
  .next (s.answerFloat s.a 0#5)

end Sys2Proof.Machine
end

