-- ==== Sys2Proof/Machine/Codec.lean ====
section
/-! DEFINITION. Codec: the Hamming SEC-DED code over 32 data bits (`48_ecc_codec.md` R400 to R405) and the adaptive policy's
update of an ECC register (`49_ecc_adaptive.md` R430 to R435). The register's layout is `10_state.md` R45. -/

namespace Sys2Proof.Machine

/-- The XOR of `f` over the positions in a list. -/
def xorOver (positions : List Nat) (f : Nat → Bool) : Bool := positions.foldr (fun i acc => f i ^^ acc) false

/-- `parity(x)`: the XOR of all bits of `x`. -/
def parity {w : Nat} (x : BitVec w) : Bool := xorOver (List.range w) (fun i => x.getLsbD i)

/-- The data bits parity bit `p_k` covers (R400): the positions `i` with bit `k - 1` of `i + 1` set. -/
def covered (k : Nat) : List Nat := (List.range 32).filter (fun i => (i + 1).testBit (k - 1))

/-- `p_k` of a data word (R400). -/
def hammingBit (k : Nat) (d : BitVec 32) : Bool := xorOver (covered k) (fun i => d.getLsbD i)

/-- `ham6(d)`: `p_6 ... p_1` (R400). -/
def ham6 (d : BitVec 32) : BitVec 6 :=
  BitVec.ofBool (hammingBit 6 d) ++ BitVec.ofBool (hammingBit 5 d) ++ BitVec.ofBool (hammingBit 4 d) ++
    BitVec.ofBool (hammingBit 3 d) ++ BitVec.ofBool (hammingBit 2 d) ++ BitVec.ofBool (hammingBit 1 d)

/-- `pov(d)`, the overall parity bit (R401). -/
def overallParity (d : BitVec 32) : Bool := parity d ^^ parity (ham6 d)

/-- The 39 bits `pov(d) ++ ham6(d) ++ d` (R402). -/
def codeword (d : BitVec 32) : BitVec 39 := BitVec.ofBool (overallParity d) ++ ham6 d ++ d

/-- `encode(d)` (R402): metadata 0. -/
def eccEncode (d : BitVec 32) : Word := (codeword d).setWidth 64

/-- `data = reg[31:0]` (R45). -/
def eccData (r : Word) : BitVec 32 := r.extractLsb' 0 32
/-- The received Hamming bits `reg[37:32]` (R45). -/
def eccHam (r : Word) : BitVec 6 := r.extractLsb' 32 6
/-- The received overall parity bit `reg[38]` (R45). -/
def eccPov (r : Word) : Bool := r.getLsbD 38
/-- Data and code together, `reg[38:0]` (R430). -/
def eccLow (r : Word) : BitVec 39 := r.extractLsb' 0 39
/-- The metadata `reg[63:39]` (R405). -/
def eccMeta (r : Word) : BitVec 25 := r.extractLsb' 39 25
/-- `mode = reg[41:40]` (R45, R46). -/
def eccMode (r : Word) : BitVec 2 := r.extractLsb' 40 2
/-- `history = reg[43:42]` (R45). -/
def eccHistory (r : Word) : BitVec 2 := r.extractLsb' 42 2
/-- `frequency = reg[53:44]` (R45). -/
def eccFrequency (r : Word) : BitVec 10 := r.extractLsb' 44 10
/-- `sensitivity = reg[59:54]` (R45). -/
def eccSensitivity (r : Word) : BitVec 6 := r.extractLsb' 54 6

/-- The syndrome (R403). -/
def syndrome (r : Word) : BitVec 6 := ham6 (eccData r) ^^^ eccHam r

/-- The overall-parity check over the received bits (R404). -/
def parityMatch (r : Word) : Bool := (parity (eccData r) ^^ parity (eccHam r)) == eccPov r

/-- The result of a recomputing decode (R405): a fresh code for `d` under the input's metadata, or under metadata 0 where
DECODE_META is ZERO. -/
def recoded (rule : MetaRule) (r : Word) (d : BitVec 32) : Word :=
  match rule with
  | .keep => eccMeta r ++ codeword d
  | .zero => eccEncode d

/-- The data a mismatching decode settles on (R405): data bit `syn - 1` flipped for a syndrome 1 to 32; no data bit for
syndrome 0 or 33 to 63. -/
def correctedData (r : Word) : BitVec 32 :=
  let syn := (syndrome r).toNat
  if 1 ≤ syn ∧ syn ≤ 32 then eccData r ^^^ BitVec.twoPow 32 (syn - 1) else eccData r

/-- `decode(r)`, the decision table (R405): with matching overall parity the register is returned as it is (no error, or a
double error); otherwise a fresh code for the corrected data. -/
def eccDecode (rule : MetaRule) (r : Word) : Word :=
  if parityMatch r then r else recoded rule r (correctedData r)

/-- The protection modes SEC and SECDED (R46). -/
def modeSec : BitVec 2 := 1#2
def modeSecded : BitVec 2 := 2#2

/-- Step (a) of `adapt` (R431): the access counter, saturating at 1023. -/
def adaptFrequency (r : Word) : BitVec 10 := BitVec.ofNat 10 (min ((eccFrequency r).toNat + 1) 1023)

/-- Did step (b) run a decode that changed the data (R432)? -/
def adaptCorrected (rule : MetaRule) (r : Word) : Bool :=
  eccMode r != 0#2 && eccData (eccDecode rule r) != eccData r

/-- Step (b) of `adapt` (R432): the error counter, saturating at 3. -/
def adaptHistory (rule : MetaRule) (r : Word) : BitVec 2 :=
  if adaptCorrected rule r then BitVec.ofNat 2 (min ((eccHistory r).toNat + 1) 3) else eccHistory r

/-- Data and code after step (b) (R432, R434): decoded unless the mode is NONE. -/
def adaptLow (rule : MetaRule) (r : Word) : BitVec 39 :=
  if eccMode r = 0#2 then eccLow r else eccLow (eccDecode rule r)

/-- Step (c) of `adapt` (R433), from the updated counters. -/
def adaptMode (rule : MetaRule) (r : Word) : BitVec 2 :=
  if 700 < (adaptFrequency r).toNat ∨ 4 ≤ (eccSensitivity r).toNat ∨ 1 ≤ (adaptHistory rule r).toNat then modeSecded
  else modeSec

/-- Step (d) of `adapt` (R434, R435): the register repacked, reserved bits 0. -/
def eccAdapt (rule : MetaRule) (r : Word) : Word :=
  0#4 ++ eccSensitivity r ++ adaptFrequency r ++ adaptHistory rule r ++ adaptMode rule r ++ 0#1 ++ adaptLow rule r

end Sys2Proof.Machine
end

