-- ==== Sys2Proof/Machine/FaultEcc.lean ====
section
/-! DEFINITION. FaultEcc: the meanings of FAULT_INJECT (`42_alu_fault_ecc.md` R180, R181), ECC_CHECK (R182), ECC_ENCODE
(`48_ecc_codec.md` R407) and ECC_ADAPT (`49_ecc_adaptive.md` R430). They ignore `b`, `c` and `rm`. -/

namespace Sys2Proof.Machine

/-- The value a FAULT_INJECT outcome makes of `a` (R180). -/
def faultValue (d : FaultDraw) (a : Word) : Word :=
  match d with
  | .noFlip => a
  | .flip k => a ^^^ BitVec.twoPow 64 k.val

/-- The flag of a FAULT_INJECT outcome (R180). -/
def faultFlip (d : FaultDraw) : Bool :=
  match d with
  | .noFlip => false
  | .flip _ => true

/-- FAULT_INJECT (R180): the outcome is a free value of P_FLIP and the generator's state, which then advances once
(R181). -/
def execFaultInject (s : State) : Host.Outcome State Fault Refusal :=
  let outcome := Config.rngDraw Config.pFlip s.rng
  .next (s.answerInt (faultValue outcome s.a) (faultFlip outcome)).advanceRng

/-- ECC_CHECK (R182): the decoded register, and whether its data field changed. -/
def execEccCheck (s : State) : Host.Outcome State Fault Refusal :=
  .next (s.answerInt (eccDecode s.params.decodeMeta s.a) (eccData (eccDecode s.params.decodeMeta s.a) != eccData s.a))

/-- ECC_ENCODE (R407). -/
def execEccEncode (s : State) : Host.Outcome State Fault Refusal := .next (s.answerInt (eccEncode (low32 s.a)) false)

/-- ECC_ADAPT (R430). -/
def execEccAdapt (s : State) : Host.Outcome State Fault Refusal :=
  .next (s.answerInt (eccAdapt s.params.decodeMeta s.a) false)

end Sys2Proof.Machine
end

