-- ==== Sys2Proof/Machine/Integer.lean ====
section
/-! DEFINITION. Integer: the meanings of the 64-bit integer selectors (`40_integer_scalar.md` R100 to R119). They ignore `rm`
and `c` (R100) and return `fflags = 0`. -/

namespace Sys2Proof.Machine

/-- The exact integer `z` wrapped to 64 bits, with the signed overflow flag (R100, R101). -/
def State.answerWrapped (s : State) (z : Int) : State := s.answerInt (BitVec.ofInt 64 z) (signedOverflow 64 z)

/-- The high 64 bits of an exact 128-bit product (R105 to R107); no overflow. -/
def State.answerHigh (s : State) (z : Int) : State := s.answerInt (BitVec.ofInt 64 (z / 2 ^ 64)) false

/-- ADD (R102). -/
def execAdd (s : State) : Host.Outcome State Fault Refusal := .next (s.answerWrapped (s.a.toInt + s.b.toInt))

/-- SUB (R103). -/
def execSub (s : State) : Host.Outcome State Fault Refusal := .next (s.answerWrapped (s.a.toInt - s.b.toInt))

/-- MUL (R104). -/
def execMul (s : State) : Host.Outcome State Fault Refusal := .next (s.answerWrapped (s.a.toInt * s.b.toInt))

/-- MULH (R105). -/
def execMulh (s : State) : Host.Outcome State Fault Refusal := .next (s.answerHigh (s.a.toInt * s.b.toInt))

/-- MULHSU: `a` signed, `b` unsigned (R106). -/
def execMulhsu (s : State) : Host.Outcome State Fault Refusal := .next (s.answerHigh (s.a.toInt * (s.b.toNat : Int)))

/-- MULHU (R107). -/
def execMulhu (s : State) : Host.Outcome State Fault Refusal :=
  .next (s.answerHigh ((s.a.toNat : Int) * (s.b.toNat : Int)))

/-- DIV (R108): zero by zero, the largest value with `ovf` for the smallest by -1, else truncated. -/
def execDiv (s : State) : Host.Outcome State Fault Refusal :=
  if s.b = 0#64 then .next (s.answerInt 0#64 false)
  else if s.a.toInt = -(2 : Int) ^ 63 ∧ s.b.toInt = -1 then .next (s.answerInt 0x7FFFFFFFFFFFFFFF#64 true)
  else .next (s.answerInt (BitVec.ofInt 64 (s.a.toInt.tdiv s.b.toInt)) false)

/-- DIVU (R109). -/
def execDivu (s : State) : Host.Outcome State Fault Refusal :=
  if s.b = 0#64 then .next (s.answerInt 0#64 false)
  else .next (s.answerInt (BitVec.ofNat 64 (s.a.toNat / s.b.toNat)) false)

/-- REM (R110). -/
def execRem (s : State) : Host.Outcome State Fault Refusal :=
  if s.b = 0#64 then .next (s.answerInt 0#64 false)
  else if s.a.toInt = -(2 : Int) ^ 63 ∧ s.b.toInt = -1 then .next (s.answerInt 0#64 false)
  else .next (s.answerInt (BitVec.ofInt 64 (s.a.toInt - s.a.toInt.tdiv s.b.toInt * s.b.toInt)) false)

/-- REMU (R111). -/
def execRemu (s : State) : Host.Outcome State Fault Refusal :=
  if s.b = 0#64 then .next (s.answerInt 0#64 false)
  else .next (s.answerInt (BitVec.ofNat 64 (s.a.toNat % s.b.toNat)) false)

/-- AND (R112). -/
def execAnd (s : State) : Host.Outcome State Fault Refusal := .next (s.answerInt (s.a &&& s.b) false)

/-- OR (R113). -/
def execOr (s : State) : Host.Outcome State Fault Refusal := .next (s.answerInt (s.a ||| s.b) false)

/-- XOR (R114). -/
def execXor (s : State) : Host.Outcome State Fault Refusal := .next (s.answerInt (s.a ^^^ s.b) false)

/-- SLL (R115). -/
def execSll (s : State) : Host.Outcome State Fault Refusal :=
  .next (s.answerInt (BitVec.ofNat 64 (s.a.toNat * 2 ^ shamt64 s.b)) false)

/-- SRL (R116). -/
def execSrl (s : State) : Host.Outcome State Fault Refusal :=
  .next (s.answerInt (BitVec.ofNat 64 (s.a.toNat / 2 ^ shamt64 s.b)) false)

/-- SRA (R117): the floor of the signed value over a power of two. -/
def execSra (s : State) : Host.Outcome State Fault Refusal :=
  .next (s.answerInt (BitVec.ofInt 64 (s.a.toInt / 2 ^ shamt64 s.b)) false)

/-- SLT (R118). -/
def execSlt (s : State) : Host.Outcome State Fault Refusal :=
  .next (s.answerInt (boolWord (decide (s.a.toInt < s.b.toInt))) false)

/-- SLTU (R119). -/
def execSltu (s : State) : Host.Outcome State Fault Refusal :=
  .next (s.answerInt (boolWord (decide (s.a.toNat < s.b.toNat))) false)

end Sys2Proof.Machine
end

