-- ==== Sys2Proof/Machine/IntegerW.lean ====
section
/-! DEFINITION. IntegerW: the meanings of the 32-bit W selectors (`40_integer_scalar.md` R120 to R130). They read `a[31:0]` and
`b[31:0]`, ignore `rm` and `c`, and sign-extend their 32-bit result, the unsigned ones too (R120). -/

namespace Sys2Proof.Machine

/-- The low word of `a` (R120). -/
def State.aw (s : State) : BitVec 32 := low32 s.a
/-- The low word of `b` (R120). -/
def State.bw (s : State) : BitVec 32 := low32 s.b

/-- A 32-bit result, sign-extended (R120). -/
def State.answerW (s : State) (r : BitVec 32) (ovf : Bool) : State := s.answerInt (sext64 r) ovf

/-- The exact integer `z` wrapped to 32 bits, with the signed overflow flag (R101, R120). -/
def State.answerWrappedW (s : State) (z : Int) : State := s.answerW (BitVec.ofInt 32 z) (signedOverflow 32 z)

/-- ADDW (R121). -/
def execAddw (s : State) : Host.Outcome State Fault Refusal := .next (s.answerWrappedW (s.aw.toInt + s.bw.toInt))

/-- SUBW (R122). -/
def execSubw (s : State) : Host.Outcome State Fault Refusal := .next (s.answerWrappedW (s.aw.toInt - s.bw.toInt))

/-- MULW (R123). -/
def execMulw (s : State) : Host.Outcome State Fault Refusal := .next (s.answerWrappedW (s.aw.toInt * s.bw.toInt))

/-- DIVW (R124). -/
def execDivw (s : State) : Host.Outcome State Fault Refusal :=
  if s.bw = 0#32 then .next (s.answerW 0#32 false)
  else if s.aw.toInt = -(2 : Int) ^ 31 ∧ s.bw.toInt = -1 then .next (s.answerW 0x7FFFFFFF#32 true)
  else .next (s.answerW (BitVec.ofInt 32 (s.aw.toInt.tdiv s.bw.toInt)) false)

/-- DIVUW (R125). -/
def execDivuw (s : State) : Host.Outcome State Fault Refusal :=
  if s.bw = 0#32 then .next (s.answerW 0#32 false)
  else .next (s.answerW (BitVec.ofNat 32 (s.aw.toNat / s.bw.toNat)) false)

/-- REMW (R126). -/
def execRemw (s : State) : Host.Outcome State Fault Refusal :=
  if s.bw = 0#32 ∨ (s.aw.toInt = -(2 : Int) ^ 31 ∧ s.bw.toInt = -1) then .next (s.answerW 0#32 false)
  else .next (s.answerW (BitVec.ofInt 32 (s.aw.toInt - s.aw.toInt.tdiv s.bw.toInt * s.bw.toInt)) false)

/-- REMUW (R127). -/
def execRemuw (s : State) : Host.Outcome State Fault Refusal :=
  if s.bw = 0#32 then .next (s.answerW 0#32 false)
  else .next (s.answerW (BitVec.ofNat 32 (s.aw.toNat % s.bw.toNat)) false)

/-- SLLW (R128). -/
def execSllw (s : State) : Host.Outcome State Fault Refusal :=
  .next (s.answerW (BitVec.ofNat 32 (s.aw.toNat * 2 ^ shamt32 s.b)) false)

/-- SRLW (R129). -/
def execSrlw (s : State) : Host.Outcome State Fault Refusal :=
  .next (s.answerW (BitVec.ofNat 32 (s.aw.toNat / 2 ^ shamt32 s.b)) false)

/-- SRAW (R130). -/
def execSraw (s : State) : Host.Outcome State Fault Refusal :=
  .next (s.answerW (BitVec.ofInt 32 (s.aw.toInt / 2 ^ shamt32 s.b)) false)

end Sys2Proof.Machine
end

