-- ==== Sys2Proof/Machine/PackedF32.lean ====
section
/-! DEFINITION. PackedF32: the meanings of the packed float32 selectors (`47_packed_f32.md` R380 to R387): two float32 lanes,
infinite lane results clamped with OF. -/

namespace Sys2Proof.Machine

/-- The infinity clamp of a lane result (R381): the largest finite magnitude, with OF. -/
def clampInf (r : FpResult 32) : FpResult 32 :=
  if (datum single r.value).isInf then { value := withSign r.value.msb 0x7F7FFFFF#32, flags := r.flags ||| flagOF }
  else r

/-- One lane of the lane procedure (R380); `mode` is what the selector's NaN draws may depend on. -/
def pf32Lane (s : State) (selector : BitVec 8) (mode : Option RoundMode)
    (f : BitVec 32 → BitVec 32 → BitVec 32 → FpResult 32) (i : Nat) : FpResult 32 :=
  let x := lane32 s.a i
  let y := lane32 s.b i
  clampInf (f (drawS s selector mode i x y 0#32) x y)

/-- The lane procedure (R380): two lanes, their flags ORed. -/
def State.answerPf32 (s : State) (selector : BitVec 8) (mode : Option RoundMode)
    (f : BitVec 32 → BitVec 32 → BitVec 32 → FpResult 32) : State :=
  let r0 := pf32Lane s selector mode f 0
  let r1 := pf32Lane s selector mode f 1
  (s.answerFloat (pack32 r0.value r1.value) (r0.flags ||| r1.flags)).advanceDraws

/-- The finite remainder of R386: `|x| - trunc(|x| / |y|) * |y|` with the sign of `x`, for finite `x` and finite non-zero
`y`. It is exact, so the rounding that writes it as a pattern changes nothing (assumption log 15). -/
def remFinite (neg : Bool) (sig : Nat) (exp : Int) (sig' : Nat) (exp' : Int) : BitVec 32 :=
  let e := min exp exp'
  let r := (sig * 2 ^ (exp - e).toNat) % (sig' * 2 ^ (exp' - e).toNat)
  (roundFinite single .rne neg r e : FpResult 32).value

/-- `fmod_S(x, y)` (R386): a zero divisor first, then NaNs, an infinite dividend, an infinite divisor, a zero dividend. -/
def fmodS (pick x y : BitVec 32) : FpResult 32 :=
  match datum single x, datum single y with
  | .nan q, .nan q' => nanResult single pick (!q || !q')
  | .nan q, .inf _ => nanResult single pick (!q)
  | .nan q, .fin _ n' _ =>
    if n' = 0 then { value := canonicalNaN single, flags := flagNV } else nanResult single pick (!q)
  | .inf _, .nan q => nanResult single pick (!q)
  | .inf _, .inf _ => nanResult single pick true
  | .inf _, .fin _ n' _ =>
    if n' = 0 then { value := canonicalNaN single, flags := flagNV } else nanResult single pick true
  | .fin _ _ _, .nan q => nanResult single pick (!q)
  | .fin _ _ _, .inf _ => exactResult x
  | .fin neg n e, .fin _ n' e' =>
    if n' = 0 then { value := canonicalNaN single, flags := flagNV }
    else if n = 0 then exactResult x
    else exactResult (remFinite neg n e n' e')

/-- PF32.ADD (R382). -/
def execPf32Add (rm : BitVec 3) (s : State) : Host.Outcome State Fault Refusal :=
  withMode rm s fun m => s.answerPf32 0xD0#8 (some m) (addF single m)

/-- PF32.SUB (R383). -/
def execPf32Sub (rm : BitVec 3) (s : State) : Host.Outcome State Fault Refusal :=
  withMode rm s fun m => s.answerPf32 0xD1#8 (some m) (subF single m)

/-- PF32.MUL (R384). -/
def execPf32Mul (rm : BitVec 3) (s : State) : Host.Outcome State Fault Refusal :=
  withMode rm s fun m => s.answerPf32 0xD2#8 (some m) (mulF single m)

/-- PF32.DIV (R385): a zero divisor lane first, then the quotient, as in `div_S`. -/
def execPf32Div (rm : BitVec 3) (s : State) : Host.Outcome State Fault Refusal :=
  withMode rm s fun m => s.answerPf32 0xD3#8 (some m) (divF single m)

/-- PF32.REM (R386): `rm` is not read. -/
def execPf32Rem (s : State) : Host.Outcome State Fault Refusal := .next (s.answerPf32 0xD4#8 none fmodS)

/-- PF32.PACK: `b[31:0] ++ a[31:0]` (R387). -/
def execPf32Pack (s : State) : Host.Outcome State Fault Refusal :=
  .next (s.answerFloat (pack32 (low32 s.a) (low32 s.b)) 0#5)

end Sys2Proof.Machine
end

