-- ==== Sys2Proof/Machine/Simd.lean ====
section
/-! DEFINITION. Simd: the meanings of the packed-integer selectors (`41_integer_simd.md` R150 to R162). Each lane of the
result is a function of the same lane of the operands (R150); `ovf` and `fflags` are 0. -/

namespace Sys2Proof.Machine

/-- The lane procedure for two 32-bit lanes (R150). -/
def lanes32 (f : BitVec 32 → BitVec 32 → BitVec 32) (a b : Word) : Word :=
  pack32 (f (lane32 a 0) (lane32 b 0)) (f (lane32 a 1) (lane32 b 1))

/-- The lane procedure for four 16-bit lanes (R150). -/
def lanes16 (f : BitVec 16 → BitVec 16 → BitVec 16) (a b : Word) : Word :=
  pack16 (f (lane16 a 0) (lane16 b 0)) (f (lane16 a 1) (lane16 b 1)) (f (lane16 a 2) (lane16 b 2))
    (f (lane16 a 3) (lane16 b 3))

/-- A lane sum, wrapped (R151, R156). -/
def laneAdd {w : Nat} (x y : BitVec w) : BitVec w := BitVec.ofInt w ((x.toNat : Int) + (y.toNat : Int))
/-- A lane difference, wrapped (R152, R157). -/
def laneSub {w : Nat} (x y : BitVec w) : BitVec w := BitVec.ofInt w ((x.toNat : Int) - (y.toNat : Int))
/-- A lane product, wrapped (R153, R158). -/
def laneMul {w : Nat} (x y : BitVec w) : BitVec w := BitVec.ofInt w (x.toInt * y.toInt)
/-- A signed lane quotient, truncated; 0 for a zero divisor; the smallest value by -1 wraps (R154, R159). -/
def laneDiv {w : Nat} (x y : BitVec w) : BitVec w :=
  if y.toInt = 0 then 0#w else BitVec.ofInt w (x.toInt.tdiv y.toInt)
/-- A signed lane remainder with the dividend's sign; 0 for a zero divisor (R155, R160). -/
def laneRem {w : Nat} (x y : BitVec w) : BitVec w :=
  if y.toInt = 0 then 0#w else BitVec.ofInt w (x.toInt - x.toInt.tdiv y.toInt * y.toInt)

/-- VADD32 (R151). -/
def execVadd32 (s : State) : Host.Outcome State Fault Refusal := .next (s.answerInt (lanes32 laneAdd s.a s.b) false)
/-- VSUB32 (R152). -/
def execVsub32 (s : State) : Host.Outcome State Fault Refusal := .next (s.answerInt (lanes32 laneSub s.a s.b) false)
/-- VMUL32 (R153). -/
def execVmul32 (s : State) : Host.Outcome State Fault Refusal := .next (s.answerInt (lanes32 laneMul s.a s.b) false)
/-- VDIV32 (R154). -/
def execVdiv32 (s : State) : Host.Outcome State Fault Refusal := .next (s.answerInt (lanes32 laneDiv s.a s.b) false)
/-- VREM32 (R155). -/
def execVrem32 (s : State) : Host.Outcome State Fault Refusal := .next (s.answerInt (lanes32 laneRem s.a s.b) false)
/-- VADD16 (R156). -/
def execVadd16 (s : State) : Host.Outcome State Fault Refusal := .next (s.answerInt (lanes16 laneAdd s.a s.b) false)
/-- VSUB16 (R157). -/
def execVsub16 (s : State) : Host.Outcome State Fault Refusal := .next (s.answerInt (lanes16 laneSub s.a s.b) false)
/-- VMUL16 (R158). -/
def execVmul16 (s : State) : Host.Outcome State Fault Refusal := .next (s.answerInt (lanes16 laneMul s.a s.b) false)
/-- VDIV16 (R159). -/
def execVdiv16 (s : State) : Host.Outcome State Fault Refusal := .next (s.answerInt (lanes16 laneDiv s.a s.b) false)
/-- VREM16 (R160). -/
def execVrem16 (s : State) : Host.Outcome State Fault Refusal := .next (s.answerInt (lanes16 laneRem s.a s.b) false)

/-- VMVLO: `a[63:32] ++ b[31:0]` (R161). -/
def execVmvlo (s : State) : Host.Outcome State Fault Refusal := .next (s.answerInt (high32 s.a ++ low32 s.b) false)
/-- VMVHI: `b[63:32] ++ a[31:0]` (R162). -/
def execVmvhi (s : State) : Host.Outcome State Fault Refusal := .next (s.answerInt (high32 s.b ++ low32 s.a) false)

end Sys2Proof.Machine
end

