-- ==== Sys2Proof/Machine/Single.lean ====
section
/-! DEFINITION. Single: the meanings of the single-precision selectors (`44_fp_single.md` R250 to R277). A float operand is
the low 32 bits (R203), a single result is zero-extended (R213); `ovf` is 0. -/

namespace Sys2Proof.Machine

/-- `A = a[31:0]`. -/
def State.fa (s : State) : BitVec 32 := low32 s.a
/-- `B = b[31:0]`. -/
def State.fb (s : State) : BitVec 32 := low32 s.b
/-- `C = c[31:0]`. -/
def State.fc (s : State) : BitVec 32 := low32 s.c

/-- The answer of an operation of one float operand; `mode` is what its NaN draw may depend on (R211). -/
def State.unaryS (s : State) (selector : BitVec 8) (mode : Option RoundMode)
    (f : BitVec 32 → BitVec 32 → FpResult 32) : State :=
  s.answerS (f (drawS s selector mode 0 s.fa 0#32 0#32) s.fa)

/-- The answer of an operation of two float operands. -/
def State.binaryS (s : State) (selector : BitVec 8) (mode : Option RoundMode)
    (f : BitVec 32 → BitVec 32 → BitVec 32 → FpResult 32) : State :=
  s.answerS (f (drawS s selector mode 0 s.fa s.fb 0#32) s.fa s.fb)

/-- The answer of an operation of three float operands. -/
def State.ternaryS (s : State) (selector : BitVec 8) (mode : Option RoundMode)
    (f : BitVec 32 → BitVec 32 → BitVec 32 → BitVec 32 → FpResult 32) : State :=
  s.answerS (f (drawS s selector mode 0 s.fa s.fb s.fc) s.fa s.fb s.fc)

/-- The answer of a conversion to an integer, `place` putting the integer in the result (R213). -/
def State.toIntS (s : State) (place : Int → Word) (r : IntResult) : State := s.answerFloat (place r.value) r.flags

/-- The answer of a conversion from an integer (R213, R219): no NaN arises. -/
def State.fromIntS (s : State) (m : RoundMode) (n : Int) : State :=
  let r : FpResult 32 := cvtFromInt single m n
  s.answerFloat (zext64 r.value) r.flags

/-- FADD.S (R250). -/
def execFaddS (rm : BitVec 3) (s : State) : Host.Outcome State Fault Refusal :=
  withMode rm s fun m => s.binaryS 0x40#8 (some m) (addF single m)

/-- FSUB.S (R251). -/
def execFsubS (rm : BitVec 3) (s : State) : Host.Outcome State Fault Refusal :=
  withMode rm s fun m => s.binaryS 0x41#8 (some m) (subF single m)

/-- FMUL.S (R252). -/
def execFmulS (rm : BitVec 3) (s : State) : Host.Outcome State Fault Refusal :=
  withMode rm s fun m => s.binaryS 0x42#8 (some m) (mulF single m)

/-- FDIV.S (R253). -/
def execFdivS (rm : BitVec 3) (s : State) : Host.Outcome State Fault Refusal :=
  withMode rm s fun m => s.binaryS 0x43#8 (some m) (divF single m)

/-- FSQRT.S (R254). -/
def execFsqrtS (rm : BitVec 3) (s : State) : Host.Outcome State Fault Refusal :=
  withMode rm s fun m => s.unaryS 0x44#8 (some m) (sqrtF single m)

/-- FMADD.S: `a*b + c` (R255). -/
def execFmaddS (rm : BitVec 3) (s : State) : Host.Outcome State Fault Refusal :=
  withMode rm s fun m => s.ternaryS 0x45#8 (some m) (fmaF single m false false)

/-- FMSUB.S: `a*b - c` (R256). -/
def execFmsubS (rm : BitVec 3) (s : State) : Host.Outcome State Fault Refusal :=
  withMode rm s fun m => s.ternaryS 0x46#8 (some m) (fmaF single m false true)

/-- FNMSUB.S: `-(a*b) + c` (R257). -/
def execFnmsubS (rm : BitVec 3) (s : State) : Host.Outcome State Fault Refusal :=
  withMode rm s fun m => s.ternaryS 0x47#8 (some m) (fmaF single m true false)

/-- FNMADD.S: `-(a*b) - c` (R258). -/
def execFnmaddS (rm : BitVec 3) (s : State) : Host.Outcome State Fault Refusal :=
  withMode rm s fun m => s.ternaryS 0x48#8 (some m) (fmaF single m true true)

/-- FSGNJ.S (R259). -/
def execFsgnjS (s : State) : Host.Outcome State Fault Refusal :=
  .next (s.answerFloat (zext64 (sgnj s.fa s.fb)) 0#5)

/-- FSGNJN.S (R260). -/
def execFsgnjnS (s : State) : Host.Outcome State Fault Refusal :=
  .next (s.answerFloat (zext64 (sgnjn s.fa s.fb)) 0#5)

/-- FSGNJX.S (R261). -/
def execFsgnjxS (s : State) : Host.Outcome State Fault Refusal :=
  .next (s.answerFloat (zext64 (sgnjx s.fa s.fb)) 0#5)

/-- FMIN.S (R262). -/
def execFminS (s : State) : Host.Outcome State Fault Refusal :=
  .next (s.binaryS 0x4C#8 none (minmaxF single false))

/-- FMAX.S (R263). -/
def execFmaxS (s : State) : Host.Outcome State Fault Refusal :=
  .next (s.binaryS 0x4D#8 none (minmaxF single true))

/-- FEQ.S (R264). -/
def execFeqS (s : State) : Host.Outcome State Fault Refusal :=
  .next (s.answerFloat (boolWord (cmpF single .eq s.fa s.fb)) 0#5)

/-- FLT.S (R265). -/
def execFltS (s : State) : Host.Outcome State Fault Refusal :=
  .next (s.answerFloat (boolWord (cmpF single .lt s.fa s.fb)) 0#5)

/-- FLE.S (R266). -/
def execFleS (s : State) : Host.Outcome State Fault Refusal :=
  .next (s.answerFloat (boolWord (cmpF single .le s.fa s.fb)) 0#5)

/-- FCLASS.S (R267). -/
def execFclassS (s : State) : Host.Outcome State Fault Refusal :=
  .next (s.answerFloat ((classF single s.fa).setWidth 64) 0#5)

/-- FCVT.W.S: to signed 32-bit (R268). -/
def execFcvtWS (rm : BitVec 3) (s : State) : Host.Outcome State Fault Refusal :=
  withMode rm s fun m => s.toIntS (fun n => sext64 (BitVec.ofInt 32 n)) (cvtToInt single m 32 true s.fa)

/-- FCVT.WU.S: to unsigned 32-bit (R269). -/
def execFcvtWuS (rm : BitVec 3) (s : State) : Host.Outcome State Fault Refusal :=
  withMode rm s fun m =>
    s.toIntS (fun n => extendWu s.params.wuExtend (BitVec.ofInt 32 n)) (cvtToInt single m 32 false s.fa)

/-- FCVT.L.S: to signed 64-bit (R270). -/
def execFcvtLS (rm : BitVec 3) (s : State) : Host.Outcome State Fault Refusal :=
  withMode rm s fun m => s.toIntS (fun n => BitVec.ofInt 64 n) (cvtToInt single m 64 true s.fa)

/-- FCVT.LU.S: to unsigned 64-bit (R271). -/
def execFcvtLuS (rm : BitVec 3) (s : State) : Host.Outcome State Fault Refusal :=
  withMode rm s fun m => s.toIntS (fun n => BitVec.ofInt 64 n) (cvtToInt single m 64 false s.fa)

/-- FCVT.S.W: from signed 32-bit (R272). -/
def execFcvtSW (rm : BitVec 3) (s : State) : Host.Outcome State Fault Refusal :=
  withMode rm s fun m => s.fromIntS m s.fa.toInt

/-- FCVT.S.WU: from unsigned 32-bit (R273). -/
def execFcvtSWu (rm : BitVec 3) (s : State) : Host.Outcome State Fault Refusal :=
  withMode rm s fun m => s.fromIntS m (s.fa.toNat : Int)

/-- FCVT.S.L: from signed 64-bit (R274). -/
def execFcvtSL (rm : BitVec 3) (s : State) : Host.Outcome State Fault Refusal :=
  withMode rm s fun m => s.fromIntS m s.a.toInt

/-- FCVT.S.LU: from unsigned 64-bit (R275). -/
def execFcvtSLu (rm : BitVec 3) (s : State) : Host.Outcome State Fault Refusal :=
  withMode rm s fun m => s.fromIntS m (s.a.toNat : Int)

/-- FMV.X.W: the low word's pattern, sign-extended (R276). -/
def execFmvXW (s : State) : Host.Outcome State Fault Refusal :=
  .next (s.answerFloat (sext64 s.fa) 0#5)

/-- FMV.W.X: the low word's pattern, zero-extended (R277). -/
def execFmvWX (s : State) : Host.Outcome State Fault Refusal :=
  .next (s.answerFloat (zext64 s.fa) 0#5)

end Sys2Proof.Machine
end

