-- ==== Sys2Proof/Machine/Dispatch.lean ====
section
/-! DEFINITION. Dispatch: the meaning of every operation of the table (`30_encoding.md` R83, R88), one arm each. A rounding
selector's meaning reads `rm`; every other one ignores it (`10_state.md` R42). -/

namespace Sys2Proof.Machine

def exec (i : Instr) (s : State) : Host.Outcome State Fault Refusal :=
  match i with
  -- 64-bit integer (0x01 to 0x12)
  | .add _ => Sys2Proof.Machine.execAdd s
  | .sub _ => Sys2Proof.Machine.execSub s
  | .mul _ => Sys2Proof.Machine.execMul s
  | .mulh _ => Sys2Proof.Machine.execMulh s
  | .mulhsu _ => Sys2Proof.Machine.execMulhsu s
  | .mulhu _ => Sys2Proof.Machine.execMulhu s
  | .div _ => Sys2Proof.Machine.execDiv s
  | .divu _ => Sys2Proof.Machine.execDivu s
  | .rem _ => Sys2Proof.Machine.execRem s
  | .remu _ => Sys2Proof.Machine.execRemu s
  | .and _ => Sys2Proof.Machine.execAnd s
  | .or _ => Sys2Proof.Machine.execOr s
  | .xor _ => Sys2Proof.Machine.execXor s
  | .sll _ => Sys2Proof.Machine.execSll s
  | .srl _ => Sys2Proof.Machine.execSrl s
  | .sra _ => Sys2Proof.Machine.execSra s
  | .slt _ => Sys2Proof.Machine.execSlt s
  | .sltu _ => Sys2Proof.Machine.execSltu s
  -- 32-bit W forms (0x18 to 0x21)
  | .addw _ => Sys2Proof.Machine.execAddw s
  | .subw _ => Sys2Proof.Machine.execSubw s
  | .mulw _ => Sys2Proof.Machine.execMulw s
  | .divw _ => Sys2Proof.Machine.execDivw s
  | .divuw _ => Sys2Proof.Machine.execDivuw s
  | .remw _ => Sys2Proof.Machine.execRemw s
  | .remuw _ => Sys2Proof.Machine.execRemuw s
  | .sllw _ => Sys2Proof.Machine.execSllw s
  | .srlw _ => Sys2Proof.Machine.execSrlw s
  | .sraw _ => Sys2Proof.Machine.execSraw s
  -- packed integer (0x28 to 0x39)
  | .vadd32 _ => Sys2Proof.Machine.execVadd32 s
  | .vsub32 _ => Sys2Proof.Machine.execVsub32 s
  | .vmul32 _ => Sys2Proof.Machine.execVmul32 s
  | .vdiv32 _ => Sys2Proof.Machine.execVdiv32 s
  | .vrem32 _ => Sys2Proof.Machine.execVrem32 s
  | .vadd16 _ => Sys2Proof.Machine.execVadd16 s
  | .vsub16 _ => Sys2Proof.Machine.execVsub16 s
  | .vmul16 _ => Sys2Proof.Machine.execVmul16 s
  | .vdiv16 _ => Sys2Proof.Machine.execVdiv16 s
  | .vrem16 _ => Sys2Proof.Machine.execVrem16 s
  | .vmvlo _ => Sys2Proof.Machine.execVmvlo s
  | .vmvhi _ => Sys2Proof.Machine.execVmvhi s
  -- fault injection and ECC (0x3C to 0x3F)
  | .faultInject _ => Sys2Proof.Machine.execFaultInject s
  | .eccCheck _ => Sys2Proof.Machine.execEccCheck s
  | .eccEncode _ => Sys2Proof.Machine.execEccEncode s
  | .eccAdapt _ => Sys2Proof.Machine.execEccAdapt s
  -- single-precision scalar (0x40 to 0x5B)
  | .faddS rm => Sys2Proof.Machine.execFaddS rm s
  | .fsubS rm => Sys2Proof.Machine.execFsubS rm s
  | .fmulS rm => Sys2Proof.Machine.execFmulS rm s
  | .fdivS rm => Sys2Proof.Machine.execFdivS rm s
  | .fsqrtS rm => Sys2Proof.Machine.execFsqrtS rm s
  | .fmaddS rm => Sys2Proof.Machine.execFmaddS rm s
  | .fmsubS rm => Sys2Proof.Machine.execFmsubS rm s
  | .fnmsubS rm => Sys2Proof.Machine.execFnmsubS rm s
  | .fnmaddS rm => Sys2Proof.Machine.execFnmaddS rm s
  | .fsgnjS _ => Sys2Proof.Machine.execFsgnjS s
  | .fsgnjnS _ => Sys2Proof.Machine.execFsgnjnS s
  | .fsgnjxS _ => Sys2Proof.Machine.execFsgnjxS s
  | .fminS _ => Sys2Proof.Machine.execFminS s
  | .fmaxS _ => Sys2Proof.Machine.execFmaxS s
  | .feqS _ => Sys2Proof.Machine.execFeqS s
  | .fltS _ => Sys2Proof.Machine.execFltS s
  | .fleS _ => Sys2Proof.Machine.execFleS s
  | .fclassS _ => Sys2Proof.Machine.execFclassS s
  | .fcvtWS rm => Sys2Proof.Machine.execFcvtWS rm s
  | .fcvtWuS rm => Sys2Proof.Machine.execFcvtWuS rm s
  | .fcvtLS rm => Sys2Proof.Machine.execFcvtLS rm s
  | .fcvtLuS rm => Sys2Proof.Machine.execFcvtLuS rm s
  | .fcvtSW rm => Sys2Proof.Machine.execFcvtSW rm s
  | .fcvtSWu rm => Sys2Proof.Machine.execFcvtSWu rm s
  | .fcvtSL rm => Sys2Proof.Machine.execFcvtSL rm s
  | .fcvtSLu rm => Sys2Proof.Machine.execFcvtSLu rm s
  | .fmvXW _ => Sys2Proof.Machine.execFmvXW s
  | .fmvWX _ => Sys2Proof.Machine.execFmvWX s
  -- double-precision scalar (0x80 to 0x9B)
  | .faddD rm => Sys2Proof.Machine.execFaddD rm s
  | .fsubD rm => Sys2Proof.Machine.execFsubD rm s
  | .fmulD rm => Sys2Proof.Machine.execFmulD rm s
  | .fdivD rm => Sys2Proof.Machine.execFdivD rm s
  | .fsqrtD rm => Sys2Proof.Machine.execFsqrtD rm s
  | .fmaddD rm => Sys2Proof.Machine.execFmaddD rm s
  | .fmsubD rm => Sys2Proof.Machine.execFmsubD rm s
  | .fnmsubD rm => Sys2Proof.Machine.execFnmsubD rm s
  | .fnmaddD rm => Sys2Proof.Machine.execFnmaddD rm s
  | .fsgnjD _ => Sys2Proof.Machine.execFsgnjD s
  | .fsgnjnD _ => Sys2Proof.Machine.execFsgnjnD s
  | .fsgnjxD _ => Sys2Proof.Machine.execFsgnjxD s
  | .fminD _ => Sys2Proof.Machine.execFminD s
  | .fmaxD _ => Sys2Proof.Machine.execFmaxD s
  | .feqD _ => Sys2Proof.Machine.execFeqD s
  | .fltD _ => Sys2Proof.Machine.execFltD s
  | .fleD _ => Sys2Proof.Machine.execFleD s
  | .fclassD _ => Sys2Proof.Machine.execFclassD s
  | .fcvtWD rm => Sys2Proof.Machine.execFcvtWD rm s
  | .fcvtWuD rm => Sys2Proof.Machine.execFcvtWuD rm s
  | .fcvtLD rm => Sys2Proof.Machine.execFcvtLD rm s
  | .fcvtLuD rm => Sys2Proof.Machine.execFcvtLuD rm s
  | .fcvtDW rm => Sys2Proof.Machine.execFcvtDW rm s
  | .fcvtDWu rm => Sys2Proof.Machine.execFcvtDWu rm s
  | .fcvtDL rm => Sys2Proof.Machine.execFcvtDL rm s
  | .fcvtDLu rm => Sys2Proof.Machine.execFcvtDLu rm s
  | .fmvXD _ => Sys2Proof.Machine.execFmvXD s
  | .fmvDX _ => Sys2Proof.Machine.execFmvDX s
  -- bfloat16 x4 (0xC0 to 0xC4)
  | .bf16Add rm => Sys2Proof.Machine.execBf16Add rm s
  | .bf16Sub rm => Sys2Proof.Machine.execBf16Sub rm s
  | .bf16Mul rm => Sys2Proof.Machine.execBf16Mul rm s
  | .bf16Div rm => Sys2Proof.Machine.execBf16Div rm s
  | .bf16Dot rm => Sys2Proof.Machine.execBf16Dot rm s
  -- float32 x2 (0xD0 to 0xD5)
  | .pf32Add rm => Sys2Proof.Machine.execPf32Add rm s
  | .pf32Sub rm => Sys2Proof.Machine.execPf32Sub rm s
  | .pf32Mul rm => Sys2Proof.Machine.execPf32Mul rm s
  | .pf32Div rm => Sys2Proof.Machine.execPf32Div rm s
  | .pf32Rem _ => Sys2Proof.Machine.execPf32Rem s
  | .pf32Pack _ => Sys2Proof.Machine.execPf32Pack s

end Sys2Proof.Machine
end

