-- ==== Sys2Proof/Machine/Step.lean ====
section
/-! DEFINITION. Step: one step of the machine is one request, taken and answered whole (`20_memory.md` R63, R66;
`70_reset_and_hazards.md` R500). -/

namespace Sys2Proof.Machine

/-- What a taken request's control word makes of the state that holds it on the port: its operation's meaning, or the zeros
of an unassigned selector (`30_encoding.md` R84, R86). -/
def State.perform (s : State) (ctrl : BitVec 11) : Host.Outcome State Fault Refusal :=
  match decode ctrl with
  | .instr i => exec i s
  | .unassigned _ => .next s.answerUnassigned

/-- One step: with no request issued nothing changes (assumption log 3); a request presented while another is in progress is
refused (R464, R500); otherwise the oldest request is taken and answered. -/
def step (s : State) : Host.Outcome State Fault Refusal :=
  match s.take with
  | .idle => .next s
  | .overlapping => .refused .requestInProgress
  | .taken ctrl s' => s'.perform ctrl

/-- The state with the control word `w` issued as the oldest request, its operands zero, and no other request in progress:
the next step takes exactly it (assumption log 16). A control word has 11 bits (R80). -/
def State.withFetchWord (s : State) (nbits w : Nat) : State :=
  { s with
    requests := { ctrl := BitVec.ofNat 11 (w % 2 ^ nbits), a := 0, b := 0, c := 0 } :: s.requests
    inProgress := false }

end Sys2Proof.Machine
end

