-- ==== Sys2Proof/Safety.lean ====
section
/-! DEFINITION. Safety: the terms the statements use. First what a request and a state must satisfy for the block to answer
(`60_exceptions.md` R460, R464) and the shape of an answer; then what the floating-point rules say over the real numbers
(`43_fp_numerics.md` R205 to R208), written without the model's own rounding. -/

namespace Sys2Proof.Machine

/-! ### Requests and answers -/

/-- A request the block has an outcome for: every unassigned selector (R84) and every well-formed instruction (R41, R85). -/
def Request.admissible (q : Request) : Bool :=
  match decode q.ctrl with
  | .instr i => i.wellFormed
  | .unassigned _ => true

/-- The caller's obligations of R464 and R500: no request overlaps another, and every request issued is admissible. -/
def State.admissible (s : State) : Bool := !s.inProgress && s.requests.all Request.admissible

/-- What no step changes: the ambient mode (R44), the parameters (R9) and the caller's serialisation (R500). -/
def State.sameEnvironment (s t : State) : Prop :=
  t.ambientRm = s.ambientRm ∧ t.params = s.params ∧ t.inProgress = s.inProgress

/-- The state that differs from `s` only in its response: how a request that uses no free value completes (R30, R34). That
the answered request stays on the port is the model's choice (assumption log 4). -/
def State.answeredWith (s : State) (result : Word) (ovf : Bool) (fflags : BitVec 5) : State :=
  { s with response := some { result := result, ovf := ovf, fflags := fflags } }

/-- The state that differs from `s` only in its response and in the model's NaN-draw counter: how a floating request that may
draw a NaN completes (R34, R211, assumption log 7); the port as in `answeredWith` (assumption log 4). -/
def State.answeredDrawing (s : State) (result : Word) (fflags : BitVec 5) : State :=
  { s with response := some { result := result, ovf := false, fflags := fflags }, nanDraws := s.nanDraws + 1 }

/-- The selector of R88 that names an operation: every control word with it in bits 7:0 decodes to the operation, whatever its
rounding field, and is what the operation encodes to. -/
def Selects (op : BitVec 8) (f : BitVec 3 → Instr) : Prop :=
  ∀ rm : BitVec 3, decode (rm ++ op) = .instr (f rm) ∧ encode (f rm) = rm ++ op

/-- The selectors R82 leaves unassigned. -/
abbrev UnassignedSelector (op : Nat) : Prop :=
  op = 0x00 ∨ (0x13 ≤ op ∧ op ≤ 0x17) ∨ (0x22 ≤ op ∧ op ≤ 0x27) ∨ (0x2D ≤ op ∧ op ≤ 0x2F) ∨ (0x35 ≤ op ∧ op ≤ 0x37) ∨
    (0x3A ≤ op ∧ op ≤ 0x3B) ∨ (0x5C ≤ op ∧ op ≤ 0x7F) ∨ (0x9C ≤ op ∧ op ≤ 0xBF) ∨ (0xC5 ≤ op ∧ op ≤ 0xCF) ∨
    (0xD6 ≤ op ∧ op ≤ 0xFF)

/-! ### Values and rounding over the real numbers -/

/-- The value of a finite datum (R201); 0 for the others. -/
def Datum.value : Datum → ℚ
  | .nan _ => 0
  | .inf _ => 0
  | .fin neg sig exp => (if neg then -1 else 1) * (sig : ℚ) * (2 : ℚ) ^ exp

/-- Is the datum finite? -/
def Datum.isFinite : Datum → Bool
  | .nan _ => false
  | .inf _ => false
  | .fin _ _ _ => true

/-- Where a datum that is not a NaN stands on the extended line (R221): `-inf` below every finite value, `+inf` above. -/
def Datum.extended : Datum → WithBot (WithTop ℚ)
  | .nan _ => ⊥
  | .inf true => ⊥
  | .inf false => ((⊤ : WithTop ℚ) : WithBot (WithTop ℚ))
  | .fin neg sig exp => (((Datum.fin neg sig exp).value : WithTop ℚ) : WithBot (WithTop ℚ))

/-- `n` is the rounding of the real `y` to an integer under mode `m`: R206's `rnd_m`, with the sign in `y`. -/
def RoundsTo (m : RoundMode) (y : ℝ) (n : ℤ) : Prop :=
  match m with
  | .rne => |y - n| < 1 / 2 ∨ (|y - n| = 1 / 2 ∧ Even n)
  | .rtz => |(n : ℝ)| ≤ |y| ∧ |y| < |(n : ℝ)| + 1 ∧ 0 ≤ (n : ℝ) * y
  | .rdn => (n : ℝ) ≤ y ∧ y < n + 1
  | .rup => (n : ℝ) - 1 < y ∧ y ≤ n

/-- R207's table: an overflow gives an infinity under this mode and sign. -/
def OverflowsToInf (m : RoundMode) (neg : Bool) : Prop :=
  m = .rne ∨ (m = .rdn ∧ neg = true) ∨ (m = .rup ∧ neg = false)

/-- The pattern `v` of format F and the flags `fl` are `round_F(z, m)` of the non-zero real `z` (R206, R207, R208): with `e` the
binade of `|z|` and `q` the spacing there, `n` is `z / q` rounded to an integer. If `n * q` is past the largest binade the
result is R207's, with OF and NX. Otherwise `v` is the finite pattern of value `n * q` with the sign of `z`, NX says that it
is not `z`, and UF that it also is tiny: `z` rounded to the format's precision alone is below the least normal value. -/
def RoundedResult (F : Format) {w : Nat} (m : RoundMode) (z : ℝ) (v : BitVec w) (fl : BitVec 5) : Prop :=
  ∃ (e n : ℤ), (2 : ℝ) ^ e ≤ |z| ∧ |z| < (2 : ℝ) ^ (e + 1) ∧
    RoundsTo m (z / (2 : ℝ) ^ (max e (emin F) - fractionBits F)) n ∧
    (((2 : ℝ) ^ ((F.emax : ℤ) + 1) ≤ |n * (2 : ℝ) ^ (max e (emin F) - fractionBits F)| ∧
        fl = flagOF ||| flagNX ∧ v.msb = decide (z < 0) ∧
        (OverflowsToInf m (decide (z < 0)) → v = infPattern F (decide (z < 0))) ∧
        (¬ OverflowsToInf m (decide (z < 0)) → v = maxPattern F (decide (z < 0)))) ∨
      (|n * (2 : ℝ) ^ (max e (emin F) - fractionBits F)| < (2 : ℝ) ^ ((F.emax : ℤ) + 1) ∧
        (datum F v).isFinite = true ∧ v.msb = decide (z < 0) ∧
        ((datum F v).value : ℝ) = n * (2 : ℝ) ^ (max e (emin F) - fractionBits F) ∧
        ∃ nx uf : Bool, fl = flagIf nx flagNX ||| flagIf uf flagUF ∧
          (nx = true ↔ ((datum F v).value : ℝ) ≠ z) ∧
          (uf = true ↔ nx = true ∧ ∃ k : ℤ, RoundsTo m (z / (2 : ℝ) ^ (e - fractionBits F)) k ∧
            |k * (2 : ℝ) ^ (e - fractionBits F)| < (2 : ℝ) ^ emin F)))

/-! ### The results the floating-point rules give -/

/-- The sign bit of a datum that is not a NaN. -/
def Datum.sign : Datum → Bool
  | .nan _ => false
  | .inf neg => neg
  | .fin neg _ _ => neg

/-- The sum of two data (R211, R212, R216, R217, R227): `v` and `fl` are its result and flags under mode `m`. -/
def SumResult (F : Format) {w : Nat} (m : RoundMode) (x y : Datum) (v : BitVec w) (fl : BitVec 5) : Prop :=
  ((x.isNaN = true ∨ y.isNaN = true) → datum F v = .nan true ∧ fl = flagIf (x.isSignaling || y.isSignaling) flagNV) ∧
    (∀ p q, x = .inf p → y = .inf q → p ≠ q → datum F v = .nan true ∧ fl = flagNV) ∧
    (∀ p, x = .inf p → (y = .inf p ∨ y.isFinite = true) → v = infPattern F p ∧ fl = 0#5) ∧
    (∀ p, x.isFinite = true → y = .inf p → v = infPattern F p ∧ fl = 0#5) ∧
    (x.isFinite = true → y.isFinite = true →
      (x.value + y.value ≠ 0 → RoundedResult F m ((x.value + y.value : ℚ) : ℝ) v fl) ∧
      (x.value + y.value = 0 →
        v = zeroPattern (if x.sign = y.sign then x.sign else decide (m = .rdn)) ∧ fl = 0#5))

/-- The product of two data (R211, R212, R216, R217, R227). -/
def ProductResult (F : Format) {w : Nat} (m : RoundMode) (x y : Datum) (v : BitVec w) (fl : BitVec 5) : Prop :=
  ((x.isNaN = true ∨ y.isNaN = true) → datum F v = .nan true ∧ fl = flagIf (x.isSignaling || y.isSignaling) flagNV) ∧
    (((x.isInf = true ∧ y.isZero = true) ∨ (x.isZero = true ∧ y.isInf = true)) →
      datum F v = .nan true ∧ fl = flagNV) ∧
    ((x.isInf = true ∧ y.isNaN = false ∧ y.isZero = false) ∨ (y.isInf = true ∧ x.isNaN = false ∧ x.isZero = false) →
      v = infPattern F (x.sign ^^ y.sign) ∧ fl = 0#5) ∧
    (x.isFinite = true → y.isFinite = true →
      (x.value * y.value ≠ 0 → RoundedResult F m ((x.value * y.value : ℚ) : ℝ) v fl) ∧
      (x.value * y.value = 0 → v = zeroPattern (x.sign ^^ y.sign) ∧ fl = 0#5))

/-- The IEEE quotient of two data (R211, R212, R216, R217, R353); an infinity over a zero is an infinity without a flag
(DEDUCED, assumption log 14). -/
def QuotientResult (F : Format) {w : Nat} (m : RoundMode) (x y : Datum) (v : BitVec w) (fl : BitVec 5) : Prop :=
  ((x.isNaN = true ∨ y.isNaN = true) → datum F v = .nan true ∧ fl = flagIf (x.isSignaling || y.isSignaling) flagNV) ∧
    (((x.isInf = true ∧ y.isInf = true) ∨ (x.isZero = true ∧ y.isZero = true)) → datum F v = .nan true ∧ fl = flagNV) ∧
    (x.isInf = true → y.isFinite = true → v = infPattern F (x.sign ^^ y.sign) ∧ fl = 0#5) ∧
    (x.isFinite = true → y.isInf = true → v = zeroPattern (x.sign ^^ y.sign) ∧ fl = 0#5) ∧
    (x.isFinite = true → x.isZero = false → y.isZero = true → v = infPattern F (x.sign ^^ y.sign) ∧ fl = flagDZ) ∧
    (x.isZero = true → y.isFinite = true → y.isZero = false → v = zeroPattern (x.sign ^^ y.sign) ∧ fl = 0#5) ∧
    (x.isFinite = true → y.isFinite = true → x.isZero = false → y.isZero = false →
      RoundedResult F m ((x.value / y.value : ℚ) : ℝ) v fl)

/-- Scalar division (R225): a zero divisor first, whatever the dividend; then the IEEE quotient. -/
def DivisionResult (F : Format) {w : Nat} (m : RoundMode) (x y : Datum) (v : BitVec w) (fl : BitVec 5) : Prop :=
  (y.isZero = true → v = canonicalNaN F ∧ fl = flagDZ) ∧ (y.isZero = false → QuotientResult F m x y v fl)

/-- Scalar square root (R226); `x` is the operand's own pattern. -/
def RootResult (F : Format) {w : Nat} (m : RoundMode) (x v : BitVec w) (fl : BitVec 5) : Prop :=
  ((datum F x = .inf true ∨ ((datum F x).isFinite = true ∧ (datum F x).value < 0)) → v = canonicalNaN F ∧ fl = flagNV) ∧
    ((datum F x).isNaN = true → datum F v = .nan true ∧ fl = flagIf (datum F x).isSignaling flagNV) ∧
    ((datum F x = .inf false ∨ (datum F x).isZero = true) → v = x ∧ fl = 0#5) ∧
    ((datum F x).isFinite = true → 0 < (datum F x).value →
      RoundedResult F m (Real.sqrt ((datum F x).value : ℚ)) v fl)

/-- The fused multiply-add (R224): zero times infinity is invalid whatever the addend; then a NaN operand; otherwise the sum
of the exact signed product `p` and the signed addend, rounded once. -/
def FusedResult (F : Format) {w : Nat} (m : RoundMode) (np nc : Bool) (x y z : Datum) (v : BitVec w) (fl : BitVec 5) : Prop :=
  (((x.isInf = true ∧ y.isZero = true) ∨ (x.isZero = true ∧ y.isInf = true)) → datum F v = .nan true ∧ fl = flagNV) ∧
    (¬ ((x.isInf = true ∧ y.isZero = true) ∨ (x.isZero = true ∧ y.isInf = true)) →
      ((x.isNaN = true ∨ y.isNaN = true ∨ z.isNaN = true) →
        datum F v = .nan true ∧ fl = flagIf (x.isSignaling || y.isSignaling || z.isSignaling) flagNV) ∧
      (x.isNaN = false → y.isNaN = false → z.isNaN = false →
        ∃ p : Datum, p.isNaN = false ∧ p.isFinite = (x.isFinite && y.isFinite) ∧ p.sign = (x.sign ^^ y.sign ^^ np) ∧
          p.value = (if np then -1 else 1) * (x.value * y.value) ∧ SumResult F m p (z.negateIf nc) v fl))

/-- Float to integer (R218): `n` and `fl` are the conversion of `x` into the range `lo` to `hi` under mode `m`. -/
def ToIntResult (m : RoundMode) (lo hi : ℤ) (x : Datum) (n : ℤ) (fl : BitVec 5) : Prop :=
  (x.isNaN = true → n = hi ∧ fl = flagNV) ∧
    (x = .inf false → n = hi ∧ fl = flagNV) ∧
    (x = .inf true → n = lo ∧ fl = flagNV) ∧
    (x.isFinite = true → ∃ k : ℤ, RoundsTo m ((x.value : ℚ) : ℝ) k ∧
      (k < lo → n = lo ∧ fl = flagNV) ∧ (hi < k → n = hi ∧ fl = flagNV) ∧
      (lo ≤ k → k ≤ hi → n = k ∧ fl = flagIf (!decide ((k : ℚ) = x.value)) flagNX))

/-- Integer to float (R219). -/
def FromIntResult (F : Format) {w : Nat} (m : RoundMode) (n : ℤ) (v : BitVec w) (fl : BitVec 5) : Prop :=
  (n = 0 → v = zeroPattern false ∧ fl = 0#5) ∧ (n ≠ 0 → RoundedResult F m (n : ℝ) v fl)

/-- Minimum and maximum (R220): `x` and `y` are the operands' own patterns. -/
def MinMaxResult (F : Format) {w : Nat} (ismax : Bool) (x y v : BitVec w) (fl : BitVec 5) : Prop :=
  fl = flagIf ((datum F x).isSignaling || (datum F y).isSignaling) flagNV ∧
    ((datum F x).isNaN = true → (datum F y).isNaN = true → datum F v = .nan true) ∧
    ((datum F x).isNaN = true → (datum F y).isNaN = false → v = y) ∧
    ((datum F x).isNaN = false → (datum F y).isNaN = true → v = x) ∧
    ((datum F x).isNaN = false → (datum F y).isNaN = false →
      ((datum F x).isZero = true → (datum F y).isZero = true → (datum F x).sign ≠ (datum F y).sign →
        v = zeroPattern (!ismax)) ∧
      ((datum F x).extended < (datum F y).extended → v = if ismax then y else x) ∧
      ((datum F y).extended < (datum F x).extended → v = if ismax then x else y) ∧
      (x = y → v = x))

/-- The remainder of R386: `x` and `y` are the operands' own patterns. The quotient is truncated toward zero and the result
has the dividend's sign; nothing is rounded. -/
def RemainderResult (x y v : BitVec 32) (fl : BitVec 5) : Prop :=
  ((datum single y).isZero = true → v = canonicalNaN single ∧ fl = flagNV) ∧
    ((datum single y).isZero = false →
      (((datum single x).isNaN = true ∨ (datum single y).isNaN = true) → datum single v = .nan true ∧
        fl = flagIf ((datum single x).isSignaling || (datum single y).isSignaling) flagNV) ∧
      ((datum single x).isInf = true → (datum single y).isNaN = false → datum single v = .nan true ∧ fl = flagNV) ∧
      ((datum single x).isFinite = true → (datum single y).isInf = true → v = x ∧ fl = 0#5) ∧
      ((datum single x).isFinite = true → (datum single y).isFinite = true →
        fl = 0#5 ∧ (datum single v).isFinite = true ∧ v.msb = x.msb ∧
          |(datum single v).value| < |(datum single y).value| ∧
          ∃ n : ℕ, |(datum single x).value| = n * |(datum single y).value| + |(datum single v).value|))

/-- PF32's clamp of a lane (R380, R381): an infinite `y` becomes the largest finite magnitude of its sign and OF is added. -/
def ClampsTo (y : BitVec 32) (g : BitVec 5) (v : BitVec 32) (fl : BitVec 5) : Prop :=
  ((datum single y).isInf = true → v = maxPattern single y.msb ∧ fl = g ||| flagOF) ∧
    ((datum single y).isInf = false → v = y ∧ fl = g)

/-- BF16's clamp and narrowing of a float32 lane result (R351, R352), by the parameter BF16_NARROW. -/
def NarrowsTo (rule : NarrowRule) (y : BitVec 32) (h : BitVec 16) : Prop :=
  ((datum single y).isNaN = true → h = y.extractLsb' 16 16 ||| 0x0040#16) ∧
    ((datum single y).isNaN = false →
      let x := if 0x7F7F0000 < y.toNat % 2 ^ 31 then (if y.msb then 0xFF7F0000#32 else 0x7F7F0000#32) else y
      match rule with
      | .rne => h = BitVec.ofNat 16 ((x.toNat + 0x7FFF + x.toNat / 2 ^ 16 % 2) / 2 ^ 16)
      | .trunc => h = BitVec.ofNat 16 (x.toNat / 2 ^ 16))

end Sys2Proof.Machine
end

