-- ==== Sys2Proof/Certificates/Slice0/Obligations.lean ====
section
/-! DEFINITION. Obligations: the statements for the provers, family by family. `s` is any state, `rm` any rounding field; the
operands are `s.port.a`, `s.port.b`, `s.port.c`. A result is stated as the whole next state: `answeredWith` says that nothing but
the response changes, `answeredDrawing` that nothing but the response and the model's NaN-draw counter does (that counter's
advance is the model's own, assumption log 7). That either leaves the answered request on the port, where R52 gives no value
between requests, is the model's choice (assumption log 4). -/

section
open Sys2Proof Sys2Proof.Machine

/-! ### Reset, decoding, stepping -/

/-- R490: reset seeds the generator, and no step reseeds it: a step keeps it or advances it once. -/
def Obligations.ResetSeedsGenerator : Prop :=
  State.reset.rng = Config.rngInit Config.seed ∧
    ∀ s t, step s = .next t → t.rng = s.rng ∨ t.rng = Config.rngNext s.rng

/-- The state after reset meets the invariant of `StepKeepsInvariant`, and its first step changes nothing (model's choice,
assumption log 1 to 5: nothing is issued at reset). -/
def Obligations.ResetMeetsInvariant : Prop :=
  State.reset.admissible = true ∧ step State.reset = .next State.reset

/-- A few control words written out from R80 and R88 decode to the operations they stand for. -/
def Obligations.WordsDecode : Prop :=
  decode 0x001#11 = .instr (.add 0) ∧ decode 0x142#11 = .instr (.fmulS 1) ∧ decode 0x73C#11 = .instr (.faultInject 7) ∧
    decode 0x01B#11 = .instr (.divw 0) ∧ decode 0x033#11 = .instr (.vdiv16 0) ∧ decode 0x394#11 = .instr (.fcvtLD 3) ∧
    decode 0x4C4#11 = .instr (.bf16Dot 4) ∧ decode 0x5D4#11 = .instr (.pf32Rem 5) ∧ decode 0x013#11 = .unassigned 0x13#8

/-- R88: the whole selector map. Each selector with each rounding field is the control word of the operation R88's table gives
it. -/
def Obligations.SelectorMap : Prop :=
  ∀ row ∈ (
    [(0x01#8, Instr.add), (0x02#8, Instr.sub), (0x03#8, Instr.mul), (0x04#8, Instr.mulh), (0x05#8, Instr.mulhsu),
      (0x06#8, Instr.mulhu), (0x07#8, Instr.div), (0x08#8, Instr.divu), (0x09#8, Instr.rem), (0x0A#8, Instr.remu),
      (0x0B#8, Instr.and), (0x0C#8, Instr.or), (0x0D#8, Instr.xor), (0x0E#8, Instr.sll), (0x0F#8, Instr.srl),
      (0x10#8, Instr.sra), (0x11#8, Instr.slt), (0x12#8, Instr.sltu), (0x18#8, Instr.addw), (0x19#8, Instr.subw)] ++
    [(0x1A#8, Instr.mulw), (0x1B#8, Instr.divw), (0x1C#8, Instr.divuw), (0x1D#8, Instr.remw), (0x1E#8, Instr.remuw),
      (0x1F#8, Instr.sllw), (0x20#8, Instr.srlw), (0x21#8, Instr.sraw), (0x28#8, Instr.vadd32), (0x29#8, Instr.vsub32),
      (0x2A#8, Instr.vmul32), (0x2B#8, Instr.vdiv32), (0x2C#8, Instr.vrem32), (0x30#8, Instr.vadd16),
      (0x31#8, Instr.vsub16), (0x32#8, Instr.vmul16), (0x33#8, Instr.vdiv16), (0x34#8, Instr.vrem16),
      (0x38#8, Instr.vmvlo), (0x39#8, Instr.vmvhi)] ++
    [(0x3C#8, Instr.faultInject), (0x3D#8, Instr.eccCheck), (0x3E#8, Instr.eccEncode), (0x3F#8, Instr.eccAdapt),
      (0x40#8, Instr.faddS), (0x41#8, Instr.fsubS), (0x42#8, Instr.fmulS), (0x43#8, Instr.fdivS), (0x44#8, Instr.fsqrtS),
      (0x45#8, Instr.fmaddS), (0x46#8, Instr.fmsubS), (0x47#8, Instr.fnmsubS), (0x48#8, Instr.fnmaddS),
      (0x49#8, Instr.fsgnjS), (0x4A#8, Instr.fsgnjnS), (0x4B#8, Instr.fsgnjxS), (0x4C#8, Instr.fminS),
      (0x4D#8, Instr.fmaxS), (0x4E#8, Instr.feqS), (0x4F#8, Instr.fltS)] ++
    [(0x50#8, Instr.fleS), (0x51#8, Instr.fclassS), (0x52#8, Instr.fcvtWS), (0x53#8, Instr.fcvtWuS),
      (0x54#8, Instr.fcvtLS), (0x55#8, Instr.fcvtLuS), (0x56#8, Instr.fcvtSW), (0x57#8, Instr.fcvtSWu),
      (0x58#8, Instr.fcvtSL), (0x59#8, Instr.fcvtSLu), (0x5A#8, Instr.fmvXW), (0x5B#8, Instr.fmvWX),
      (0x80#8, Instr.faddD), (0x81#8, Instr.fsubD), (0x82#8, Instr.fmulD), (0x83#8, Instr.fdivD), (0x84#8, Instr.fsqrtD),
      (0x85#8, Instr.fmaddD), (0x86#8, Instr.fmsubD), (0x87#8, Instr.fnmsubD)] ++
    [(0x88#8, Instr.fnmaddD), (0x89#8, Instr.fsgnjD), (0x8A#8, Instr.fsgnjnD), (0x8B#8, Instr.fsgnjxD),
      (0x8C#8, Instr.fminD), (0x8D#8, Instr.fmaxD), (0x8E#8, Instr.feqD), (0x8F#8, Instr.fltD), (0x90#8, Instr.fleD),
      (0x91#8, Instr.fclassD), (0x92#8, Instr.fcvtWD), (0x93#8, Instr.fcvtWuD), (0x94#8, Instr.fcvtLD),
      (0x95#8, Instr.fcvtLuD), (0x96#8, Instr.fcvtDW), (0x97#8, Instr.fcvtDWu), (0x98#8, Instr.fcvtDL),
      (0x99#8, Instr.fcvtDLu), (0x9A#8, Instr.fmvXD), (0x9B#8, Instr.fmvDX)] ++
    [(0xC0#8, Instr.bf16Add), (0xC1#8, Instr.bf16Sub), (0xC2#8, Instr.bf16Mul), (0xC3#8, Instr.bf16Div),
      (0xC4#8, Instr.bf16Dot), (0xD0#8, Instr.pf32Add), (0xD1#8, Instr.pf32Sub), (0xD2#8, Instr.pf32Mul),
      (0xD3#8, Instr.pf32Div), (0xD4#8, Instr.pf32Rem), (0xD5#8, Instr.pf32Pack)] : List (BitVec 8 × (BitVec 3 → Instr))),
    Selects row.1 row.2

/-- R40: the effective rounding mode, the ambient one for `rm = 4`; 5 to 7 have none (R39, R41). -/
def Obligations.EffectiveMode : Prop :=
  ∀ ambient : RoundMode, effMode ambient 0#3 = some .rne ∧ effMode ambient 1#3 = some .rtz ∧ effMode ambient 2#3 = some .rdn ∧
    effMode ambient 3#3 = some .rup ∧ effMode ambient 4#3 = some ambient ∧
    ∀ rm : BitVec 3, 5 ≤ rm.toNat → effMode ambient rm = none

/-- Every instruction is read back from its control word, and every control word that is an instruction is the one that
instruction encodes to (R80, R86, R88). -/
def Obligations.DecodeEncodeAgree : Prop :=
  (∀ i : Instr, decode (encode i) = .instr i) ∧ (∀ w i, decode w = .instr i → encode i = w)

/-- R82: exactly the selectors it lists are unassigned, whatever the rounding field. -/
def Obligations.UnassignedSelectors : Prop :=
  ∀ w : BitVec 11, (∃ op, decode w = .unassigned op) ↔ UnassignedSelector (w.toNat % 256)

/-- R84: a request with an unassigned selector is answered with zeros and changes no state. -/
def Obligations.UnassignedAnswersZero : Prop :=
  ∀ (s : State) (q : Request) (rest : List Request), s.requests = q :: rest → s.inProgress = false →
    UnassignedSelector (q.ctrl.toNat % 256) →
    step s = .next (({ s with requests := rest, port := q } : State).answeredWith 0#64 false 0#5)

/-- A step takes the oldest request to the port and runs the instruction its control word decodes to. -/
def Obligations.StepRunsDecoded : Prop :=
  ∀ (s : State) (q : Request) (rest : List Request) (i : Instr), s.requests = q :: rest → s.inProgress = false →
    decode q.ctrl = .instr i → step s = exec i { s with requests := rest, port := q }

/-- R464, R500: a request presented while another is in progress is refused. -/
def Obligations.OverlapRefused : Prop :=
  ∀ s : State, s.requests ≠ [] → s.inProgress = true → step s = .refused .requestInProgress

/-- R41: a selector that rounds, under a rounding field 5, 6 or 7, is refused. -/
def Obligations.ReservedRoundingRefused : Prop :=
  ∀ (i : Instr) (s : State), i.rounds = true → 5 ≤ i.rm.toNat → exec i s = .refused .reservedRoundingMode

/-- R42: a request whose rule does not round ignores `rm`, whatever its value. -/
def Obligations.RoundingFieldIgnored : Prop :=
  ∀ (s : State) (w w' : BitVec 11), w.toNat % 256 = w'.toNat % 256 → (∀ i, decode w = .instr i → i.rounds = false) →
    s.perform w = s.perform w'

/-! ### Rules of the whole machine -/

/-- R460: every well-formed instruction completes with a response, from every state, and touches neither the queue, the port,
the ambient mode nor the parameters. That the port keeps the answered request is the model's choice (assumption log 4). -/
def Obligations.WellFormedCompletes : Prop :=
  ∀ (i : Instr) (s : State), i.wellFormed = true →
    ∃ t r, exec i s = .next t ∧ t.response = some r ∧ t.requests = s.requests ∧ t.port = s.port ∧ s.sameEnvironment t

/-- R34, R36: integer, packed-integer, fault-injection and ECC selectors return `fflags = 0`, floating selectors `ovf = 0`, and of
the integer selectors only ADD, SUB, MUL, DIV, their W forms, FAULT_INJECT and ECC_CHECK ever set `ovf`. -/
def Obligations.OutputsByFamily : Prop :=
  ∀ (i : Instr) (s t : State) (r : Response), exec i s = .next t → t.response = some r →
    (i.selector.toNat < 0x40 → r.fflags = 0#5) ∧ (0x40 ≤ i.selector.toNat → r.ovf = false) ∧
    (r.ovf = true → i.selector.toNat ∈ [0x01, 0x02, 0x03, 0x07, 0x18, 0x19, 0x1A, 0x1B, 0x3C, 0x3D])

/-- R181: FAULT_INJECT advances the generator exactly once, and no other request, an unassigned selector's included, reads or
writes it: under any other generator state it does the same and leaves that state as it was. -/
def Obligations.GeneratorUse : Prop :=
  (∀ rm s, ∃ t, exec (.faultInject rm) s = .next t ∧ t.rng = Config.rngNext s.rng) ∧
    ∀ (w : BitVec 11) (s t : State) (g : RngState), (∀ rm, decode w ≠ .instr (.faultInject rm)) → s.perform w = .next t →
      t.rng = s.rng ∧ ({ s with rng := g } : State).perform w = .next { t with rng := g }

/-- R66: a response is a function of the request, the ambient mode and the parameters, and for FAULT_INJECT of the generator; the
draw counter stands for the free NaN values (model's choice, assumption log 7). -/
def Obligations.ResponseIsOfTheRequest : Prop :=
  ∀ (i : Instr) (s s' t t' : State), s'.port = s.port → s'.ambientRm = s.ambientRm → s'.params = s.params →
    s'.nanDraws = s.nanDraws → ((∃ rm, i = .faultInject rm) → s'.rng = s.rng) →
    exec i s = .next t → exec i s' = .next t' → t'.response = t.response

/-- A step keeps the caller's obligations of R464 and R500 and leaves the environment alone (R44, R9). -/
def Obligations.StepKeepsInvariant : Prop :=
  ∀ s t : State, s.admissible = true → step s = .next t → t.admissible = true ∧ s.sameEnvironment t

/-- Requests that overlap nothing and round under no reserved mode are answered one at a time in the order issued, as many as
there are, with no stop (R66, R460, R464, R466, R500); the ambient mode is the same after each (R44). Past the last request
issued the run goes on over idle steps and the last response still stands: that is the model's own choice (assumption log 3
and 5), no rule of the spec. -/
def Obligations.RunsNeverStop : Prop :=
  ∀ (k : Nat) (s : State), s.admissible = true →
    ∃ t, Sys2Proof.core.run k s = .next t ∧ t.requests = s.requests.drop k ∧ t.admissible = true ∧ s.sameEnvironment t ∧
      (0 < k → s.requests ≠ [] → t.response ≠ none)

/-! ### 64-bit integer -/

/-- ADD, SUB, MUL (R102, R103, R104): the wrapped result, and `ovf` when the exact one leaves the signed range. -/
def Obligations.AddSubMul : Prop :=
  Selects 0x01#8 .add ∧ Selects 0x02#8 .sub ∧ Selects 0x03#8 .mul ∧ ∀ (rm : BitVec 3) (s : State),
    (∃ o, exec (.add rm) s = .next (s.answeredWith (s.port.a + s.port.b) o 0#5) ∧
      (o = true ↔ ¬ (-2 ^ 63 ≤ s.port.a.toInt + s.port.b.toInt ∧ s.port.a.toInt + s.port.b.toInt < 2 ^ 63))) ∧
    (∃ o, exec (.sub rm) s = .next (s.answeredWith (s.port.a - s.port.b) o 0#5) ∧
      (o = true ↔ ¬ (-2 ^ 63 ≤ s.port.a.toInt - s.port.b.toInt ∧ s.port.a.toInt - s.port.b.toInt < 2 ^ 63))) ∧
    (∃ o, exec (.mul rm) s = .next (s.answeredWith (s.port.a * s.port.b) o 0#5) ∧
      (o = true ↔ ¬ (-2 ^ 63 ≤ s.port.a.toInt * s.port.b.toInt ∧ s.port.a.toInt * s.port.b.toInt < 2 ^ 63)))

/-- MULH, MULHSU, MULHU (R105, R106, R107): the result over the low product is the exact 128-bit product of the operands, each
extended as its reading says. -/
def Obligations.MultiplyHigh : Prop :=
  Selects 0x04#8 .mulh ∧ Selects 0x05#8 .mulhsu ∧ Selects 0x06#8 .mulhu ∧ ∀ (rm : BitVec 3) (s : State),
    (∃ h : Word, exec (.mulh rm) s = .next (s.answeredWith h false 0#5) ∧
      h ++ (s.port.a * s.port.b) = s.port.a.signExtend 128 * s.port.b.signExtend 128) ∧
    (∃ h : Word, exec (.mulhsu rm) s = .next (s.answeredWith h false 0#5) ∧
      h ++ (s.port.a * s.port.b) = s.port.a.signExtend 128 * s.port.b.setWidth 128) ∧
    (∃ h : Word, exec (.mulhu rm) s = .next (s.answeredWith h false 0#5) ∧
      h ++ (s.port.a * s.port.b) = s.port.a.setWidth 128 * s.port.b.setWidth 128)

/-- DIV, REM, DIVW, REMW (R108, R110, R124, R126; summed up in R131): quotient and remainder `q`, `r` with the corners of
R131's table, and off its corners `a = q*b + r` with `|r| < |b|` and `r` zero or of the sign of `a`. -/
def Obligations.SignedDivision : Prop :=
  Selects 0x07#8 .div ∧ Selects 0x09#8 .rem ∧ Selects 0x1B#8 .divw ∧ Selects 0x1D#8 .remw ∧ ∀ (rm : BitVec 3) (s : State),
    (∃ (q r : BitVec 64) (o : Bool), exec (.div rm) s = .next (s.answeredWith q o 0#5) ∧
      exec (.rem rm) s = .next (s.answeredWith r false 0#5) ∧
      (s.port.b = 0#64 → q = 0#64 ∧ o = false ∧ r = 0#64) ∧
      (s.port.a.toInt = -2 ^ 63 → s.port.b.toInt = -1 → q.toInt = 2 ^ 63 - 1 ∧ o = true ∧ r = 0#64) ∧
      (s.port.b ≠ 0#64 → ¬ (s.port.a.toInt = -2 ^ 63 ∧ s.port.b.toInt = -1) → o = false ∧
        s.port.a.toInt = q.toInt * s.port.b.toInt + r.toInt ∧ |r.toInt| < |s.port.b.toInt| ∧
        (r.toInt ≠ 0 → (r.toInt < 0 ↔ s.port.a.toInt < 0)))) ∧
    (∃ (q r : BitVec 32) (o : Bool), exec (.divw rm) s = .next (s.answeredWith (q.signExtend 64) o 0#5) ∧
      exec (.remw rm) s = .next (s.answeredWith (r.signExtend 64) false 0#5) ∧
      (low32 s.port.b = 0#32 → q = 0#32 ∧ o = false ∧ r = 0#32) ∧
      ((low32 s.port.a).toInt = -2 ^ 31 → (low32 s.port.b).toInt = -1 → q.toInt = 2 ^ 31 - 1 ∧ o = true ∧ r = 0#32) ∧
      (low32 s.port.b ≠ 0#32 → ¬ ((low32 s.port.a).toInt = -2 ^ 31 ∧ (low32 s.port.b).toInt = -1) → o = false ∧
        (low32 s.port.a).toInt = q.toInt * (low32 s.port.b).toInt + r.toInt ∧ |r.toInt| < |(low32 s.port.b).toInt| ∧
        (r.toInt ≠ 0 → (r.toInt < 0 ↔ (low32 s.port.a).toInt < 0))))

/-- R109, R111, R125, R127: DIVU and REMU, DIVUW and REMUW give 0 for a zero divisor and otherwise the floor quotient and the
remainder, the 32-bit ones sign-extended. -/
def Obligations.UnsignedDivision : Prop :=
  Selects 0x08#8 .divu ∧ Selects 0x0A#8 .remu ∧ Selects 0x1C#8 .divuw ∧ Selects 0x1E#8 .remuw ∧
  ∀ (rm : BitVec 3) (s : State),
    (∃ q r : BitVec 64, exec (.divu rm) s = .next (s.answeredWith q false 0#5) ∧
      exec (.remu rm) s = .next (s.answeredWith r false 0#5) ∧ (s.port.b = 0#64 → q = 0#64 ∧ r = 0#64) ∧
      (s.port.b ≠ 0#64 → s.port.a.toNat = q.toNat * s.port.b.toNat + r.toNat ∧ r.toNat < s.port.b.toNat)) ∧
    (∃ q r : BitVec 32, exec (.divuw rm) s = .next (s.answeredWith (q.signExtend 64) false 0#5) ∧
      exec (.remuw rm) s = .next (s.answeredWith (r.signExtend 64) false 0#5) ∧
      (low32 s.port.b = 0#32 → q = 0#32 ∧ r = 0#32) ∧
      (low32 s.port.b ≠ 0#32 → (low32 s.port.a).toNat = q.toNat * (low32 s.port.b).toNat + r.toNat ∧
        r.toNat < (low32 s.port.b).toNat))

/-- AND, OR, XOR (R112, R113, R114), bit by bit. -/
def Obligations.BitwiseLogic : Prop :=
  Selects 0x0B#8 .and ∧ Selects 0x0C#8 .or ∧ Selects 0x0D#8 .xor ∧ ∀ (rm : BitVec 3) (s : State),
    (∃ r, exec (.and rm) s = .next (s.answeredWith r false 0#5) ∧
      ∀ k, r.getLsbD k = (s.port.a.getLsbD k && s.port.b.getLsbD k)) ∧
    (∃ r, exec (.or rm) s = .next (s.answeredWith r false 0#5) ∧
      ∀ k, r.getLsbD k = (s.port.a.getLsbD k || s.port.b.getLsbD k)) ∧
    (∃ r, exec (.xor rm) s = .next (s.answeredWith r false 0#5) ∧
      ∀ k, r.getLsbD k = (s.port.a.getLsbD k ^^ s.port.b.getLsbD k))

/-- SLL, SRL, SRA (R115, R116, R117): shifts by `b` modulo 64, the last one with copies of bit 63. -/
def Obligations.Shifts : Prop :=
  Selects 0x0E#8 .sll ∧ Selects 0x0F#8 .srl ∧ Selects 0x10#8 .sra ∧ ∀ (rm : BitVec 3) (s : State),
    exec (.sll rm) s = .next (s.answeredWith (s.port.a <<< (s.port.b.toNat % 64)) false 0#5) ∧
    exec (.srl rm) s = .next (s.answeredWith (s.port.a >>> (s.port.b.toNat % 64)) false 0#5) ∧
    exec (.sra rm) s = .next (s.answeredWith (s.port.a.sshiftRight (s.port.b.toNat % 64)) false 0#5)

/-- SLT, SLTU (R118, R119). -/
def Obligations.Comparisons : Prop :=
  Selects 0x11#8 .slt ∧ Selects 0x12#8 .sltu ∧ ∀ (rm : BitVec 3) (s : State),
    exec (.slt rm) s = .next (s.answeredWith (if s.port.a.toInt < s.port.b.toInt then 1#64 else 0#64) false 0#5) ∧
    exec (.sltu rm) s = .next (s.answeredWith (if s.port.a.toNat < s.port.b.toNat then 1#64 else 0#64) false 0#5)

/-! ### W forms -/

/-- ADDW, SUBW, MULW (R121, R122, R123): the wrapped 32-bit result sign-extended, `ovf` for the 32-bit signed range. -/
def Obligations.AddSubMulW : Prop :=
  Selects 0x18#8 .addw ∧ Selects 0x19#8 .subw ∧ Selects 0x1A#8 .mulw ∧ ∀ (rm : BitVec 3) (s : State),
    let x := low32 s.port.a
    let y := low32 s.port.b
    (∃ o, exec (.addw rm) s = .next (s.answeredWith ((x + y).signExtend 64) o 0#5) ∧
      (o = true ↔ ¬ (-2 ^ 31 ≤ x.toInt + y.toInt ∧ x.toInt + y.toInt < 2 ^ 31))) ∧
    (∃ o, exec (.subw rm) s = .next (s.answeredWith ((x - y).signExtend 64) o 0#5) ∧
      (o = true ↔ ¬ (-2 ^ 31 ≤ x.toInt - y.toInt ∧ x.toInt - y.toInt < 2 ^ 31))) ∧
    (∃ o, exec (.mulw rm) s = .next (s.answeredWith ((x * y).signExtend 64) o 0#5) ∧
      (o = true ↔ ¬ (-2 ^ 31 ≤ x.toInt * y.toInt ∧ x.toInt * y.toInt < 2 ^ 31)))

/-- SLLW, SRLW, SRAW (R128, R129, R130): 32-bit shifts by `b` modulo 32, sign-extended. -/
def Obligations.ShiftsW : Prop :=
  Selects 0x1F#8 .sllw ∧ Selects 0x20#8 .srlw ∧ Selects 0x21#8 .sraw ∧ ∀ (rm : BitVec 3) (s : State),
    exec (.sllw rm) s = .next (s.answeredWith ((low32 s.port.a <<< (s.port.b.toNat % 32)).signExtend 64) false 0#5) ∧
    exec (.srlw rm) s = .next (s.answeredWith ((low32 s.port.a >>> (s.port.b.toNat % 32)).signExtend 64) false 0#5) ∧
    exec (.sraw rm) s =
      .next (s.answeredWith (((low32 s.port.a).sshiftRight (s.port.b.toNat % 32)).signExtend 64) false 0#5)

/-- R120: a W form ignores bits 63:32 of `a` and `b` (and, R100, all of `c`). -/
def Obligations.UpperHalvesIgnoredW : Prop :=
  ∀ (i : Instr) (s s' t t' : State), 0x18 ≤ i.selector.toNat → i.selector.toNat ≤ 0x21 →
    low32 s'.port.a = low32 s.port.a → low32 s'.port.b = low32 s.port.b →
    exec i s = .next t → exec i s' = .next t' → t'.response = t.response

/-! ### Packed integer -/

/-- The five 2 x 32-bit operations (R151 to R155), lane by lane: sum, difference and product wrap, quotient and remainder are
signed and truncated with 0 for a zero divisor. -/
def Obligations.Packed32 : Prop :=
  Selects 0x28#8 .vadd32 ∧ Selects 0x29#8 .vsub32 ∧ Selects 0x2A#8 .vmul32 ∧ Selects 0x2B#8 .vdiv32 ∧
  Selects 0x2C#8 .vrem32 ∧ ∀ (rm : BitVec 3) (s : State),
    let x := lane32 s.port.a
    let y := lane32 s.port.b
    (∃ r, exec (.vadd32 rm) s = .next (s.answeredWith r false 0#5) ∧ ∀ i < 2, lane32 r i = x i + y i) ∧
    (∃ r, exec (.vsub32 rm) s = .next (s.answeredWith r false 0#5) ∧ ∀ i < 2, lane32 r i = x i - y i) ∧
    (∃ r, exec (.vmul32 rm) s = .next (s.answeredWith r false 0#5) ∧ ∀ i < 2, lane32 r i = x i * y i) ∧
    (∃ r, exec (.vdiv32 rm) s = .next (s.answeredWith r false 0#5) ∧
      ∀ i < 2, lane32 r i = if y i = 0#32 then 0#32 else (x i).sdiv (y i)) ∧
    (∃ r, exec (.vrem32 rm) s = .next (s.answeredWith r false 0#5) ∧
      ∀ i < 2, lane32 r i = if y i = 0#32 then 0#32 else (x i).srem (y i))

/-- The five 4 x 16-bit operations (R156 to R160), lane by lane. -/
def Obligations.Packed16 : Prop :=
  Selects 0x30#8 .vadd16 ∧ Selects 0x31#8 .vsub16 ∧ Selects 0x32#8 .vmul16 ∧ Selects 0x33#8 .vdiv16 ∧
  Selects 0x34#8 .vrem16 ∧ ∀ (rm : BitVec 3) (s : State),
    let x := lane16 s.port.a
    let y := lane16 s.port.b
    (∃ r, exec (.vadd16 rm) s = .next (s.answeredWith r false 0#5) ∧ ∀ i < 4, lane16 r i = x i + y i) ∧
    (∃ r, exec (.vsub16 rm) s = .next (s.answeredWith r false 0#5) ∧ ∀ i < 4, lane16 r i = x i - y i) ∧
    (∃ r, exec (.vmul16 rm) s = .next (s.answeredWith r false 0#5) ∧ ∀ i < 4, lane16 r i = x i * y i) ∧
    (∃ r, exec (.vdiv16 rm) s = .next (s.answeredWith r false 0#5) ∧
      ∀ i < 4, lane16 r i = if y i = 0#16 then 0#16 else (x i).sdiv (y i)) ∧
    (∃ r, exec (.vrem16 rm) s = .next (s.answeredWith r false 0#5) ∧
      ∀ i < 4, lane16 r i = if y i = 0#16 then 0#16 else (x i).srem (y i))

/-- R163: lane `k` of a packed-integer arithmetic result is a function of lane `k` of the operands alone. -/
def Obligations.LaneIndependence : Prop :=
  ∀ (i : Instr) (s s' t t' : State) (r r' : Response), exec i s = .next t → exec i s' = .next t' →
    t.response = some r → t'.response = some r' →
    (0x28 ≤ i.selector.toNat → i.selector.toNat ≤ 0x2C → ∀ k < 2,
      lane32 s'.port.a k = lane32 s.port.a k → lane32 s'.port.b k = lane32 s.port.b k →
      lane32 r'.result k = lane32 r.result k) ∧
    (0x30 ≤ i.selector.toNat → i.selector.toNat ≤ 0x34 → ∀ k < 4,
      lane16 s'.port.a k = lane16 s.port.a k → lane16 s'.port.b k = lane16 s.port.b k →
      lane16 r'.result k = lane16 r.result k)

/-- VMVLO and VMVHI (R161, R162): each half of the result from the source its rule names. -/
def Obligations.LaneAssembly : Prop :=
  Selects 0x38#8 .vmvlo ∧ Selects 0x39#8 .vmvhi ∧ ∀ (rm : BitVec 3) (s : State),
    (∃ r, exec (.vmvlo rm) s = .next (s.answeredWith r false 0#5) ∧
      lane32 r 1 = lane32 s.port.a 1 ∧ lane32 r 0 = lane32 s.port.b 0) ∧
    (∃ r, exec (.vmvhi rm) s = .next (s.answeredWith r false 0#5) ∧
      lane32 r 1 = lane32 s.port.b 1 ∧ lane32 r 0 = lane32 s.port.a 0)

/-! ### Fault injection and ECC -/

/-- FAULT_INJECT (R180, R181): the operand as it is without `ovf`, or with one of its low 32 bits flipped and `ovf`; the generator
advances and nothing else changes. -/
def Obligations.FaultInjection : Prop :=
  Selects 0x3C#8 .faultInject ∧ ∀ (rm : BitVec 3) (s : State), ∃ (r : Word) (o : Bool),
    exec (.faultInject rm) s = .next { s.answeredWith r o 0#5 with rng := Config.rngNext s.rng } ∧
    ((r = s.port.a ∧ o = false) ∨ (o = true ∧ ∃ k < 32, r = s.port.a ^^^ 1#64 <<< k))

/-- ECC_ENCODE (R400, R401, R402, R407): data below, metadata 0; the Hamming field is the XOR of the 1-based positions of the set
data bits, and the overall bit makes the number of ones among bits 38:0 even. -/
def Obligations.EncodeRegister : Prop :=
  Selects 0x3E#8 .eccEncode ∧ ∀ (rm : BitVec 3) (s : State), ∃ r : Word,
    exec (.eccEncode rm) s = .next (s.answeredWith r false 0#5) ∧
    eccData r = low32 s.port.a ∧ eccMeta r = 0#25 ∧
    (eccHam r).toNat = ((List.range 32).filter (fun i => s.port.a.getLsbD i)).foldr (fun i acc => (i + 1) ^^^ acc) 0 ∧
    ((List.range 39).filter (fun i => r.getLsbD i)).length % 2 = 0

/-- ECC_CHECK (R182, R405): the decode table. With matching overall parity the register is returned as it is. Otherwise data bit
`syn - 1` is flipped for a syndrome 1 to 32, the code is fresh, and the metadata is kept (or 0 where DECODE_META is ZERO).
`ovf` says that the data changed. -/
def Obligations.CheckRegister : Prop :=
  Selects 0x3D#8 .eccCheck ∧ ∀ (rm : BitVec 3) (s : State), ∃ (r : Word) (o : Bool),
    exec (.eccCheck rm) s = .next (s.answeredWith r o 0#5) ∧ (o = true ↔ eccData r ≠ eccData s.port.a) ∧
    (parityMatch s.port.a = true → r = s.port.a) ∧
    (parityMatch s.port.a = false →
      (1 ≤ (syndrome s.port.a).toNat → (syndrome s.port.a).toNat ≤ 32 →
        eccData r = eccData s.port.a ^^^ 1#32 <<< ((syndrome s.port.a).toNat - 1)) ∧
      ((syndrome s.port.a).toNat = 0 ∨ 33 ≤ (syndrome s.port.a).toNat → eccData r = eccData s.port.a) ∧
      eccHam r = ham6 (eccData r) ∧ eccPov r = overallParity (eccData r) ∧
      (s.params.decodeMeta = .keep → eccMeta r = eccMeta s.port.a) ∧ (s.params.decodeMeta = .zero → eccMeta r = 0#25))

/-- R408, its five laws: decoding a fresh code word changes nothing; one flipped data bit is repaired; data bits 5 and 9 together
are not; the metadata is kept under KEEP; a recomputing decode leaves a true code. -/
def Obligations.DecodeLaws : Prop :=
  (∀ rule d, eccDecode rule (eccEncode d) = eccEncode d) ∧
  (∀ rule d, ∀ i < 32, eccDecode rule (eccEncode d ^^^ 1#64 <<< i) = eccEncode d) ∧
  (∀ rule d, eccDecode rule (eccEncode d ^^^ 1#64 <<< 5 ^^^ 1#64 <<< 9) = eccEncode d ^^^ 1#64 <<< 5 ^^^ 1#64 <<< 9) ∧
  (∀ r, eccMeta (eccDecode .keep r) = eccMeta r) ∧
  (∀ rule r, parityMatch r = false → eccHam (eccDecode rule r) = ham6 (eccData (eccDecode rule r)) ∧
    eccPov (eccDecode rule r) = overallParity (eccData (eccDecode rule r)))

/-- R406, one flipped bit of a code word with any metadata `e` at ECC_CHECK under KEEP: a data bit is repaired with `ovf`, the
overall bit without, and Hamming bit `p_k` is taken for data bit `2^(k-1) - 1`, which is flipped, with `ovf` (conflict C6). -/
def Obligations.SingleErrors : Prop :=
  ∀ (rm : BitVec 3) (s : State) (d : BitVec 32) (e : BitVec 25), s.params.decodeMeta = .keep →
    (∀ i < 32, s.port.a = (e ++ codeword d) ^^^ 1#64 <<< i →
      exec (.eccCheck rm) s = .next (s.answeredWith (e ++ codeword d) true 0#5)) ∧
    (s.port.a = (e ++ codeword d) ^^^ 1#64 <<< 38 →
      exec (.eccCheck rm) s = .next (s.answeredWith (e ++ codeword d) false 0#5)) ∧
    (∀ k < 6, s.port.a = (e ++ codeword d) ^^^ 1#64 <<< (32 + k) →
      exec (.eccCheck rm) s = .next (s.answeredWith (e ++ codeword (d ^^^ 1#32 <<< (2 ^ k - 1))) true 0#5))

/-- R406, R463: a code word with any two of its 39 bits flipped is returned unchanged, without `ovf`. -/
def Obligations.DoubleErrorsPassThrough : Prop :=
  ∀ (rm : BitVec 3) (s : State) (d : BitVec 32) (e : BitVec 25) (i j : Nat), i < 39 → j < 39 → i ≠ j →
    s.port.a = (e ++ codeword d) ^^^ 1#64 <<< i ^^^ 1#64 <<< j →
    exec (.eccCheck rm) s = .next (s.answeredWith s.port.a false 0#5)

/-- ECC_ADAPT (R430 to R435), field by field. -/
def Obligations.AdaptRegister : Prop :=
  Selects 0x3F#8 .eccAdapt ∧ ∀ (rm : BitVec 3) (s : State), ∃ r : Word,
    exec (.eccAdapt rm) s = .next (s.answeredWith r false 0#5) ∧
    (eccFrequency r).toNat = min ((eccFrequency s.port.a).toNat + 1) 1023 ∧
    eccSensitivity r = eccSensitivity s.port.a ∧ r.getLsbD 39 = false ∧ r.extractLsb' 60 4 = 0#4 ∧
    (eccMode s.port.a = 0#2 → eccLow r = eccLow s.port.a ∧ eccHistory r = eccHistory s.port.a) ∧
    (eccMode s.port.a ≠ 0#2 → eccLow r = eccLow (eccDecode s.params.decodeMeta s.port.a) ∧
      (eccHistory r).toNat = if eccData r = eccData s.port.a then (eccHistory s.port.a).toNat
        else min ((eccHistory s.port.a).toNat + 1) 3) ∧
    (eccMode r = if 700 < (eccFrequency r).toNat ∨ 4 ≤ (eccSensitivity r).toNat ∨ 1 ≤ (eccHistory r).toNat then 2#2 else 1#2)

/-- R436 over a sequence of ECC_ADAPT requests, each one taking the previous result as its input: the counters stay in range
and never fall, frequency rises by one until 1023, sensitivity is kept, every result is SEC or SECDED, and after a result with
history at least 1 or frequency above 700 (or sensitivity at least 4) every later one is SECDED. -/
def Obligations.AdaptSequences : Prop :=
  ∀ (rm : Nat → BitVec 3) (s t : Nat → State) (r : Nat → Response),
    (∀ n, exec (.eccAdapt (rm n)) (s n) = .next (t n) ∧ (t n).response = some (r n) ∧ (s (n + 1)).port.a = (r n).result) →
    (∀ n, (eccFrequency (r n).result).toNat ≤ 1023 ∧ (eccHistory (r n).result).toNat ≤ 3 ∧
      (eccHistory (s n).port.a).toNat ≤ (eccHistory (r n).result).toNat ∧
      (eccFrequency (r n).result).toNat = min ((eccFrequency (s n).port.a).toNat + 1) 1023 ∧
      eccSensitivity (r n).result = eccSensitivity (s n).port.a ∧
      (eccMode (r n).result = 1#2 ∨ eccMode (r n).result = 2#2)) ∧
    (∀ n k, n < k →
      (1 ≤ (eccHistory (r n).result).toNat ∨ 700 < (eccFrequency (r n).result).toNat ∨
        4 ≤ (eccSensitivity (r n).result).toNat) →
      eccMode (r k).result = 2#2)

/-! ### Single and double precision -/

/-- FADD.S, FSUB.S, FADD.D, FSUB.D (R250, R251, R300, R301; R227): the sum or difference rounded once to R206 to R208, with
the special cases of R212, R216 and R217. That the NaN-draw counter moves on is the model's own (assumption log 7). -/
def Obligations.ScalarAddSub : Prop :=
  ∀ (rm : BitVec 3) (s : State) (m : RoundMode), effMode s.ambientRm rm = some m →
    let x := datum single (low32 s.port.a)
    let y := datum single (low32 s.port.b)
    (∃ v fl, exec (.faddS rm) s = .next (s.answeredDrawing (zext64 v) fl) ∧ SumResult single m x y v fl) ∧
    (∃ v fl, exec (.fsubS rm) s = .next (s.answeredDrawing (zext64 v) fl) ∧ SumResult single m x (y.negateIf true) v fl) ∧
    (∃ v fl, exec (.faddD rm) s = .next (s.answeredDrawing v fl) ∧
      SumResult double m (datum double s.port.a) (datum double s.port.b) v fl) ∧
    (∃ v fl, exec (.fsubD rm) s = .next (s.answeredDrawing v fl) ∧
      SumResult double m (datum double s.port.a) ((datum double s.port.b).negateIf true) v fl)

/-- FMUL.S, FMUL.D (R252, R302; R227). That the NaN-draw counter moves on is the model's own (assumption log 7). -/
def Obligations.ScalarMultiply : Prop :=
  ∀ (rm : BitVec 3) (s : State) (m : RoundMode), effMode s.ambientRm rm = some m →
    (∃ v fl, exec (.fmulS rm) s = .next (s.answeredDrawing (zext64 v) fl) ∧
      ProductResult single m (datum single (low32 s.port.a)) (datum single (low32 s.port.b)) v fl) ∧
    (∃ v fl, exec (.fmulD rm) s = .next (s.answeredDrawing v fl) ∧
      ProductResult double m (datum double s.port.a) (datum double s.port.b) v fl)

/-- FDIV.S, FDIV.D (R253, R303; R225): a zero divisor gives the canonical NaN and DZ alone, whatever the dividend. That the
NaN-draw counter moves on is the model's own (assumption log 7). -/
def Obligations.ScalarDivide : Prop :=
  ∀ (rm : BitVec 3) (s : State) (m : RoundMode), effMode s.ambientRm rm = some m →
    (∃ v fl, exec (.fdivS rm) s = .next (s.answeredDrawing (zext64 v) fl) ∧
      DivisionResult single m (datum single (low32 s.port.a)) (datum single (low32 s.port.b)) v fl) ∧
    (∃ v fl, exec (.fdivD rm) s = .next (s.answeredDrawing v fl) ∧
      DivisionResult double m (datum double s.port.a) (datum double s.port.b) v fl)

/-- FSQRT.S, FSQRT.D (R254, R304; R226). That the NaN-draw counter moves on is the model's own (assumption log 7). -/
def Obligations.ScalarSquareRoot : Prop :=
  ∀ (rm : BitVec 3) (s : State) (m : RoundMode), effMode s.ambientRm rm = some m →
    (∃ v fl, exec (.fsqrtS rm) s = .next (s.answeredDrawing (zext64 v) fl) ∧ RootResult single m (low32 s.port.a) v fl) ∧
    (∃ v fl, exec (.fsqrtD rm) s = .next (s.answeredDrawing v fl) ∧ RootResult double m s.port.a v fl)

/-- The four fused multiply-adds of both precisions (R255 to R258, R305 to R308; R224): one rounding of the exact signed
product and addend. That the NaN-draw counter moves on is the model's own (assumption log 7). -/
def Obligations.FusedMultiplyAdd : Prop :=
  ∀ (rm : BitVec 3) (s : State) (m : RoundMode), effMode s.ambientRm rm = some m →
    let S := fun (i : Instr) (np nc : Bool) => ∃ v fl, exec i s = .next (s.answeredDrawing (zext64 v) fl) ∧
      FusedResult single m np nc (datum single (low32 s.port.a)) (datum single (low32 s.port.b))
        (datum single (low32 s.port.c)) v fl
    let D := fun (i : Instr) (np nc : Bool) => ∃ v fl, exec i s = .next (s.answeredDrawing v fl) ∧
      FusedResult double m np nc (datum double s.port.a) (datum double s.port.b) (datum double s.port.c) v fl
    S (.fmaddS rm) false false ∧ S (.fmsubS rm) false true ∧ S (.fnmsubS rm) true false ∧ S (.fnmaddS rm) true true ∧
    D (.fmaddD rm) false false ∧ D (.fmsubD rm) false true ∧ D (.fnmsubD rm) true false ∧ D (.fnmaddD rm) true true

/-- Sign injection (R259 to R261, R309 to R311; R223): the sign bit from its rule, every other bit from `a`; no flag. -/
def Obligations.SignInjection : Prop :=
  Selects 0x49#8 .fsgnjS ∧ Selects 0x4A#8 .fsgnjnS ∧ Selects 0x4B#8 .fsgnjxS ∧
  Selects 0x89#8 .fsgnjD ∧ Selects 0x8A#8 .fsgnjnD ∧ Selects 0x8B#8 .fsgnjxD ∧ ∀ (rm : BitVec 3) (s : State),
    let S := fun (i : Instr) (sign : Bool) => ∃ v : BitVec 32, exec i s = .next (s.answeredWith (zext64 v) false 0#5) ∧
      v.msb = sign ∧ ∀ k < 31, v.getLsbD k = s.port.a.getLsbD k
    let D := fun (i : Instr) (sign : Bool) => ∃ v : BitVec 64, exec i s = .next (s.answeredWith v false 0#5) ∧
      v.msb = sign ∧ ∀ k < 63, v.getLsbD k = s.port.a.getLsbD k
    S (.fsgnjS rm) (s.port.b.getLsbD 31) ∧ S (.fsgnjnS rm) (!s.port.b.getLsbD 31) ∧
    S (.fsgnjxS rm) (s.port.a.getLsbD 31 ^^ s.port.b.getLsbD 31) ∧
    D (.fsgnjD rm) (s.port.b.getLsbD 63) ∧ D (.fsgnjnD rm) (!s.port.b.getLsbD 63) ∧
    D (.fsgnjxD rm) (s.port.a.getLsbD 63 ^^ s.port.b.getLsbD 63)

/-- FMIN and FMAX of both precisions (R262, R263, R312, R313; R220). That the NaN-draw counter moves on is the model's own
(assumption log 7). -/
def Obligations.MinimumMaximum : Prop :=
  ∀ (rm : BitVec 3) (s : State),
    let S := fun (i : Instr) (ismax : Bool) => ∃ v fl, exec i s = .next (s.answeredDrawing (zext64 v) fl) ∧
      MinMaxResult single ismax (low32 s.port.a) (low32 s.port.b) v fl
    let D := fun (i : Instr) (ismax : Bool) => ∃ v fl, exec i s = .next (s.answeredDrawing v fl) ∧
      MinMaxResult double ismax s.port.a s.port.b v fl
    S (.fminS rm) false ∧ S (.fmaxS rm) true ∧ D (.fminD rm) false ∧ D (.fmaxD rm) true

/-- FEQ, FLT and FLE of both precisions (R264 to R266, R314 to R316; R221): 0 with a NaN operand, else the relation of the two
values on the extended line; never a flag. -/
def Obligations.FloatComparisons : Prop :=
  Selects 0x4E#8 .feqS ∧ Selects 0x4F#8 .fltS ∧ Selects 0x50#8 .fleS ∧
  Selects 0x8E#8 .feqD ∧ Selects 0x8F#8 .fltD ∧ Selects 0x90#8 .fleD ∧ ∀ (rm : BitVec 3) (s : State),
    let ok := fun (x y : Datum) (i : Instr) (rel : WithBot (WithTop ℚ) → WithBot (WithTop ℚ) → Prop) =>
      ∃ p : Bool, exec i s = .next (s.answeredWith (if p then 1#64 else 0#64) false 0#5) ∧
        (p = true ↔ x.isNaN = false ∧ y.isNaN = false ∧ rel x.extended y.extended)
    let S := ok (datum single (low32 s.port.a)) (datum single (low32 s.port.b))
    let D := ok (datum double s.port.a) (datum double s.port.b)
    S (.feqS rm) (· = ·) ∧ S (.fltS rm) (· < ·) ∧ S (.fleS rm) (· ≤ ·) ∧
    D (.feqD rm) (· = ·) ∧ D (.fltD rm) (· < ·) ∧ D (.fleD rm) (· ≤ ·)

/-- FCLASS of both precisions (R267, R317; R222): bit `k` alone for the `k`-th class of R222's list, a finite value being normal
when its magnitude is at least the least normal one. -/
def Obligations.Classification : Prop :=
  Selects 0x51#8 .fclassS ∧ Selects 0x91#8 .fclassD ∧ ∀ (rm : BitVec 3) (s : State),
    let ok := fun (F : Format) (d : Datum) (i : Instr) => ∃ k : Nat,
      exec i s = .next (s.answeredWith (1#64 <<< k) false 0#5) ∧ k < 10 ∧
        (k = 0 ↔ d = .inf true) ∧ (k = 7 ↔ d = .inf false) ∧ (k = 8 ↔ d = .nan false) ∧ (k = 9 ↔ d = .nan true) ∧
        (k = 1 ↔ d.isFinite = true ∧ d.sign = true ∧ (2 : ℚ) ^ emin F ≤ |d.value|) ∧
        (k = 2 ↔ d.isFinite = true ∧ d.sign = true ∧ |d.value| < (2 : ℚ) ^ emin F ∧ d.value ≠ 0) ∧
        (k = 3 ↔ d.isFinite = true ∧ d.sign = true ∧ d.value = 0) ∧
        (k = 4 ↔ d.isFinite = true ∧ d.sign = false ∧ d.value = 0) ∧
        (k = 5 ↔ d.isFinite = true ∧ d.sign = false ∧ |d.value| < (2 : ℚ) ^ emin F ∧ d.value ≠ 0) ∧
        (k = 6 ↔ d.isFinite = true ∧ d.sign = false ∧ (2 : ℚ) ^ emin F ≤ |d.value|)
    ok single (datum single (low32 s.port.a)) (.fclassS rm) ∧ ok double (datum double s.port.a) (.fclassD rm)

/-- The eight float-to-integer conversions (R268 to R271, R318 to R321; R218, R213): saturation with NV, rounding with NX, the
32-bit results extended. -/
def Obligations.FloatToInteger : Prop :=
  Selects 0x52#8 .fcvtWS ∧ Selects 0x53#8 .fcvtWuS ∧ Selects 0x54#8 .fcvtLS ∧ Selects 0x55#8 .fcvtLuS ∧
  Selects 0x92#8 .fcvtWD ∧ Selects 0x93#8 .fcvtWuD ∧ Selects 0x94#8 .fcvtLD ∧ Selects 0x95#8 .fcvtLuD ∧
  ∀ (rm : BitVec 3) (s : State) (m : RoundMode), effMode s.ambientRm rm = some m →
    let ok := fun (x : Datum) (i : Instr) (lo hi : ℤ) (place : ℤ → Word) => ∃ n fl,
      exec i s = .next (s.answeredWith (place n) false fl) ∧ ToIntResult m lo hi x n fl
    let wu := fun n => match s.params.wuExtend with
      | .sign => (BitVec.ofInt 32 n).signExtend 64
      | .zero => (BitVec.ofInt 32 n).setWidth 64
    let S := ok (datum single (low32 s.port.a))
    let D := ok (datum double s.port.a)
    S (.fcvtWS rm) (-2 ^ 31) (2 ^ 31 - 1) (fun n => BitVec.ofInt 64 n) ∧ S (.fcvtWuS rm) 0 (2 ^ 32 - 1) wu ∧
    S (.fcvtLS rm) (-2 ^ 63) (2 ^ 63 - 1) (fun n => BitVec.ofInt 64 n) ∧
    S (.fcvtLuS rm) 0 (2 ^ 64 - 1) (fun n => BitVec.ofInt 64 n) ∧
    D (.fcvtWD rm) (-2 ^ 31) (2 ^ 31 - 1) (fun n => BitVec.ofInt 64 n) ∧ D (.fcvtWuD rm) 0 (2 ^ 32 - 1) wu ∧
    D (.fcvtLD rm) (-2 ^ 63) (2 ^ 63 - 1) (fun n => BitVec.ofInt 64 n) ∧
    D (.fcvtLuD rm) 0 (2 ^ 64 - 1) (fun n => BitVec.ofInt 64 n)

/-- The eight integer-to-float conversions (R272 to R275, R322 to R325; R219, R213); those of 32-bit integers to double raise no
flag and keep the value. -/
def Obligations.IntegerToFloat : Prop :=
  Selects 0x56#8 .fcvtSW ∧ Selects 0x57#8 .fcvtSWu ∧ Selects 0x58#8 .fcvtSL ∧ Selects 0x59#8 .fcvtSLu ∧
  Selects 0x96#8 .fcvtDW ∧ Selects 0x97#8 .fcvtDWu ∧ Selects 0x98#8 .fcvtDL ∧ Selects 0x99#8 .fcvtDLu ∧
  ∀ (rm : BitVec 3) (s : State) (m : RoundMode), effMode s.ambientRm rm = some m →
    let S := fun (i : Instr) (n : ℤ) => ∃ v fl, exec i s = .next (s.answeredWith (zext64 v) false fl) ∧
      FromIntResult single m n v fl
    let D := fun (i : Instr) (n : ℤ) => ∃ v fl, exec i s = .next (s.answeredWith v false fl) ∧ FromIntResult double m n v fl
    let whole := fun (i : Instr) (n : ℤ) => ∃ v, exec i s = .next (s.answeredWith v false 0#5) ∧
      (datum double v).isFinite = true ∧ (datum double v).value = n ∧ (n = 0 → v = 0#64)
    S (.fcvtSW rm) (low32 s.port.a).toInt ∧ S (.fcvtSWu rm) (low32 s.port.a).toNat ∧
    S (.fcvtSL rm) s.port.a.toInt ∧ S (.fcvtSLu rm) s.port.a.toNat ∧
    whole (.fcvtDW rm) (low32 s.port.a).toInt ∧ whole (.fcvtDWu rm) (low32 s.port.a).toNat ∧
    D (.fcvtDL rm) s.port.a.toInt ∧ D (.fcvtDLu rm) s.port.a.toNat

/-- The moves (R276, R277, R326, R327): bit for bit, FMV.X.W with copies of bit 31 above, FMV.W.X with zeros; no flag. -/
def Obligations.PatternMoves : Prop :=
  Selects 0x5A#8 .fmvXW ∧ Selects 0x5B#8 .fmvWX ∧ Selects 0x9A#8 .fmvXD ∧ Selects 0x9B#8 .fmvDX ∧
  ∀ (rm : BitVec 3) (s : State),
    (∃ r, exec (.fmvXW rm) s = .next (s.answeredWith r false 0#5) ∧
      ∀ k < 64, r.getLsbD k = s.port.a.getLsbD (min k 31)) ∧
    (∃ r, exec (.fmvWX rm) s = .next (s.answeredWith r false 0#5) ∧
      ∀ k < 64, r.getLsbD k = (decide (k < 32) && s.port.a.getLsbD k)) ∧
    exec (.fmvXD rm) s = .next (s.answeredWith s.port.a false 0#5) ∧
    exec (.fmvDX rm) s = .next (s.answeredWith s.port.a false 0#5)

/-- R278: a single-precision response does not depend on bits 63:32 of the operands. FCVT.S.L and FCVT.S.LU, which R274 and R275
let read all 64 bits, stand apart (assumption log 13). -/
def Obligations.UpperHalvesIgnoredS : Prop :=
  ∀ (i : Instr) (s s' t t' : State), 0x40 ≤ i.selector.toNat → i.selector.toNat ≤ 0x5B →
    i.selector ≠ 0x58#8 → i.selector ≠ 0x59#8 → s'.ambientRm = s.ambientRm → s'.params = s.params →
    s'.nanDraws = s.nanDraws → low32 s'.port.a = low32 s.port.a → low32 s'.port.b = low32 s.port.b →
    low32 s'.port.c = low32 s.port.c → exec i s = .next t → exec i s' = .next t' → t'.response = t.response

/-! ### Packed floating point -/

/-- BF16.ADD, SUB, MUL, DIV (R350 to R357): each lane is the float32 result `y` of the lanes expanded, clamped and narrowed,
and the flags of the four lanes are ORed. The NaN-draw counter and an infinity over a zero in BF16.DIV are the model's own
(assumption log 7, 14). -/
def Obligations.Bf16Elementwise : Prop :=
  ∀ (rm : BitVec 3) (s : State) (m : RoundMode), effMode s.ambientRm rm = some m →
    let ok := fun (i : Instr) (f : Datum → Datum → BitVec 32 → BitVec 5 → Prop) =>
      ∃ (r : Word) (y : Nat → BitVec 32) (g : Nat → BitVec 5),
        exec i s = .next (s.answeredDrawing r (g 0 ||| g 1 ||| g 2 ||| g 3)) ∧
        ∀ k < 4, f (datum single (lane16 s.port.a k ++ 0#16)) (datum single (lane16 s.port.b k ++ 0#16)) (y k) (g k) ∧
          NarrowsTo s.params.bf16Narrow (y k) (lane16 r k)
    ok (.bf16Add rm) (SumResult single m) ∧ ok (.bf16Sub rm) (fun x y => SumResult single m x (y.negateIf true)) ∧
    ok (.bf16Mul rm) (ProductResult single m) ∧ ok (.bf16Div rm) (QuotientResult single m)

/-- R351, R352: no lane of a BF16.ADD, SUB, MUL or DIV result is an infinity, and a NaN lane is quiet. -/
def Obligations.Bf16NeverInfinite : Prop :=
  ∀ (i : Instr) (s t : State) (r : Response) (k : Nat), 0xC0 ≤ i.selector.toNat → i.selector.toNat ≤ 0xC3 → k < 4 →
    exec i s = .next t → t.response = some r →
    (datum bfloat16 (lane16 r.result k)).isInf = false ∧ (datum bfloat16 (lane16 r.result k)).isSignaling = false

/-- BF16.DOT (R358): from the accumulator `c[31:0]`, each lane's product and each sum rounded in turn, lane 0 first, every
flag ORed; the float32 sum is neither clamped nor narrowed. That the NaN-draw counter moves on is the model's own
(assumption log 7). -/
def Obligations.Bf16DotProduct : Prop :=
  ∀ (rm : BitVec 3) (s : State) (m : RoundMode), effMode s.ambientRm rm = some m →
    ∃ (p acc : Nat → BitVec 32) (g h : Nat → BitVec 5), acc 0 = low32 s.port.c ∧
      (∀ k < 4, ProductResult single m (datum single (lane16 s.port.a k ++ 0#16)) (datum single (lane16 s.port.b k ++ 0#16))
          (p k) (g k) ∧
        SumResult single m (datum single (acc k)) (datum single (p k)) (acc (k + 1)) (h k)) ∧
      exec (.bf16Dot rm) s = .next (s.answeredDrawing (zext64 (acc 4))
        (g 0 ||| h 0 ||| g 1 ||| h 1 ||| g 2 ||| h 2 ||| g 3 ||| h 3))

/-- PF32.ADD, SUB, MUL, DIV (R380 to R385): each lane is the float32 result, an infinity clamped with OF; the flags of both
lanes are ORed. A zero divisor lane of PF32.DIV gives the canonical NaN and DZ. That the NaN-draw counter moves on is the
model's own (assumption log 7). -/
def Obligations.Pf32Elementwise : Prop :=
  ∀ (rm : BitVec 3) (s : State) (m : RoundMode), effMode s.ambientRm rm = some m →
    let ok := fun (i : Instr) (f : Datum → Datum → BitVec 32 → BitVec 5 → Prop) =>
      ∃ (r : Word) (y : Nat → BitVec 32) (g fl : Nat → BitVec 5), exec i s = .next (s.answeredDrawing r (fl 0 ||| fl 1)) ∧
        ∀ k < 2, f (datum single (lane32 s.port.a k)) (datum single (lane32 s.port.b k)) (y k) (g k) ∧
          ClampsTo (y k) (g k) (lane32 r k) (fl k)
    ok (.pf32Add rm) (SumResult single m) ∧ ok (.pf32Sub rm) (fun x y => SumResult single m x (y.negateIf true)) ∧
    ok (.pf32Mul rm) (ProductResult single m) ∧ ok (.pf32Div rm) (DivisionResult single m)

/-- R381: no lane result of PF32.ADD, SUB, MUL, DIV or REM is an infinity. -/
def Obligations.Pf32NeverInfinite : Prop :=
  ∀ (i : Instr) (s t : State) (r : Response) (k : Nat), 0xD0 ≤ i.selector.toNat → i.selector.toNat ≤ 0xD4 → k < 2 →
    exec i s = .next t → t.response = some r → (datum single (lane32 r.result k)).isInf = false

/-- PF32.REM (R386): each lane the exact remainder of a truncated division, with the dividend's sign; no rounding, and no
flag but NV. That the NaN-draw counter moves on is the model's own (assumption log 7). -/
def Obligations.Pf32Remainder : Prop :=
  Selects 0xD4#8 .pf32Rem ∧ ∀ (rm : BitVec 3) (s : State), ∃ (r : Word) (fl : Nat → BitVec 5),
    exec (.pf32Rem rm) s = .next (s.answeredDrawing r (fl 0 ||| fl 1)) ∧
    ∀ k < 2, RemainderResult (lane32 s.port.a k) (lane32 s.port.b k) (lane32 r k) (fl k)

/-- PF32.PACK (R387): lane 0 from `a`, lane 1 from `b`, unchanged. -/
def Obligations.Pf32Pack : Prop :=
  Selects 0xD5#8 .pf32Pack ∧ ∀ (rm : BitVec 3) (s : State), ∃ r,
    exec (.pf32Pack rm) s = .next (s.answeredWith r false 0#5) ∧ lane32 r 0 = low32 s.port.a ∧ lane32 r 1 = low32 s.port.b

end
end

