-- ==== Sys2Proof/Laws/Rounding.lean ====
section
/-! SUPPORT. Rounding: the model's exact rounding is R206's rounding of a real number. Each operation of
Machine/Numerics.lean on the way (`Exact.floorLog2`, `Exact.scaled`, `roundInt`, `tiny`, `roundTo`) has one lemma that says what
it computes; `roundTo_spec` is the last. -/

namespace Sys2Proof.Machine

theorem zpow_toNat_split (d : ℤ) : (2 : ℝ) ^ d.toNat = (2 : ℝ) ^ d * (2 : ℝ) ^ (-d).toNat := by
  have h : (2 : ℝ) ^ d.toNat = (2 : ℝ) ^ ((d.toNat : ℕ) : ℤ) := (zpow_natCast _ _).symm
  have h' : (2 : ℝ) ^ (-d).toNat = (2 : ℝ) ^ (((-d).toNat : ℕ) : ℤ) := (zpow_natCast _ _).symm
  rw [h, h', ← zpow_add₀ (by norm_num)]
  congr 1
  omega

theorem log2_bounds (n : ℕ) (h : 0 < n) : (2 : ℝ) ^ (n.log2 : ℤ) ≤ n ∧ (n : ℝ) < (2 : ℝ) ^ ((n.log2 : ℤ) + 1) := by
  have h1 : 2 ^ n.log2 ≤ n := Nat.log2_self_le h.ne'
  have h2 : n < 2 ^ (n.log2 + 1) := Nat.lt_log2_self
  constructor
  · rw [zpow_natCast]; exact_mod_cast h1
  · have : ((n.log2 : ℤ) + 1) = ((n.log2 + 1 : ℕ) : ℤ) := by push_cast; ring
    rw [this, zpow_natCast]; exact_mod_cast h2

/-- `ratioLog2` is the floor of the binary logarithm of the ratio. -/
theorem ratioLog2_spec (num den : ℕ) (hn : 0 < num) (hd : 0 < den) :
    (2 : ℝ) ^ ratioLog2 num den * den ≤ num ∧ (num : ℝ) < (2 : ℝ) ^ (ratioLog2 num den + 1) * den := by
  obtain ⟨a1, a2⟩ := log2_bounds num hn
  obtain ⟨b1, b2⟩ := log2_bounds den hd
  have hdR : (0 : ℝ) < den := by exact_mod_cast hd
  have h2 : (2 : ℝ) ≠ 0 := by norm_num
  unfold ratioLog2
  generalize (num.log2 : ℤ) = a at *
  generalize (den.log2 : ℤ) = b at *
  have key : (den * 2 ^ (a - b).toNat ≤ num * 2 ^ (-(a - b)).toNat) ↔ (2 : ℝ) ^ (a - b) * den ≤ num := by
    rw [← Nat.cast_le (α := ℝ)]
    push_cast
    rw [zpow_toNat_split (a - b)]
    have hp : (0 : ℝ) < 2 ^ (-(a - b)).toNat := by positivity
    rw [show (den : ℝ) * ((2 : ℝ) ^ (a - b) * 2 ^ (-(a - b)).toNat) =
      ((2 : ℝ) ^ (a - b) * den) * 2 ^ (-(a - b)).toNat by ring]
    exact mul_le_mul_iff_left₀ hp
  have up : (num : ℝ) < (2 : ℝ) ^ (a - b + 1) * den := by
    calc (num : ℝ) < (2 : ℝ) ^ (a + 1) := a2
      _ = (2 : ℝ) ^ (a - b + 1) * (2 : ℝ) ^ b := by rw [← zpow_add₀ h2]; congr 1; ring
      _ ≤ _ := by gcongr
  have lo : (2 : ℝ) ^ (a - b - 1) * den ≤ num := by
    calc (2 : ℝ) ^ (a - b - 1) * den ≤ (2 : ℝ) ^ (a - b - 1) * (2 : ℝ) ^ (b + 1) := by gcongr
      _ = (2 : ℝ) ^ a := by rw [← zpow_add₀ h2]; congr 1; ring
      _ ≤ _ := a1
  dsimp only
  split
  · rename_i h
    exact ⟨key.mp h, up⟩
  · rename_i h
    refine ⟨lo, ?_⟩
    rw [show a - b - 1 + 1 = a - b by ring]
    exact not_le.mp (fun hh => h (key.mpr hh))

/-- `x` is the exact positive real `X`. -/
def Exact.Denotes (x : Exact) (X : ℝ) : Prop :=
  match x with
  | .ratio num den => 0 < num ∧ 0 < den ∧ X * den = num
  | .root num den => 0 < num ∧ 0 < den ∧ 0 ≤ X ∧ X * X * den = num

theorem Exact.Denotes.pos {x : Exact} {X : ℝ} (h : x.Denotes X) : 0 < X := by
  cases x with
  | ratio num den =>
    obtain ⟨hn, hd, h⟩ := h
    have hn' : (0 : ℝ) < num := by exact_mod_cast hn
    have hd' : (0 : ℝ) < den := by exact_mod_cast hd
    rw [← h] at hn'
    exact pos_of_mul_pos_left hn' hd'.le
  | root num den =>
    obtain ⟨hn, hd, h0, h⟩ := h
    have hn' : (0 : ℝ) < num := by exact_mod_cast hn
    rcases h0.lt_or_eq with h1 | h1
    · exact h1
    · rw [← h1] at h; simp at h; rw [← h] at hn'; simp at hn'

/-- `floorLog2` is the exponent `e` of R206. -/
theorem Exact.floorLog2_spec {x : Exact} {X : ℝ} (h : x.Denotes X) :
    (2 : ℝ) ^ x.floorLog2 ≤ X ∧ X < (2 : ℝ) ^ (x.floorLog2 + 1) := by
  have hX := h.pos
  have h2 : (2 : ℝ) ≠ 0 := by norm_num
  cases x with
  | ratio num den =>
    obtain ⟨hn, hd, h⟩ := h
    have hd' : (0 : ℝ) < den := by exact_mod_cast hd
    obtain ⟨l, u⟩ := ratioLog2_spec num den hn hd
    rw [← h] at l u
    exact ⟨le_of_mul_le_mul_right l hd', lt_of_mul_lt_mul_right u hd'.le⟩
  | root num den =>
    obtain ⟨hn, hd, h0, h⟩ := h
    have hd' : (0 : ℝ) < den := by exact_mod_cast hd
    obtain ⟨l, u⟩ := ratioLog2_spec num den hn hd
    rw [← h] at l u
    have l := le_of_mul_le_mul_right l hd'
    have u := lt_of_mul_lt_mul_right u hd'.le
    show (2 : ℝ) ^ (ratioLog2 num den / 2) ≤ X ∧ X < (2 : ℝ) ^ (ratioLog2 num den / 2 + 1)
    generalize ratioLog2 num den = e at *
    constructor
    · by_contra hc
      push Not at hc
      have : X * X < (2 : ℝ) ^ (e / 2) * (2 : ℝ) ^ (e / 2) := mul_self_lt_mul_self hX.le hc
      rw [← zpow_add₀ h2] at this
      have h3 : (2 : ℝ) ^ (e / 2 + e / 2) ≤ (2 : ℝ) ^ e := zpow_le_zpow_right₀ (by norm_num) (by omega)
      linarith
    · by_contra hc
      push Not at hc
      have : (2 : ℝ) ^ (e / 2 + 1) * (2 : ℝ) ^ (e / 2 + 1) ≤ X * X := mul_self_le_mul_self (by positivity) hc
      rw [← zpow_add₀ h2] at this
      have h3 : (2 : ℝ) ^ (e + 1) ≤ (2 : ℝ) ^ (e / 2 + 1 + (e / 2 + 1)) :=
        zpow_le_zpow_right₀ (by norm_num) (by omega)
      linarith

/-- The scaled reading `s` of a non-negative real is right about `Y`. -/
def Scaled.Describes (s : Scaled) (Y : ℝ) : Prop :=
  match s.rest with
  | .exact => Y = s.floor
  | .below => (s.floor : ℝ) < Y ∧ Y < s.floor + 1 / 2
  | .half => Y = s.floor + 1 / 2
  | .above => (s.floor : ℝ) + 1 / 2 < Y ∧ Y < s.floor + 1

theorem scaledRatio_spec (num den : ℕ) (hd : 0 < den) (Y : ℝ) (h : Y * den = num) :
    (scaledRatio num den).Describes Y := by
  have hd' : (0 : ℝ) < den := by exact_mod_cast hd
  have hr : num % den < den := Nat.mod_lt _ hd
  have e : (den : ℝ) * ((num / den : ℕ) : ℝ) + ((num % den : ℕ) : ℝ) = num := by exact_mod_cast Nat.div_add_mod num den
  unfold scaledRatio restOf Scaled.Describes
  generalize num / den = q at *
  generalize num % den = r at *
  have hY : den * (Y - q) = r := by rw [← h] at e; linarith
  have hr' : (r : ℝ) < den := by exact_mod_cast hr
  by_cases h0 : r = 0
  · subst h0
    simp at hY ⊢
    rcases hY with hY | hY
    · omega
    · linarith
  · have hr0 : (0 : ℝ) < r := by exact_mod_cast Nat.pos_of_ne_zero h0
    simp only [beq_iff_eq, h0, if_false]
    by_cases h1 : 2 * r < den
    · have h1' : (2 : ℝ) * r < den := by exact_mod_cast h1
      simp only [h1, if_true]
      constructor <;> nlinarith
    · have h1' : (den : ℝ) ≤ 2 * r := by exact_mod_cast not_lt.mp h1
      simp only [h1, if_false]
      by_cases h2 : 2 * r = den
      · have h2' : (2 : ℝ) * r = den := by exact_mod_cast h2
        simp only [h2, if_true]
        have : (den : ℝ) * (Y - q - 1 / 2) = 0 := by linarith
        rcases mul_eq_zero.mp this with h | h
        · linarith
        · linarith
      · have h2' : (den : ℝ) < 2 * r := lt_of_le_of_ne h1' (fun hh => h2 (by exact_mod_cast hh.symm))
        simp only [h2, if_false]
        constructor <;> nlinarith

/-- `isqrt` is the integer square root below its fuel's bound. -/
theorem isqrt_spec (fuel n : ℕ) (h : n < 4 ^ fuel) :
    isqrt fuel n * isqrt fuel n ≤ n ∧ n < (isqrt fuel n + 1) * (isqrt fuel n + 1) := by
  induction fuel generalizing n with
  | zero => simp [isqrt]; omega
  | succ fuel ih =>
    obtain ⟨l, u⟩ := ih (n / 4) (by rw [pow_succ] at h; omega)
    simp only [isqrt]
    generalize isqrt fuel (n / 4) = m at *
    have h4 : 4 * (n / 4) + n % 4 = n := Nat.div_add_mod n 4
    have hm : n % 4 < 4 := Nat.mod_lt _ (by norm_num)
    have h5 : 2 * m * (2 * m) = 4 * (m * m) := by ring
    have h6 : (2 * m + 1 + 1) * (2 * m + 1 + 1) = 4 * ((m + 1) * (m + 1)) := by ring
    split <;> omega

theorem scaledRoot_spec (num den : ℕ) (hd : 0 < den) (Y : ℝ) (h0 : 0 ≤ Y) (h : Y * Y * den = num) :
    (scaledRoot num den).Describes Y := by
  have hd' : (0 : ℝ) < den := by exact_mod_cast hd
  have hq := isqrt_spec ((num / den).log2 / 2 + 1) (num / den) (by
    have : num / den < 2 ^ ((num / den).log2 + 1) := Nat.lt_log2_self
    refine this.trans_le ?_
    rw [show (4 : ℕ) = 2 ^ 2 by norm_num, ← pow_mul]
    exact Nat.pow_le_pow_right (by norm_num) (by omega))
  unfold scaledRoot restOf Scaled.Describes
  dsimp only
  generalize isqrt ((num / den).log2 / 2 + 1) (num / den) = n at *
  obtain ⟨l, u⟩ := hq
  have l1 : n * n * den ≤ num := (Nat.mul_le_mul_right _ l).trans (Nat.div_mul_le_self num den)
  have u1 : num < (n + 1) * (n + 1) * den := (Nat.div_lt_iff_lt_mul hd).mp u
  have l2 : (n : ℝ) * n * den ≤ Y * Y * den := by rw [h]; exact_mod_cast l1
  have u2 : Y * Y * den < ((n : ℝ) + 1) * (n + 1) * den := by rw [h]; exact_mod_cast u1
  have l3 : (n : ℝ) * n ≤ Y * Y := le_of_mul_le_mul_right l2 hd'
  have u3 : Y * Y < ((n : ℝ) + 1) * (n + 1) := lt_of_mul_lt_mul_right u2 hd'.le
  have hn0 : (0 : ℝ) ≤ n := by positivity
  have u4 : Y < n + 1 := lt_of_mul_self_lt_mul_self₀ (by positivity) u3
  by_cases hx : n * n * den = num
  · simp only [hx, beq_self_eq_true, if_true]
    have : (n : ℝ) * n * den = Y * Y * den := by rw [h]; exact_mod_cast hx
    have : (n : ℝ) * n = Y * Y := mul_right_cancel₀ hd'.ne' this
    exact ((mul_self_inj_of_nonneg hn0 h0).mp this).symm
  · have hne : (n : ℝ) * n ≠ Y * Y := by
      intro hh
      apply hx
      have : (n : ℝ) * n * den = num := by rw [hh, h]
      exact_mod_cast this
    have l4 : (n : ℝ) < Y := by
      rcases lt_or_ge (n : ℝ) Y with hh | hh
      · exact hh
      · exact absurd (le_antisymm l3 (mul_self_le_mul_self h0 hh)) hne
    simp only [beq_iff_eq, hx, if_false]
    by_cases h1 : 4 * num < (2 * n + 1) * (2 * n + 1) * den
    · have h1' : (4 : ℝ) * num < (2 * n + 1) * (2 * n + 1) * den := by exact_mod_cast h1
      simp only [h1, if_true]
      refine ⟨l4, ?_⟩
      rw [← h] at h1'
      have : (2 * Y) * (2 * Y) < (2 * (n : ℝ) + 1) * (2 * n + 1) := by
        have : ((2 * Y) * (2 * Y)) * den < ((2 * (n : ℝ) + 1) * (2 * n + 1)) * den := by linarith
        exact lt_of_mul_lt_mul_right this hd'.le
      have := lt_of_mul_self_lt_mul_self₀ (by positivity) this
      linarith
    · have h1' : (2 * (n : ℝ) + 1) * (2 * n + 1) * den ≤ 4 * num := by exact_mod_cast not_lt.mp h1
      simp only [h1, if_false]
      by_cases h2 : 4 * num = (2 * n + 1) * (2 * n + 1) * den
      · have h2' : (4 : ℝ) * num = (2 * n + 1) * (2 * n + 1) * den := by exact_mod_cast h2
        simp only [h2, if_true]
        rw [← h] at h2'
        have : (2 * Y) * (2 * Y) = (2 * (n : ℝ) + 1) * (2 * n + 1) := by
          have : ((2 * Y) * (2 * Y)) * den = ((2 * (n : ℝ) + 1) * (2 * n + 1)) * den := by linarith
          exact mul_right_cancel₀ hd'.ne' this
        have := (mul_self_inj_of_nonneg (by positivity) (by positivity)).mp this
        linarith
      · have h2' : (2 * (n : ℝ) + 1) * (2 * n + 1) * den < 4 * num :=
          lt_of_le_of_ne h1' (fun hh => h2 (by exact_mod_cast hh.symm))
        simp only [h2, if_false]
        refine ⟨?_, u4⟩
        rw [← h] at h2'
        have : (2 * (n : ℝ) + 1) * (2 * n + 1) < (2 * Y) * (2 * Y) := by
          have : ((2 * (n : ℝ) + 1) * (2 * n + 1)) * den < ((2 * Y) * (2 * Y)) * den := by linarith
          exact lt_of_mul_lt_mul_right this hd'.le
        have := lt_of_mul_self_lt_mul_self₀ (by positivity) this
        linarith

/-- `Exact.scaled` reads the real over a power of two. -/
theorem Exact.scaled_spec {x : Exact} {X : ℝ} (h : x.Denotes X) (k : ℤ) : (x.scaled k).Describes (X / 2 ^ k) := by
  have h2 : (2 : ℝ) ≠ 0 := by norm_num
  cases x with
  | ratio num den =>
    obtain ⟨hn, hd, h⟩ := h
    apply scaledRatio_spec
    · positivity
    · push_cast
      rw [zpow_toNat_split k, ← h]
      have : (2 : ℝ) ^ k ≠ 0 := zpow_ne_zero _ h2
      field_simp
  | root num den =>
    obtain ⟨hn, hd, h0, h⟩ := h
    apply scaledRoot_spec
    · positivity
    · positivity
    · push_cast
      rw [zpow_toNat_split (2 * k), ← h, show 2 * k = k + k by ring, zpow_add₀ h2]
      have : (2 : ℝ) ^ k ≠ 0 := zpow_ne_zero _ h2
      field_simp

theorem roundsTo_nearest_neg (y : ℝ) (n : ℤ) (h : RoundsTo .rne y n) : RoundsTo .rne (-y) (-n) := by
  unfold RoundsTo at *
  push_cast
  rw [show -y - -(n : ℝ) = -(y - n) by ring, abs_neg]
  simpa using h

theorem roundsTo_zero_neg (y : ℝ) (n : ℤ) (h : RoundsTo .rtz y n) : RoundsTo .rtz (-y) (-n) := by
  unfold RoundsTo at *
  push_cast
  rw [abs_neg, abs_neg, neg_mul_neg]
  exact h

theorem roundInt_nearest (y : Scaled) (Y : ℝ) (h : y.Describes Y) : RoundsTo .rne Y (roundInt .rne false y) := by
  obtain ⟨f, r⟩ := y
  unfold Scaled.Describes at h
  cases r <;> simp only [roundInt, RoundsTo] at *
  · left; rw [h]; simp
  · left; rw [abs_lt]; push_cast; constructor <;> linarith
  · right
    split
    · rename_i he
      refine ⟨?_, ?_⟩
      · rw [h]; push_cast; rw [abs_of_nonneg] <;> linarith
      · exact_mod_cast Nat.even_iff.mpr he
    · rename_i he
      refine ⟨?_, ?_⟩
      · rw [h]; push_cast; rw [abs_of_nonpos] <;> linarith
      · have : Even (f + 1) := by rw [Nat.even_iff]; omega
        exact_mod_cast this
  · left; rw [abs_lt]; push_cast; constructor <;> linarith

/-- A mode's rounding of a described real is R206's, for the magnitude and for its negation. -/
theorem roundInt_spec (m : RoundMode) (neg : Bool) (y : Scaled) (Y : ℝ) (h0 : 0 ≤ Y) (h : y.Describes Y) :
    RoundsTo m (if neg then -Y else Y) (if neg then -(roundInt m neg y : ℤ) else roundInt m neg y) := by
  cases m with
  | rne =>
    have := roundInt_nearest y Y h
    cases neg
    · simpa using this
    · have h2 := roundsTo_nearest_neg _ _ this
      have : roundInt .rne true y = roundInt .rne false y := by unfold roundInt; cases y.rest <;> rfl
      simpa [this] using h2
  | rtz =>
    have : RoundsTo .rtz Y (roundInt .rtz false y) := by
      obtain ⟨f, r⟩ := y
      have hf : (0 : ℝ) ≤ f := by positivity
      unfold Scaled.Describes at h
      cases r <;> simp only [roundInt, RoundsTo] at * <;> push_cast <;>
        rw [abs_of_nonneg hf, abs_of_nonneg h0] <;> refine ⟨?_, ?_, by positivity⟩ <;> linarith
    cases neg
    · simpa using this
    · have h2 := roundsTo_zero_neg _ _ this
      have : roundInt .rtz true y = roundInt .rtz false y := by unfold roundInt; cases y.rest <;> rfl
      simpa [this] using h2
  | rdn =>
    obtain ⟨f, r⟩ := y
    unfold Scaled.Describes at h
    cases neg <;> cases r <;> simp [roundInt, RoundsTo] at * <;> (try constructor) <;> linarith
  | rup =>
    obtain ⟨f, r⟩ := y
    unfold Scaled.Describes at h
    cases neg <;> cases r <;> simp [roundInt, RoundsTo] at * <;> (try constructor) <;> linarith

/-- A real has one rounding under a mode. -/
theorem roundsTo_unique (m : RoundMode) (y : ℝ) (n k : ℤ) (hn : RoundsTo m y n) (hk : RoundsTo m y k) : n = k := by
  cases m with
  | rne =>
    simp only [RoundsTo] at hn hk
    have hd : |(n : ℝ) - k| ≤ 1 := by
      have a1 : |y - n| ≤ 1 / 2 := by rcases hn with h | h; exacts [h.le, h.1.le]
      have a2 : |y - k| ≤ 1 / 2 := by rcases hk with h | h; exacts [h.le, h.1.le]
      rw [abs_le] at *; constructor <;> linarith [a1.1, a1.2, a2.1, a2.2]
    have hd' : |n - k| ≤ 1 := by exact_mod_cast hd
    by_contra hne
    have hstrict : ¬ (|(n : ℝ) - k| < 1) := by
      intro hh
      have : |n - k| < 1 := by exact_mod_cast hh
      rw [abs_lt] at this; omega
    rcases hn with h1 | ⟨h1, e1⟩ <;> rcases hk with h2 | ⟨h2, e2⟩
    · apply hstrict; rw [abs_lt] at *; constructor <;> linarith [h1.1, h1.2, h2.1, h2.2]
    · apply hstrict
      have h2' := abs_le.mp h2.le
      rw [abs_lt] at *; constructor <;> linarith [h1.1, h1.2, h2'.1, h2'.2]
    · apply hstrict
      have h1' := abs_le.mp h1.le
      rw [abs_lt] at *; constructor <;> linarith [h2.1, h2.2, h1'.1, h1'.2]
    · obtain ⟨a, ha⟩ := e1
      obtain ⟨b, hb⟩ := e2
      rw [abs_le] at hd'; omega
  | rtz =>
    simp only [RoundsTo] at hn hk
    obtain ⟨a1, a2, a3⟩ := hn
    obtain ⟨b1, b2, b3⟩ := hk
    have hab : |n| = |k| := by
      have h1 : |(n : ℝ)| < |(k : ℝ)| + 1 := by linarith
      have h2 : |(k : ℝ)| < |(n : ℝ)| + 1 := by linarith
      have h1' : |n| < |k| + 1 := by exact_mod_cast h1
      have h2' : |k| < |n| + 1 := by exact_mod_cast h2
      omega
    rcases abs_eq_abs.mp hab with h | h
    · exact h
    · by_cases hk0 : k = 0
      · subst hk0; simpa using h
      · exfalso
        subst h
        push_cast at a3
        have hz : (k : ℝ) * y = 0 := by linarith
        rcases mul_eq_zero.mp hz with hh | hh
        · exact hk0 (by exact_mod_cast hh)
        · subst hh
          simp at b1
          exact hk0 b1
  | rdn =>
    simp only [RoundsTo] at hn hk
    have h1 : (n : ℝ) < k + 1 := by linarith [hn.1, hk.2]
    have h2 : (k : ℝ) < n + 1 := by linarith [hn.2, hk.1]
    have h1' : n < k + 1 := by exact_mod_cast h1
    have h2' : k < n + 1 := by exact_mod_cast h2
    omega
  | rup =>
    simp only [RoundsTo] at hn hk
    have h1 : (n : ℝ) < k + 1 := by linarith [hn.1, hk.2]
    have h2 : (k : ℝ) < n + 1 := by linarith [hn.2, hk.1]
    have h1' : n < k + 1 := by exact_mod_cast h1
    have h2' : k < n + 1 := by exact_mod_cast h2
    omega

theorem Scaled.Describes.bounds {s : Scaled} {Y : ℝ} (h : s.Describes Y) : (s.floor : ℝ) ≤ Y ∧ Y < s.floor + 1 := by
  obtain ⟨f, r⟩ := s
  unfold Scaled.Describes at h
  cases r <;> simp only at h ⊢ <;> constructor <;> linarith

theorem Scaled.Describes.exact_iff {s : Scaled} {Y : ℝ} (h : s.Describes Y) : s.rest = .exact ↔ ∃ n : ℕ, Y = n := by
  constructor
  · intro hr
    obtain ⟨f, r⟩ := s
    subst hr
    exact ⟨f, h⟩
  · rintro ⟨n, hn⟩
    obtain ⟨b1, b2⟩ := h.bounds
    rw [hn] at b1 b2
    have b1' : s.floor ≤ n := by exact_mod_cast b1
    have b2' : n < s.floor + 1 := by exact_mod_cast b2
    have : n = s.floor := by omega
    subst this
    obtain ⟨f, r⟩ := s
    unfold Scaled.Describes at h
    cases r
    · rfl
    all_goals simp only at h hn
    · linarith [h.1]
    · linarith
    · linarith [h.1]

theorem roundInt_bounds (m : RoundMode) (neg : Bool) (y : Scaled) :
    y.floor ≤ roundInt m neg y ∧ roundInt m neg y ≤ y.floor + 1 := by
  unfold roundInt
  cases y.rest <;> cases m <;> cases neg <;> simp <;> split <;> omega

theorem roundInt_exact (m : RoundMode) (neg : Bool) (y : Scaled) (h : y.rest = .exact) : roundInt m neg y = y.floor := by
  unfold roundInt; rw [h]

/-- The patterns of width `w` hold format F: sign, exponent field, fraction. -/
structure Format.Fits (F : Format) (w : ℕ) : Prop where
  precision : 2 ≤ F.precision
  emax : 1 ≤ F.emax
  width : 1 ≤ w
  size : 2 ^ (w - 1) = (maxField F + 1) * 2 ^ fractionBits F

theorem single_fits : single.Fits 32 := ⟨by decide, by decide, by decide, by decide⟩
theorem double_fits : double.Fits 64 := ⟨by decide, by decide, by decide, by decide⟩

section
variable {F : Format} {w : ℕ}

theorem signedPattern_toNat (hF : F.Fits w) (neg : Bool) (mag : ℕ) (h : mag < 2 ^ (w - 1)) :
    (signedPattern neg mag : BitVec w).toNat = (if neg then 2 ^ (w - 1) else 0) + mag := by
  unfold signedPattern
  rw [BitVec.toNat_ofNat]
  apply Nat.mod_eq_of_lt
  have : 2 ^ w = 2 ^ (w - 1) + 2 ^ (w - 1) := by
    rw [← two_mul, ← pow_succ']; congr 1; have := hF.width; omega
  cases neg <;> simp <;> omega

theorem signedPattern_msb (hF : F.Fits w) (neg : Bool) (mag : ℕ) (h : mag < 2 ^ (w - 1)) :
    (signedPattern neg mag : BitVec w).msb = neg := by
  rw [BitVec.msb_eq_decide, signedPattern_toNat hF neg mag h]
  cases neg
  · simpa using h
  · simp

theorem exponentField_signedPattern (hF : F.Fits w) (neg : Bool) (mag : ℕ) (h : mag < 2 ^ (w - 1)) :
    exponentField F (signedPattern neg mag : BitVec w) = mag / 2 ^ fractionBits F := by
  unfold exponentField
  rw [signedPattern_toNat hF neg mag h]
  have hp : 0 < 2 ^ fractionBits F := by positivity
  have hlt : mag / 2 ^ fractionBits F < maxField F + 1 := by
    rw [Nat.div_lt_iff_lt_mul hp, ← hF.size]; exact h
  cases neg
  · simp [Nat.mod_eq_of_lt hlt]
  · simp only [if_true, hF.size]
    rw [show (maxField F + 1) * 2 ^ fractionBits F + mag = mag + 2 ^ fractionBits F * (maxField F + 1) by ring,
      Nat.add_mul_div_left _ _ hp, Nat.add_mod_right, Nat.mod_eq_of_lt hlt]

theorem fractionField_signedPattern (hF : F.Fits w) (neg : Bool) (mag : ℕ) (h : mag < 2 ^ (w - 1)) :
    fractionField F (signedPattern neg mag : BitVec w) = mag % 2 ^ fractionBits F := by
  unfold fractionField
  rw [signedPattern_toNat hF neg mag h]
  cases neg
  · simp
  · simp only [if_true, hF.size]
    rw [show (maxField F + 1) * 2 ^ fractionBits F + mag = mag + 2 ^ fractionBits F * (maxField F + 1) by ring,
      Nat.add_mul_mod_self_left]

/-- The pattern of `n * 2^(e - t)` decodes to it, for a normal significand or the least exponent. -/
theorem datum_magnitudeBits (hF : F.Fits w) (neg : Bool) (n : ℕ) (e : ℤ) (he : emin F ≤ e) (he' : e ≤ F.emax)
    (hn : n < 2 ^ F.precision) (hn' : emin F < e → 2 ^ fractionBits F ≤ n) :
    datum F (signedPattern neg (magnitudeBits F n e) : BitVec w) = .fin neg n (e - fractionBits F) ∧
      (signedPattern neg (magnitudeBits F n e) : BitVec w).msb = neg := by
  have hp := hF.precision
  have hemin : emin F = 1 - (F.emax : ℤ) := rfl
  have hmf : maxField F = 2 * F.emax + 1 := rfl
  have hfb : fractionBits F + 1 = F.precision := by unfold fractionBits; omega
  have hpow : 2 ^ F.precision = 2 * 2 ^ fractionBits F := by rw [← hfb, pow_succ]; ring
  have hP : 0 < 2 ^ fractionBits F := by positivity
  obtain ⟨k, hk⟩ : ∃ k : ℕ, (k : ℤ) = e - emin F := ⟨(e - emin F).toNat, by omega⟩
  have hmag : magnitudeBits F n e = k * 2 ^ fractionBits F + n := by
    unfold magnitudeBits; rw [← hk]; simp
  have hk2 : k + 1 ≤ 2 * F.emax := by omega
  have hlt : magnitudeBits F n e < 2 ^ (w - 1) := by
    rw [hmag, hF.size, hmf]
    nlinarith
  have hmsb := signedPattern_msb hF neg _ hlt
  refine ⟨?_, hmsb⟩
  unfold datum
  rw [exponentField_signedPattern hF neg _ hlt, fractionField_signedPattern hF neg _ hlt, hmsb, hmag]
  by_cases hsmall : n < 2 ^ fractionBits F
  · have he0 : e = emin F := by
      by_contra hne
      exact absurd (hn' (lt_of_le_of_ne he (Ne.symm hne))) (not_le.mpr hsmall)
    have hk0 : k = 0 := by omega
    subst hk0
    simp only [zero_mul, zero_add, Nat.div_eq_of_lt hsmall, Nat.mod_eq_of_lt hsmall]
    rw [if_neg (by rw [hmf]; omega), if_pos trivial, he0]
  · obtain ⟨t, rfl⟩ : ∃ t, n = 2 ^ fractionBits F + t := ⟨n - 2 ^ fractionBits F, by omega⟩
    have ht : t < 2 ^ fractionBits F := by omega
    have hmul : k * 2 ^ fractionBits F + (2 ^ fractionBits F + t) = t + 2 ^ fractionBits F * (k + 1) := by ring
    rw [hmul, Nat.add_mul_div_left _ _ hP, Nat.add_mul_mod_self_left, Nat.div_eq_of_lt ht, Nat.mod_eq_of_lt ht]
    simp only [zero_add]
    rw [if_neg (by rw [hmf]; omega), if_neg (by omega)]
    congr 1
    push_cast
    omega

end

section
variable {F : Format} {w : ℕ}

theorem emin_le_emax (hF : F.Fits w) : emin F ≤ F.emax := by
  have := hF.emax
  unfold emin; omega

theorem zpow_precision (hP : 2 ≤ F.precision) (k : ℤ) :
    (2 : ℝ) ^ F.precision * (2 : ℝ) ^ (k - fractionBits F) = (2 : ℝ) ^ (k + 1) := by
  have h2 : (2 : ℝ) ≠ 0 := by norm_num
  rw [← zpow_natCast, ← zpow_add₀ h2]
  congr 1
  unfold fractionBits
  omega

theorem zpow_fractionBits (k : ℤ) : (2 : ℝ) ^ fractionBits F * (2 : ℝ) ^ (k - fractionBits F) = (2 : ℝ) ^ k := by
  have h2 : (2 : ℝ) ≠ 0 := by norm_num
  rw [← zpow_natCast, ← zpow_add₀ h2]
  congr 1
  ring

/-- At or above its own binade a real rounds to at most `2^p` units. -/
theorem roundInt_le (hP : 2 ≤ F.precision) (m : RoundMode) (neg : Bool) (x : Exact) (X : ℝ) (hx : x.Denotes X) (k : ℤ)
    (hk : x.floorLog2 ≤ k) : roundInt m neg (x.scaled (k - fractionBits F)) ≤ 2 ^ F.precision := by
  obtain ⟨-, hi⟩ := x.floorLog2_spec hx
  have hb := (x.scaled_spec hx (k - fractionBits F)).bounds
  have hN := roundInt_bounds m neg (x.scaled (k - fractionBits F))
  have hq : (0 : ℝ) < (2 : ℝ) ^ (k - fractionBits F) := by positivity
  have h1 : X / (2 : ℝ) ^ (k - fractionBits F) < (2 : ℝ) ^ F.precision := by
    rw [div_lt_iff₀ hq, zpow_precision hP]
    exact hi.trans_le (zpow_le_zpow_right₀ (by norm_num) (by omega))
  have h2 : ((x.scaled (k - fractionBits F)).floor : ℝ) < ((2 ^ F.precision : ℕ) : ℝ) := by push_cast; linarith
  have h3 : (x.scaled (k - fractionBits F)).floor < 2 ^ F.precision := by exact_mod_cast h2
  omega

/-- In its own binade a real rounds to at least `2^(p-1)` units. -/
theorem le_roundInt (m : RoundMode) (neg : Bool) (x : Exact) (X : ℝ) (hx : x.Denotes X) (k : ℤ)
    (hk : k = x.floorLog2) : 2 ^ fractionBits F ≤ roundInt m neg (x.scaled (k - fractionBits F)) := by
  obtain ⟨lo, -⟩ := x.floorLog2_spec hx
  have hb := (x.scaled_spec hx (k - fractionBits F)).bounds
  have hN := roundInt_bounds m neg (x.scaled (k - fractionBits F))
  have hq : (0 : ℝ) < (2 : ℝ) ^ (k - fractionBits F) := by positivity
  have h1 : (2 : ℝ) ^ fractionBits F ≤ X / (2 : ℝ) ^ (k - fractionBits F) := by
    rw [le_div_iff₀ hq, zpow_fractionBits, hk]
    exact lo
  have h3 : ((2 ^ fractionBits F : ℕ) : ℝ) < (((x.scaled (k - fractionBits F)).floor + 1 : ℕ) : ℝ) := by
    push_cast; linarith
  have h4 : 2 ^ fractionBits F < (x.scaled (k - fractionBits F)).floor + 1 := by exact_mod_cast h3
  omega

theorem signed_div (neg : Bool) (X q : ℝ) : (if neg then -X else X) / q = if neg then -(X / q) else X / q := by
  cases neg <;> simp [neg_div]

theorem abs_signed_mul (neg : Bool) (N : ℕ) (q : ℝ) (hq : 0 < q) :
    |(((if neg then -(N : ℤ) else N : ℤ)) : ℝ) * q| = N * q := by
  cases neg <;> simp [abs_mul, abs_of_pos hq]

/-- A rounding to units of `2^k` is exact when nothing stands after the integer part. -/
theorem roundInt_mul_eq (m : RoundMode) (neg : Bool) (x : Exact) (X : ℝ) (hx : x.Denotes X) (k : ℤ) :
    (x.scaled k).rest = .exact ↔ (roundInt m neg (x.scaled k) : ℝ) * (2 : ℝ) ^ k = X := by
  have hd := x.scaled_spec hx k
  have hq : (2 : ℝ) ^ k ≠ 0 := by positivity
  constructor
  · intro hr
    have hf : X / (2 : ℝ) ^ k = (x.scaled k).floor := by
      unfold Scaled.Describes at hd
      rw [hr] at hd
      exact hd
    rw [roundInt_exact m neg _ hr, ← hf]
    field_simp
  · intro h
    exact hd.exact_iff.mpr ⟨roundInt m neg (x.scaled k), by rw [← h]; field_simp⟩

/-- `tiny` is R208's condition. -/
theorem tiny_spec (hP : 2 ≤ F.precision) (m : RoundMode) (neg : Bool) (x : Exact) (X : ℝ) (hx : x.Denotes X) :
    tiny F m neg x = true ↔
      ∃ k : ℤ, RoundsTo m ((if neg then -X else X) / (2 : ℝ) ^ (x.floorLog2 - fractionBits F)) k ∧
        |k * (2 : ℝ) ^ (x.floorLog2 - fractionBits F)| < (2 : ℝ) ^ emin F := by
  have hX := hx.pos
  have hq : (0 : ℝ) < (2 : ℝ) ^ (x.floorLog2 - fractionBits F) := by positivity
  have hd := x.scaled_spec hx (x.floorLog2 - fractionBits F)
  have hR := roundInt_spec m neg _ (X / (2 : ℝ) ^ (x.floorLog2 - fractionBits F)) (by positivity) hd
  have hKup := roundInt_le hP m neg x X hx x.floorLog2 le_rfl
  have hKlo := le_roundInt (F := F) m neg x X hx x.floorLog2 rfl
  have hKabs := abs_signed_mul neg (roundInt m neg (x.scaled (x.floorLog2 - fractionBits F))) _ hq
  have htop := zpow_precision hP x.floorLog2
  have hbot := zpow_fractionBits (F := F) x.floorLog2
  unfold tiny
  dsimp only
  rw [signed_div]
  generalize roundInt m neg (x.scaled (x.floorLog2 - fractionBits F)) = K at *
  generalize x.floorLog2 = e at *
  simp only [Bool.and_eq_true, decide_eq_true_eq, Bool.not_eq_true', Bool.and_eq_false_iff, decide_eq_false_iff_not]
  have hKcast : (K : ℝ) ≤ (2 : ℝ) ^ F.precision := by exact_mod_cast hKup
  constructor
  · rintro ⟨hlt, hor⟩
    refine ⟨_, hR, ?_⟩
    rw [hKabs]
    by_cases hcase : e + 1 = emin F
    · have hne : K ≠ 2 ^ F.precision := by
        rcases hor with h | h
        · exact absurd hcase h
        · exact h
      have : K < 2 ^ F.precision := lt_of_le_of_ne hKup hne
      have : (K : ℝ) < (2 : ℝ) ^ F.precision := by exact_mod_cast this
      rw [← hcase, ← htop]
      gcongr
    · calc (K : ℝ) * (2 : ℝ) ^ (e - fractionBits F) ≤ (2 : ℝ) ^ (e + 1) := by rw [← htop]; gcongr
        _ < (2 : ℝ) ^ emin F := zpow_lt_zpow_right₀ (by norm_num) (by omega)
  · rintro ⟨k, hk, hkl⟩
    rw [roundsTo_unique m _ _ _ hk hR, hKabs] at hkl
    constructor
    · by_contra hge
      have : (2 : ℝ) ^ emin F ≤ K * (2 : ℝ) ^ (e - fractionBits F) := by
        calc (2 : ℝ) ^ emin F ≤ (2 : ℝ) ^ e := zpow_le_zpow_right₀ (by norm_num) (by omega)
          _ = (2 : ℝ) ^ fractionBits F * (2 : ℝ) ^ (e - fractionBits F) := hbot.symm
          _ ≤ _ := by gcongr; exact_mod_cast hKlo
      linarith
    · by_contra hc
      push Not at hc
      obtain ⟨hc1, hc2⟩ := hc
      rw [hc2] at hkl
      push_cast at hkl
      rw [htop, hc1] at hkl
      exact lt_irrefl _ hkl

theorem value_fin (neg : Bool) (n : ℕ) (k : ℤ) :
    (((Datum.fin neg n k).value : ℚ) : ℝ) = if neg then -((n : ℝ) * (2 : ℝ) ^ k) else (n : ℝ) * (2 : ℝ) ^ k := by
  unfold Datum.value
  push_cast
  cases neg <;> simp

theorem overflowResult_msb (hF : F.Fits w) (m : RoundMode) (neg : Bool) :
    (overflowResult F m neg : FpResult w).value.msb = neg := by
  have h0 : 0 < 2 ^ fractionBits F := by positivity
  have h1 : maxField F * 2 ^ fractionBits F < 2 ^ (w - 1) := by rw [hF.size]; nlinarith
  unfold overflowResult infPattern maxPattern
  dsimp only
  have h3 := signedPattern_msb hF neg _ h1
  have h4 := signedPattern_msb hF neg _ (lt_of_le_of_lt (Nat.sub_le _ 1) h1)
  cases m <;> cases neg <;> simp [h3, h4]

theorem overflowResult_spec (m : RoundMode) (neg : Bool) :
    (OverflowsToInf m neg → (overflowResult F m neg : FpResult w).value = infPattern F neg) ∧
      (¬ OverflowsToInf m neg → (overflowResult F m neg : FpResult w).value = maxPattern F neg) := by
  unfold OverflowsToInf overflowResult
  cases m <;> cases neg <;> simp

/-- Where the rounded integer `N` stands: past the largest binade, or a significand of the format's patterns. -/
theorem rounded_range (hF : F.Fits w) (N : ℕ) (e1 : ℤ) (h1 : emin F ≤ e1) (hup : N ≤ 2 ^ F.precision)
    (hlo : emin F < e1 → 2 ^ fractionBits F ≤ N) :
    let n2 := if N = 2 ^ F.precision then 2 ^ (F.precision - 1) else N
    let e2 := if N = 2 ^ F.precision then e1 + 1 else e1
    ((F.emax : ℤ) < e2 → (2 : ℝ) ^ ((F.emax : ℤ) + 1) ≤ N * (2 : ℝ) ^ (e1 - fractionBits F)) ∧
      (e2 ≤ (F.emax : ℤ) → N * (2 : ℝ) ^ (e1 - fractionBits F) < (2 : ℝ) ^ ((F.emax : ℤ) + 1) ∧
        (n2 : ℝ) * (2 : ℝ) ^ (e2 - fractionBits F) = N * (2 : ℝ) ^ (e1 - fractionBits F) ∧
        emin F ≤ e2 ∧ n2 < 2 ^ F.precision ∧ (emin F < e2 → 2 ^ fractionBits F ≤ n2)) := by
  have h2 : (2 : ℝ) ≠ 0 := by norm_num
  have hP := hF.precision
  have hem := emin_le_emax hF
  have htop := zpow_precision hP e1
  have hbot := zpow_fractionBits (F := F) e1
  have hq : (0 : ℝ) < (2 : ℝ) ^ (e1 - fractionBits F) := by positivity
  dsimp only
  by_cases hc : N = 2 ^ F.precision
  · rw [if_pos hc, if_pos hc, hc]
    push_cast
    rw [htop]
    refine ⟨fun h => zpow_le_zpow_right₀ (by norm_num) (by omega), fun h => ⟨zpow_lt_zpow_right₀ (by norm_num) (by omega), ?_, by omega, ?_, ?_⟩⟩
    · rw [← zpow_natCast, ← zpow_add₀ h2]; congr 1; unfold fractionBits; omega
    · exact Nat.pow_lt_pow_right (by norm_num) (by omega)
    · intro _; exact Nat.pow_le_pow_right (by norm_num) le_rfl
  · rw [if_neg hc, if_neg hc]
    have hlt : N < 2 ^ F.precision := lt_of_le_of_ne hup hc
    refine ⟨fun h => ?_, fun h => ⟨?_, rfl, h1, hlt, hlo⟩⟩
    · calc (2 : ℝ) ^ ((F.emax : ℤ) + 1) ≤ (2 : ℝ) ^ e1 := zpow_le_zpow_right₀ (by norm_num) (by omega)
        _ = (2 : ℝ) ^ fractionBits F * (2 : ℝ) ^ (e1 - fractionBits F) := hbot.symm
        _ ≤ _ := by gcongr; exact_mod_cast hlo (by omega)
    · calc (N : ℝ) * (2 : ℝ) ^ (e1 - fractionBits F) < (2 : ℝ) ^ F.precision * (2 : ℝ) ^ (e1 - fractionBits F) := by
            gcongr; exact_mod_cast hlt
        _ = (2 : ℝ) ^ (e1 + 1) := htop
        _ ≤ _ := zpow_le_zpow_right₀ (by norm_num) (by omega)

/-- `roundTo` is R206's rounding of the exact real, with R207's overflow and R208's underflow. -/
theorem roundTo_spec (hF : F.Fits w) (m : RoundMode) (neg : Bool) (x : Exact) (X : ℝ) (hx : x.Denotes X) :
    RoundedResult F m (if neg then -X else X) (roundTo F m neg x : FpResult w).value
      (roundTo F m neg x : FpResult w).flags := by
  have hX := hx.pos
  have hP := hF.precision
  obtain ⟨lo, hi⟩ := x.floorLog2_spec hx
  have habs : |if neg then -X else X| = X := by cases neg <;> simp [abs_of_pos hX]
  have hsign : decide ((if neg then -X else X) < 0) = neg := by
    cases neg <;> simp [hX, hX.le]
  have htiny := tiny_spec hP m neg x X hx
  obtain ⟨e1, he1⟩ : ∃ e1, e1 = max x.floorLog2 (emin F) := ⟨_, rfl⟩
  have hq : (0 : ℝ) < (2 : ℝ) ^ (e1 - fractionBits F) := by positivity
  have hR := roundInt_spec m neg _ (X / (2 : ℝ) ^ (e1 - fractionBits F)) (by positivity)
    (x.scaled_spec hx (e1 - fractionBits F))
  have hup := roundInt_le hP m neg x X hx e1 (by omega)
  have hlow : emin F < e1 → 2 ^ fractionBits F ≤ roundInt m neg (x.scaled (e1 - fractionBits F)) :=
    fun h => le_roundInt m neg x X hx e1 (by omega)
  have hexact := roundInt_mul_eq m neg x X hx (e1 - fractionBits F)
  obtain ⟨hover, hfin⟩ := rounded_range hF _ e1 (by omega) hup hlow
  refine ⟨x.floorLog2, if neg then -(roundInt m neg (x.scaled (e1 - fractionBits F)) : ℤ) else
    roundInt m neg (x.scaled (e1 - fractionBits F)), by rw [habs]; exact lo, by rw [habs]; exact hi, ?_, ?_⟩
  · rw [← he1, signed_div]; exact hR
  unfold roundTo
  simp only [decide_eq_true_eq, ← he1, hsign]
  rw [abs_signed_mul neg _ _ hq]
  generalize roundInt m neg (x.scaled (e1 - fractionBits F)) = N at *
  generalize (x.scaled (e1 - fractionBits F)).rest = r at *
  by_cases hov : (F.emax : ℤ) < (if N = 2 ^ F.precision then e1 + 1 else e1)
  · left
    rw [if_pos hov]
    exact ⟨hover hov, rfl, overflowResult_msb hF m neg, (overflowResult_spec m neg).1, (overflowResult_spec m neg).2⟩
  · right
    rw [if_neg hov]
    dsimp only
    obtain ⟨hub, hvq, hb1, hb3, hb4⟩ := hfin (not_lt.mp hov)
    obtain ⟨hdat, hmsb⟩ := datum_magnitudeBits hF neg _ _ hb1 (not_lt.mp hov) hb3 hb4
    rw [hmsb, hdat]
    have hvalue : (((Datum.fin neg (if N = 2 ^ F.precision then 2 ^ (F.precision - 1) else N)
        ((if N = 2 ^ F.precision then e1 + 1 else e1) - fractionBits F)).value : ℚ) : ℝ) =
        (((if neg then -(N : ℤ) else N : ℤ)) : ℝ) * (2 : ℝ) ^ (e1 - fractionBits F) := by
      rw [value_fin, hvq]
      cases neg <;> simp
    refine ⟨hub, rfl, rfl, hvalue, !decide (r = .exact), !decide (r = .exact) && tiny F m neg x, ?_, ?_, ?_⟩
    · by_cases hr : r = .exact <;> simp [hr, flagIf]
    · rw [hvalue]
      simp only [Bool.not_eq_true', decide_eq_false_iff_not, ne_eq]
      rw [hexact]
      apply not_congr
      cases neg <;> simp [neg_mul, neg_inj]
    · rw [Bool.and_eq_true, htiny]

end

end Sys2Proof.Machine
end

