-- ==== Sys2Proof/Laws/Arithmetic.lean ====
section
/-! SUPPORT. Arithmetic: one lemma for each finite operation of Machine/Numerics.lean over `roundTo_spec`, the comparison of
data, and what the special patterns decode to. -/

namespace Sys2Proof.Machine

section
variable {F : Format} {w : ℕ}

theorem dyadic_denotes (sig : ℕ) (exp : ℤ) (h : 0 < sig) : (dyadic sig exp).Denotes ((sig : ℝ) * (2 : ℝ) ^ exp) := by
  refine ⟨by positivity, by positivity, ?_⟩
  push_cast
  rw [zpow_toNat_split exp]
  ring

/-- An integer aligned to a smaller exponent stands for the value. -/
theorem alignedInt_value (neg : Bool) (sig : ℕ) (exp e : ℤ) (h : e ≤ exp) :
    (alignedInt neg sig exp e : ℝ) * (2 : ℝ) ^ e = ((Datum.fin neg sig exp).value : ℚ) := by
  have h2 : (2 : ℝ) ≠ 0 := by norm_num
  have hs : (2 : ℝ) ^ (exp - e).toNat * (2 : ℝ) ^ e = (2 : ℝ) ^ exp := by
    rw [← zpow_natCast, ← zpow_add₀ h2]; congr 1; omega
  rw [value_fin]
  unfold alignedInt
  cases neg
  · simp only [Bool.false_eq_true, if_false]
    push_cast
    rw [mul_assoc, hs]
  · simp only [if_true]
    push_cast
    rw [neg_mul, mul_assoc, hs]

/-- A finite value rounded: an exact zero keeps its sign, any other value is R206's rounding. -/
theorem roundFinite_spec (hF : F.Fits w) (m : RoundMode) (neg : Bool) (sig : ℕ) (exp : ℤ) :
    (sig = 0 → (roundFinite F m neg sig exp : FpResult w) = exactResult (zeroPattern neg)) ∧
      (sig ≠ 0 → RoundedResult F m ((Datum.fin neg sig exp).value : ℚ) (roundFinite F m neg sig exp : FpResult w).value
        (roundFinite F m neg sig exp : FpResult w).flags) := by
  unfold roundFinite
  constructor
  · intro h; rw [if_pos h]
  · intro h
    rw [if_neg h, value_fin]
    exact roundTo_spec hF m neg _ _ (dyadic_denotes sig exp (Nat.pos_of_ne_zero h))

/-- The sum of two finite values: R206's rounding of a non-zero sum, R216's sign of a zero one. -/
theorem addFinite_spec (hF : F.Fits w) (m : RoundMode) (neg1 : Bool) (sig1 : ℕ) (exp1 : ℤ) (neg2 : Bool) (sig2 : ℕ)
    (exp2 : ℤ) :
    let z := (Datum.fin neg1 sig1 exp1).value + (Datum.fin neg2 sig2 exp2).value
    let r : FpResult w := addFinite F m neg1 sig1 exp1 neg2 sig2 exp2
    (z = 0 → r = exactResult (zeroPattern (if neg1 = neg2 then neg1 else decide (m = .rdn)))) ∧
      (z ≠ 0 → RoundedResult F m (z : ℚ) r.value r.flags) := by
  dsimp only
  have h1 := alignedInt_value neg1 sig1 exp1 (min exp1 exp2) (min_le_left _ _)
  have h2 := alignedInt_value neg2 sig2 exp2 (min exp1 exp2) (min_le_right _ _)
  unfold addFinite
  dsimp only
  generalize alignedInt neg1 sig1 exp1 (min exp1 exp2) = a at *
  generalize alignedInt neg2 sig2 exp2 (min exp1 exp2) = b at *
  generalize min exp1 exp2 = e at *
  generalize (Datum.fin neg1 sig1 exp1).value = x at *
  generalize (Datum.fin neg2 sig2 exp2).value = y at *
  have hp : (0 : ℝ) < (2 : ℝ) ^ e := by positivity
  have hz : (((a + b : ℤ) : ℝ)) * (2 : ℝ) ^ e = ((x + y : ℚ) : ℝ) := by
    push_cast; rw [← h1, ← h2]; ring
  have hzero : a + b = 0 ↔ x + y = 0 := by
    constructor
    · intro h
      rw [h] at hz
      simp only [Int.cast_zero, zero_mul] at hz
      exact_mod_cast hz.symm
    · intro h
      rw [h] at hz
      simp only [Rat.cast_zero, mul_eq_zero] at hz
      rcases hz with h | h
      · exact_mod_cast h
      · exact absurd h hp.ne'
  constructor
  · intro h; rw [if_pos (hzero.mpr h)]
  · intro h
    have hne : a + b ≠ 0 := fun hh => h (hzero.mp hh)
    rw [if_neg hne]
    have hpos : 0 < (a + b).natAbs := Int.natAbs_pos.mpr hne
    have hs := roundTo_spec hF m (decide (a + b < 0)) _ _ (dyadic_denotes (a + b).natAbs e hpos)
    have hval : (if decide (a + b < 0) = true then -(((a + b).natAbs : ℝ) * (2 : ℝ) ^ e) else ((a + b).natAbs : ℝ) * (2 : ℝ) ^ e)
        = ((x + y : ℚ) : ℝ) := by
      rw [← hz]
      have hc : (((a + b).natAbs : ℕ) : ℝ) = ((|a + b| : ℤ) : ℝ) := by
        rw [← Int.natCast_natAbs, Int.cast_natCast]
      rw [hc]
      by_cases hneg : a + b < 0
      · simp only [hneg, decide_true, if_true]
        rw [abs_of_neg hneg]; push_cast; ring
      · simp only [hneg, decide_false]
        rw [abs_of_nonneg (not_lt.mp hneg)]
        simp
    rw [hval] at hs
    exact hs

/-- The value of an exact product. -/
theorem value_mul (s s' : Bool) (n n' : ℕ) (e e' : ℤ) :
    (Datum.fin (s ^^ s') (n * n') (e + e')).value = (Datum.fin s n e).value * (Datum.fin s' n' e').value := by
  simp only [Datum.value]
  rw [zpow_add₀ (by norm_num : (2 : ℚ) ≠ 0)]
  push_cast
  cases s <;> cases s' <;> simp <;> ring

theorem value_eq_zero (s : Bool) (n : ℕ) (e : ℤ) : (Datum.fin s n e).value = 0 ↔ n = 0 := by
  unfold Datum.value
  have : (2 : ℚ) ^ e ≠ 0 := by positivity
  cases s <;> simp [this]

theorem quotientExact_denotes (n : ℕ) (e : ℤ) (n' : ℕ) (e' : ℤ) (h : 0 < n) (h' : 0 < n') :
    (quotientExact n e n' e').Denotes (((n : ℝ) * (2 : ℝ) ^ e) / ((n' : ℝ) * (2 : ℝ) ^ e')) := by
  have h2 : (2 : ℝ) ≠ 0 := by norm_num
  refine ⟨by positivity, by positivity, ?_⟩
  push_cast
  have hn' : (n' : ℝ) ≠ 0 := by positivity
  have he' : (2 : ℝ) ^ e' ≠ 0 := by positivity
  have hs := zpow_toNat_split (e - e')
  rw [show -(e - e') = e' - e by ring] at hs
  rw [hs, zpow_sub₀ h2]
  field_simp

/-- The finite quotient is R206's rounding of the quotient of the values. -/
theorem quotient_spec (hF : F.Fits w) (m : RoundMode) (s : Bool) (n : ℕ) (e : ℤ) (s' : Bool) (n' : ℕ) (e' : ℤ) (h : n ≠ 0)
    (h' : n' ≠ 0) :
    RoundedResult F m (((Datum.fin s n e).value / (Datum.fin s' n' e').value : ℚ) : ℝ)
      (roundTo F m (s ^^ s') (quotientExact n e n' e') : FpResult w).value
      (roundTo F m (s ^^ s') (quotientExact n e n' e') : FpResult w).flags := by
  have hs := roundTo_spec hF m (s ^^ s') _ _
    (quotientExact_denotes n e n' e' (Nat.pos_of_ne_zero h) (Nat.pos_of_ne_zero h'))
  have hval : (((Datum.fin s n e).value / (Datum.fin s' n' e').value : ℚ) : ℝ) =
      if (s ^^ s') then -(((n : ℝ) * (2 : ℝ) ^ e) / ((n' : ℝ) * (2 : ℝ) ^ e'))
      else ((n : ℝ) * (2 : ℝ) ^ e) / ((n' : ℝ) * (2 : ℝ) ^ e') := by
    rw [Rat.cast_div, value_fin, value_fin]
    cases s <;> cases s' <;> simp [neg_div, div_neg]
  rw [hval]
  exact hs

theorem rootExact_denotes (n : ℕ) (e : ℤ) (h : 0 < n) : (rootExact n e).Denotes (Real.sqrt ((n : ℝ) * (2 : ℝ) ^ e)) := by
  refine ⟨by positivity, by positivity, Real.sqrt_nonneg _, ?_⟩
  rw [Real.mul_self_sqrt (by positivity)]
  push_cast
  rw [zpow_toNat_split e]
  ring

/-- The finite root is R206's rounding of the real square root. -/
theorem root_spec (hF : F.Fits w) (m : RoundMode) (n : ℕ) (e : ℤ) (h : n ≠ 0) :
    RoundedResult F m (Real.sqrt ((Datum.fin false n e).value : ℚ)) (roundTo F m false (rootExact n e) : FpResult w).value
      (roundTo F m false (rootExact n e) : FpResult w).flags := by
  have hs := roundTo_spec hF m false _ _ (rootExact_denotes n e (Nat.pos_of_ne_zero h))
  rw [value_fin]
  simpa using hs

/-- An integer converted: `+0` for zero, R206's rounding for any other. -/
theorem cvtFromInt_spec (hF : F.Fits w) (m : RoundMode) (n : ℤ) :
    (n = 0 → (cvtFromInt F m n : FpResult w) = exactResult (zeroPattern false)) ∧
      (n ≠ 0 → RoundedResult F m (n : ℝ) (cvtFromInt F m n : FpResult w).value (cvtFromInt F m n : FpResult w).flags) := by
  obtain ⟨h0, h1⟩ := roundFinite_spec hF m (decide (n < 0)) n.natAbs 0
  constructor
  · intro h
    subst h
    exact h0 rfl
  · intro h
    have hv : (((Datum.fin (decide (n < 0)) n.natAbs 0).value : ℚ) : ℝ) = n := by
      rw [value_fin]
      have hc : ((n.natAbs : ℕ) : ℝ) = ((|n| : ℤ) : ℝ) := by
        rw [← Int.natCast_natAbs, Int.cast_natCast]
      rw [hc]
      by_cases hneg : n < 0
      · simp [hneg, abs_of_neg hneg]
      · simp only [hneg, decide_false]
        rw [abs_of_nonneg (not_lt.mp hneg)]
        simp
    rw [← hv]
    exact h1 (Int.natAbs_ne_zero.mpr h)

/-- What the rounding of a finite value to an integer finds. -/
theorem cvtToInt_round (m : RoundMode) (neg : Bool) (sig : ℕ) (exp : ℤ) :
    let y := (dyadic sig exp).scaled 0
    let n : ℤ := if neg then -((roundInt m neg y : ℕ) : ℤ) else ((roundInt m neg y : ℕ) : ℤ)
    RoundsTo m ((Datum.fin neg sig exp).value : ℚ) n ∧
      (y.rest = .exact ↔ (n : ℝ) = ((Datum.fin neg sig exp).value : ℚ)) := by
  dsimp only
  have hd : ((dyadic sig exp).scaled 0).Describes ((sig : ℝ) * (2 : ℝ) ^ exp) := by
    apply scaledRatio_spec
    · positivity
    · push_cast
      rw [zpow_toNat_split exp]
      simp
      ring
  have hR := roundInt_spec m neg _ _ (by positivity) hd
  have he := hd.exact_iff
  have hb := hd.bounds
  have hx := roundInt_exact m neg ((dyadic sig exp).scaled 0)
  rw [value_fin]
  generalize (dyadic sig exp).scaled 0 = y at *
  generalize (sig : ℝ) * (2 : ℝ) ^ exp = Y at *
  refine ⟨hR, ?_⟩
  constructor
  · intro h
    obtain ⟨k, hk⟩ := he.mp h
    have h1 : y.floor = k := by
      have b1 := hb.1; have b2 := hb.2
      rw [hk] at b1 b2
      have b1' : y.floor ≤ k := by exact_mod_cast b1
      have b2' : k < y.floor + 1 := by exact_mod_cast b2
      omega
    rw [hx h, h1, hk]
    cases neg <;> simp
  · intro h
    refine he.mpr ⟨roundInt m neg y, ?_⟩
    cases neg
    · simpa using h.symm
    · have : -(roundInt m true y : ℝ) = -Y := by simpa using h
      linarith

theorem fin_compare (s : Bool) (n : ℕ) (e : ℤ) (s' : Bool) (n' : ℕ) (e' : ℤ) :
    ((Datum.fin s n e).lt (Datum.fin s' n' e') = true ↔ (Datum.fin s n e).value < (Datum.fin s' n' e').value) ∧
      ((Datum.fin s n e).eq (Datum.fin s' n' e') = true ↔ (Datum.fin s n e).value = (Datum.fin s' n' e').value) := by
  have h1 := alignedInt_value s n e (min e e') (min_le_left _ _)
  have h2 := alignedInt_value s' n' e' (min e e') (min_le_right _ _)
  have hp : (0 : ℝ) < (2 : ℝ) ^ min e e' := by positivity
  simp only [Datum.lt, Datum.eq, decide_eq_true_eq]
  constructor
  · rw [← Rat.cast_lt (K := ℝ), ← h1, ← h2, mul_lt_mul_iff_left₀ hp, Int.cast_lt]
  · rw [← Rat.cast_inj (α := ℝ), ← h1, ← h2, mul_left_inj' hp.ne', Int.cast_inj]

/-- The relations of two data that are not NaNs are those of the extended line (R221). -/
theorem datum_compare (x y : Datum) (hx : x.isNaN = false) (hy : y.isNaN = false) :
    (x.lt y = true ↔ x.extended < y.extended) ∧ (x.eq y = true ↔ x.extended = y.extended) := by
  cases x with
  | nan q => cases hx
  | inf s =>
    cases y with
    | nan q => cases hy
    | inf s' => cases s <;> cases s' <;> simp [Datum.lt, Datum.eq, Datum.extended]
    | fin s' n' e' => cases s <;> simp [Datum.lt, Datum.eq, Datum.extended]
  | fin s n e =>
    cases y with
    | nan q => cases hy
    | inf s' =>
      cases s' <;> simp [Datum.lt, Datum.eq, Datum.extended]
      exact WithBot.coe_lt_coe.mpr (WithTop.coe_lt_top _)
    | fin s' n' e' =>
      obtain ⟨h1, h2⟩ := fin_compare s n e s' n' e'
      rw [h1, h2]
      simp only [Datum.extended, WithBot.coe_lt_coe, WithTop.coe_lt_coe, WithBot.coe_inj, WithTop.coe_inj]
      simp

end

section
variable {F : Format} {w : ℕ}

/-- A pattern with the exponent field and the most-significant fraction bit set is a quiet NaN (R201, R202). -/
theorem datum_quiet (v : BitVec w) (k : ℕ) (hk : maxField F + 1 = 2 ^ k) (hf : 1 ≤ fractionBits F)
    (h : ∀ i, fractionBits F - 1 ≤ i → i < fractionBits F + k → v.getLsbD i = true) : datum F v = .nan true := by
  have he : exponentField F v = maxField F := by
    have h1 : v.toNat / 2 ^ fractionBits F % 2 ^ k = 2 ^ k - 1 := by
      apply Nat.eq_of_testBit_eq
      intro i
      rw [Nat.testBit_mod_two_pow, Nat.testBit_two_pow_sub_one, Nat.testBit_div_two_pow]
      by_cases hi : i < k
      · have := h (i + fractionBits F) (by omega) (by omega)
        rw [BitVec.getLsbD] at this
        simp [hi, this]
      · simp [hi]
    unfold exponentField
    rw [hk, h1]
    omega
  have ht : 2 ^ (fractionBits F - 1) ≤ fractionField F v := by
    unfold fractionField
    apply Nat.ge_two_pow_of_testBit
    rw [Nat.testBit_mod_two_pow]
    have := h (fractionBits F - 1) le_rfl (by
      have : 0 < k := by
        rcases Nat.eq_zero_or_pos k with h0 | h0
        · subst h0; simp [maxField] at hk
        · exact h0
      omega)
    rw [BitVec.getLsbD] at this
    simp [this]
    omega
  have hpos : 0 < 2 ^ (fractionBits F - 1) := by positivity
  unfold datum
  simp only [he, if_true]
  rw [if_neg (by omega)]
  simp [ht]

/-- Every computed single-precision NaN is quiet, whatever the pick (R211). -/
theorem nanResult_single (pick : BitVec 32) (p : Bool) :
    datum single (nanResult single pick p).value = .nan true := by
  apply datum_quiet _ 8 (by decide) (by decide)
  intro i h1 h2
  have hc : (canonicalNaN single : BitVec 32) = 0x7FC00000#32 := by decide
  have hb : ∀ j : Fin 32, 22 ≤ j.val → j.val < 31 → (0x7FC00000#32).getLsbD j.val = true := by decide
  have h1' : 22 ≤ i := h1
  have h2' : i < 31 := h2
  simp [nanResult, hc, hb ⟨i, by omega⟩ h1' h2']

/-- Every computed double-precision NaN is quiet, whatever the pick (R211). -/
theorem nanResult_double (pick : BitVec 64) (p : Bool) :
    datum double (nanResult double pick p).value = .nan true := by
  apply datum_quiet _ 11 (by decide) (by decide)
  intro i h1 h2
  have hc : (canonicalNaN double : BitVec 64) = 0x7FF8000000000000#64 := by decide
  have hb : ∀ j : Fin 64, 51 ≤ j.val → j.val < 63 → (0x7FF8000000000000#64).getLsbD j.val = true := by decide
  have h1' : 51 ≤ i := h1
  have h2' : i < 63 := h2
  simp [nanResult, hc, hb ⟨i, by omega⟩ h1' h2']

/-- The infinity patterns decode to infinities. -/
theorem datum_infPattern (hF : F.Fits w) (neg : Bool) : datum F (infPattern F neg : BitVec w) = .inf neg := by
  have h0 : 0 < 2 ^ fractionBits F := by positivity
  have h1 : maxField F * 2 ^ fractionBits F < 2 ^ (w - 1) := by rw [hF.size]; nlinarith
  unfold datum infPattern
  rw [exponentField_signedPattern hF neg _ h1, fractionField_signedPattern hF neg _ h1, signedPattern_msb hF neg _ h1]
  simp [Nat.mul_div_cancel _ h0]

/-- The zero patterns decode to zeros of their sign. -/
theorem datum_zeroPattern (hF : F.Fits w) (neg : Bool) :
    datum F (zeroPattern neg : BitVec w) = .fin neg 0 (emin F - fractionBits F) := by
  have h1 : 0 < 2 ^ (w - 1) := by positivity
  unfold datum zeroPattern
  rw [exponentField_signedPattern hF neg _ h1, fractionField_signedPattern hF neg _ h1, signedPattern_msb hF neg _ h1]
  have : maxField F ≠ 0 := by unfold maxField; omega
  simp [this.symm]

end

end Sys2Proof.Machine
end

