-- ==== Sys2Proof/Laws/Codec.lean ====
section
/-! SUPPORT. Codec: parity is linear over XOR, the fields of a register put together, and what a code word reads as. -/

namespace Sys2Proof.Machine

theorem xorOver_xor (ps : List Nat) (f g : Nat → Bool) :
    xorOver ps (fun i => f i ^^ g i) = (xorOver ps f ^^ xorOver ps g) := by
  induction ps with
  | nil => rfl
  | cons p ps ih =>
    simp only [xorOver, List.foldr_cons] at ih ⊢
    rw [ih]
    cases f p <;> cases g p <;> simp

theorem parity_xor {w : Nat} (x y : BitVec w) : parity (x ^^^ y) = (parity x ^^ parity y) := by
  unfold parity
  rw [← xorOver_xor]
  congr 1
  funext i
  simp

theorem hammingBit_xor (k : Nat) (x y : BitVec 32) : hammingBit k (x ^^^ y) = (hammingBit k x ^^ hammingBit k y) := by
  unfold hammingBit
  rw [← xorOver_xor]
  congr 1
  funext i
  simp

theorem ofBool_xor (a b : Bool) : BitVec.ofBool (a ^^ b) = BitVec.ofBool a ^^^ BitVec.ofBool b := by
  cases a <;> cases b <;> rfl

theorem bits6 : ∀ a b c d e f : Bool, ∀ k : Fin 6,
    (BitVec.ofBool f ++ BitVec.ofBool e ++ BitVec.ofBool d ++ BitVec.ofBool c ++ BitVec.ofBool b ++ BitVec.ofBool a : BitVec 6).getLsbD
      k.val = [a, b, c, d, e, f][k.val] := by
  decide

/-- Bit `k` of `ham6` is parity bit `k + 1`. -/
theorem ham6_getLsbD (d : BitVec 32) (k : Nat) (h : k < 6) : (ham6 d).getLsbD k = hammingBit (k + 1) d := by
  unfold ham6
  rw [bits6 _ _ _ _ _ _ ⟨k, h⟩]
  match k, h with
  | 0, _ => rfl
  | 1, _ => rfl
  | 2, _ => rfl
  | 3, _ => rfl
  | 4, _ => rfl
  | 5, _ => rfl

theorem ham6_xor (x y : BitVec 32) : ham6 (x ^^^ y) = ham6 x ^^^ ham6 y := by
  apply BitVec.eq_of_getLsbD_eq
  intro i hi
  rw [BitVec.getLsbD_xor, ham6_getLsbD _ _ hi, ham6_getLsbD _ _ hi, ham6_getLsbD _ _ hi, hammingBit_xor]

theorem overallParity_xor (x y : BitVec 32) : overallParity (x ^^^ y) = (overallParity x ^^ overallParity y) := by
  unfold overallParity
  rw [parity_xor, ham6_xor, parity_xor]
  cases parity x <;> cases parity y <;> simp

/-- A register from its metadata, overall parity bit, Hamming bits and data (R45). -/
def eccRegister (m : BitVec 25) (o : Bool) (h : BitVec 6) (d : BitVec 32) : Word :=
  m ++ (BitVec.ofBool o ++ h ++ d : BitVec 39)

section
variable (m : BitVec 25) (o : Bool) (h : BitVec 6) (d : BitVec 32)

theorem eccRegister_getLsbD (i : Nat) : (eccRegister m o h d).getLsbD i =
    if i < 32 then d.getLsbD i else if i < 38 then h.getLsbD (i - 32) else if i = 38 then o else m.getLsbD (i - 39) := by
  have h1 : (eccRegister m o h d).getLsbD i =
      if i < 39 then (BitVec.ofBool o ++ h ++ d : BitVec 39).getLsbD i else m.getLsbD (i - 39) :=
    BitVec.getLsbD_append
  have h2 : (BitVec.ofBool o ++ h ++ d : BitVec 39).getLsbD i =
      if i < 32 then d.getLsbD i else (BitVec.ofBool o ++ h : BitVec 7).getLsbD (i - 32) :=
    BitVec.getLsbD_append
  have h3 : (BitVec.ofBool o ++ h : BitVec 7).getLsbD (i - 32) =
      if i - 32 < 6 then h.getLsbD (i - 32) else (BitVec.ofBool o).getLsbD (i - 32 - 6) :=
    BitVec.getLsbD_append
  rw [h1, h2, h3]
  by_cases c1 : i < 32
  · simp [c1, show i < 39 by omega]
  · by_cases c2 : i < 38
    · simp [c1, c2, show i < 39 by omega, show i - 32 < 6 by omega]
    · by_cases c3 : i = 38
      · subst c3; simp
      · simp [c1, c2, c3, show ¬ i < 39 by omega]

@[simp] theorem eccData_register : eccData (eccRegister m o h d) = d := by
  apply BitVec.eq_of_getLsbD_eq
  intro i hi
  rw [eccData, BitVec.getLsbD_extractLsb', eccRegister_getLsbD]
  simp [hi]

@[simp] theorem eccHam_register : eccHam (eccRegister m o h d) = h := by
  apply BitVec.eq_of_getLsbD_eq
  intro i hi
  rw [eccHam, BitVec.getLsbD_extractLsb', eccRegister_getLsbD]
  simp [hi, show 32 + i < 38 by omega]

@[simp] theorem eccPov_register : eccPov (eccRegister m o h d) = o := by
  rw [eccPov, eccRegister_getLsbD]
  simp

@[simp] theorem eccMeta_register : eccMeta (eccRegister m o h d) = m := by
  apply BitVec.eq_of_getLsbD_eq
  intro i hi
  rw [eccMeta, BitVec.getLsbD_extractLsb', eccRegister_getLsbD]
  simp [hi, show ¬ 39 + i < 32 by omega, show ¬ 39 + i < 38 by omega, show 39 + i ≠ 38 by omega]

/-- Every register is put together from its fields. -/
theorem eccRegister_fields (r : Word) : eccRegister (eccMeta r) (eccPov r) (eccHam r) (eccData r) = r := by
  apply BitVec.eq_of_getLsbD_eq
  intro i hi
  rw [eccRegister_getLsbD, eccData, eccHam, eccMeta, eccPov]
  simp only [BitVec.getLsbD_extractLsb']
  by_cases c1 : i < 32
  · simp [c1]
  · by_cases c2 : i < 38
    · simp [c1, c2, show i - 32 < 6 by omega, show 32 + (i - 32) = i by omega]
    · by_cases c3 : i = 38
      · subst c3; rfl
      · simp [c1, c2, c3, show i - 39 < 25 by omega, show 39 + (i - 39) = i by omega]

end

/-- The recoded register (R405), under both settings of DECODE_META. -/
theorem recoded_eq (rule : MetaRule) (r : Word) (d : BitVec 32) : recoded rule r d =
    eccRegister (match rule with | .keep => eccMeta r | .zero => 0#25) (overallParity d) (ham6 d) d := by
  cases rule with
  | keep => rfl
  | zero =>
    apply BitVec.eq_of_getLsbD_eq
    intro i hi
    show ((codeword d).setWidth 64).getLsbD i = (eccRegister 0#25 (overallParity d) (ham6 d) d).getLsbD i
    have hc : (codeword d).setWidth 39 = codeword d := by simp
    have h1 : (eccRegister 0#25 (overallParity d) (ham6 d) d).getLsbD i =
        if i < 39 then (codeword d).getLsbD i else (0#25).getLsbD (i - 39) := BitVec.getLsbD_append
    rw [h1, BitVec.getLsbD_setWidth]
    by_cases c : i < 39
    · simp [c, hi]
    · simp [c]
      intro _
      exact BitVec.getLsbD_of_ge _ _ (by omega)

/-- A fresh code word is put together with metadata 0 (R402). -/
theorem eccEncode_eq (d : BitVec 32) : eccEncode d = eccRegister 0#25 (overallParity d) (ham6 d) d :=
  recoded_eq .zero 0#64 d

end Sys2Proof.Machine
end

