-- ==== Sys2Proof/Laws/Integer.lean ====
section
/-! SUPPORT. Integer laws: the exact integers the integer meanings compute, as operations on bit vectors, and the lane
procedures read lane by lane (`40_integer_scalar.md` R100, R101, R115, R120; `41_integer_simd.md` R150). -/

namespace Sys2Proof.Machine

theorem signedOverflow_64 (z : Int) : signedOverflow 64 z = true ↔ ¬ (-2 ^ 63 ≤ z ∧ z < 2 ^ 63) := by
  simp [signedOverflow]; omega

theorem signedOverflow_32 (z : Int) : signedOverflow 32 z = true ↔ ¬ (-2 ^ 31 ≤ z ∧ z < 2 ^ 31) := by
  simp [signedOverflow]; omega

/-! ### Wrapped results -/

section
variable {w : Nat} (x y : BitVec w)

theorem ofInt_add_toInt : BitVec.ofInt w (x.toInt + y.toInt) = x + y := by
  apply BitVec.eq_of_toInt_eq; simp [BitVec.toInt_ofInt, BitVec.toInt_add]

theorem ofInt_sub_toInt : BitVec.ofInt w (x.toInt - y.toInt) = x - y := by
  apply BitVec.eq_of_toInt_eq; simp [BitVec.toInt_ofInt, BitVec.toInt_sub]

theorem ofInt_mul_toInt : BitVec.ofInt w (x.toInt * y.toInt) = x * y := by
  apply BitVec.eq_of_toInt_eq; simp [BitVec.toInt_ofInt, BitVec.toInt_mul]

theorem toInt_ne_zero (h : y ≠ 0#w) : y.toInt ≠ 0 :=
  fun h' => h (by apply BitVec.eq_of_toInt_eq; rw [h']; simp)

theorem laneAdd_eq : laneAdd x y = x + y := by
  apply BitVec.eq_of_toNat_eq
  rw [laneAdd, BitVec.toNat_ofInt, BitVec.toNat_add]
  have : ((x.toNat : Int) + y.toNat) % ((2 ^ w : Nat) : Int) = ((x.toNat + y.toNat) % 2 ^ w : Nat) := by push_cast; rfl
  rw [this, Int.toNat_natCast]

theorem laneSub_eq : laneSub x y = x - y := by
  apply BitVec.eq_of_toNat_eq
  rw [laneSub, BitVec.toNat_ofInt, BitVec.toNat_sub]
  have hy : y.toNat ≤ 2 ^ w := y.isLt.le
  have : ((x.toNat : Int) - y.toNat) % ((2 ^ w : Nat) : Int) = ((2 ^ w - y.toNat + x.toNat) % 2 ^ w : Nat) := by
    rw [Int.natCast_emod, Nat.cast_add, Nat.cast_sub hy, ← Int.add_emod_left (a := ((2 ^ w : Nat) : Int))]
    congr 1
    omega
  rw [this, Int.toNat_natCast]

theorem laneMul_eq : laneMul x y = x * y := ofInt_mul_toInt x y

theorem laneDiv_eq : laneDiv x y = if y = 0#w then 0#w else x.sdiv y := by
  unfold laneDiv
  by_cases h : y = 0#w
  · simp [h]
  · rw [if_neg h, if_neg (toInt_ne_zero y h)]
    apply BitVec.eq_of_toInt_eq
    rw [BitVec.toInt_sdiv, BitVec.toInt_ofInt]

theorem laneRem_eq : laneRem x y = if y = 0#w then 0#w else x.srem y := by
  unfold laneRem
  by_cases h : y = 0#w
  · simp [h]
  · rw [if_neg h, if_neg (toInt_ne_zero y h)]
    have hm : x.toInt - x.toInt.tdiv y.toInt * y.toInt = x.toInt.tmod y.toInt := by
      have := Int.mul_tdiv_add_tmod x.toInt y.toInt
      linarith [mul_comm (x.toInt.tdiv y.toInt) y.toInt]
    rw [hm, ← BitVec.toInt_srem, BitVec.ofInt_toInt]

end

/-! ### Shifts -/

theorem shamt64_eq (b : Word) : shamt64 b = b.toNat % 64 := by simp [shamt64, BitVec.extractLsb'_toNat]

theorem shamt32_eq (b : Word) : shamt32 b = b.toNat % 32 := by simp [shamt32, BitVec.extractLsb'_toNat]

theorem ofNat_mul_pow {w : Nat} (x : BitVec w) (n : Nat) : BitVec.ofNat w (x.toNat * 2 ^ n) = x <<< n := by
  apply BitVec.eq_of_toNat_eq; simp [Nat.shiftLeft_eq]

theorem ofNat_div_pow {w : Nat} (x : BitVec w) (n : Nat) : BitVec.ofNat w (x.toNat / 2 ^ n) = x >>> n := by
  apply BitVec.eq_of_toNat_eq
  rw [BitVec.toNat_ofNat, BitVec.toNat_ushiftRight, Nat.shiftRight_eq_div_pow]
  exact Nat.mod_eq_of_lt (lt_of_le_of_lt (Nat.div_le_self _ _) x.isLt)

theorem ofInt_div_pow {w : Nat} (x : BitVec w) (n : Nat) : BitVec.ofInt w (x.toInt / 2 ^ n) = x.sshiftRight n := by
  unfold BitVec.sshiftRight; rw [Int.shiftRight_eq_div_pow]; norm_cast

/-! ### Lanes -/

theorem lane32_pack32 (u v : BitVec 32) : lane32 (pack32 u v) 0 = u ∧ lane32 (pack32 u v) 1 = v :=
  ⟨BitVec.extractLsb'_append_eq_right, BitVec.extractLsb'_append_eq_left⟩

theorem lane16_pack16 (l0 l1 l2 l3 : BitVec 16) :
    lane16 (pack16 l0 l1 l2 l3) 0 = l0 ∧ lane16 (pack16 l0 l1 l2 l3) 1 = l1 ∧
      lane16 (pack16 l0 l1 l2 l3) 2 = l2 ∧ lane16 (pack16 l0 l1 l2 l3) 3 = l3 := by
  have h : ∀ i j : Nat, (lane16 (pack16 l0 l1 l2 l3) i).getLsbD j = (decide (j < 16) &&
      if 16 * i + j < 16 then l0.getLsbD (16 * i + j) else if 16 * i + j < 32 then l1.getLsbD (16 * i + j - 16)
        else if 16 * i + j < 48 then l2.getLsbD (16 * i + j - 32) else l3.getLsbD (16 * i + j - 48)) := by
    intro i j
    unfold lane16 pack16
    rw [BitVec.getLsbD_extractLsb']
    congr 1
    have e1 : (l3 ++ l2 ++ l1 ++ l0 : BitVec 64).getLsbD (16 * i + j) =
      if 16 * i + j < 16 then l0.getLsbD (16 * i + j) else (l3 ++ l2 ++ l1 : BitVec 48).getLsbD (16 * i + j - 16) :=
        BitVec.getLsbD_append
    have e2 : ∀ k, (l3 ++ l2 ++ l1 : BitVec 48).getLsbD k = if k < 16 then l1.getLsbD k else (l3 ++ l2 : BitVec 32).getLsbD (k - 16) :=
        fun k => BitVec.getLsbD_append
    have e3 : ∀ k, (l3 ++ l2 : BitVec 32).getLsbD k = if k < 16 then l2.getLsbD k else l3.getLsbD (k - 16) :=
        fun k => BitVec.getLsbD_append
    rw [e1, e2, e3]
    split_ifs <;> first | rfl | omega
  refine ⟨?_, ?_, ?_, ?_⟩ <;> apply BitVec.eq_of_getLsbD_eq <;> intro j hj <;> rw [h] <;>
    simp only [hj, decide_true, Bool.true_and] <;> split_ifs <;> first | omega | (congr 1; omega)

/-- The lane procedure for 32-bit lanes, lane by lane (R150). -/
theorem lane32_lanes32 (f : BitVec 32 → BitVec 32 → BitVec 32) (a b : Word) (k : Nat) (hk : k < 2) :
    lane32 (lanes32 f a b) k = f (lane32 a k) (lane32 b k) := by
  obtain rfl | rfl : k = 0 ∨ k = 1 := by omega
  · exact (lane32_pack32 _ _).1
  · exact (lane32_pack32 _ _).2

/-- The lane procedure for 16-bit lanes, lane by lane (R150). -/
theorem lane16_lanes16 (f : BitVec 16 → BitVec 16 → BitVec 16) (a b : Word) (k : Nat) (hk : k < 4) :
    lane16 (lanes16 f a b) k = f (lane16 a k) (lane16 b k) := by
  obtain ⟨h0, h1, h2, h3⟩ := lane16_pack16 (f (lane16 a 0) (lane16 b 0)) (f (lane16 a 1) (lane16 b 1))
    (f (lane16 a 2) (lane16 b 2)) (f (lane16 a 3) (lane16 b 3))
  obtain rfl | rfl | rfl | rfl : k = 0 ∨ k = 1 ∨ k = 2 ∨ k = 3 := by omega
  · exact h0
  · exact h1
  · exact h2
  · exact h3

end Sys2Proof.Machine
end

