-- ==== Sys2Proof/Laws/State.lean ====
section
/-! SUPPORT. State: one lemma per field per update of the state, and each meaning's answer as `answeredWith` or
`answeredDrawing`, so that no proof unfolds a record update. -/

namespace Sys2Proof.Machine

section
variable (s : State)

@[simp] theorem State.respond_requests (r : Word) (o : Bool) (f : BitVec 5) : (s.respond r o f).requests = s.requests := rfl
@[simp] theorem State.respond_inProgress (r : Word) (o : Bool) (f : BitVec 5) : (s.respond r o f).inProgress = s.inProgress := rfl
@[simp] theorem State.respond_port (r : Word) (o : Bool) (f : BitVec 5) : (s.respond r o f).port = s.port := rfl
@[simp] theorem State.respond_response (r : Word) (o : Bool) (f : BitVec 5) : (s.respond r o f).response = some { result := r, ovf := o, fflags := f } := rfl
@[simp] theorem State.respond_rng (r : Word) (o : Bool) (f : BitVec 5) : (s.respond r o f).rng = s.rng := rfl
@[simp] theorem State.respond_ambientRm (r : Word) (o : Bool) (f : BitVec 5) : (s.respond r o f).ambientRm = s.ambientRm := rfl
@[simp] theorem State.respond_params (r : Word) (o : Bool) (f : BitVec 5) : (s.respond r o f).params = s.params := rfl
@[simp] theorem State.respond_nanDraws (r : Word) (o : Bool) (f : BitVec 5) : (s.respond r o f).nanDraws = s.nanDraws := rfl

@[simp] theorem State.answerInt_requests (r : Word) (o : Bool) : (s.answerInt r o).requests = s.requests := rfl
@[simp] theorem State.answerInt_inProgress (r : Word) (o : Bool) : (s.answerInt r o).inProgress = s.inProgress := rfl
@[simp] theorem State.answerInt_port (r : Word) (o : Bool) : (s.answerInt r o).port = s.port := rfl
@[simp] theorem State.answerInt_response (r : Word) (o : Bool) : (s.answerInt r o).response = some { result := r, ovf := o, fflags := 0#5 } := rfl
@[simp] theorem State.answerInt_rng (r : Word) (o : Bool) : (s.answerInt r o).rng = s.rng := rfl
@[simp] theorem State.answerInt_ambientRm (r : Word) (o : Bool) : (s.answerInt r o).ambientRm = s.ambientRm := rfl
@[simp] theorem State.answerInt_params (r : Word) (o : Bool) : (s.answerInt r o).params = s.params := rfl
@[simp] theorem State.answerInt_nanDraws (r : Word) (o : Bool) : (s.answerInt r o).nanDraws = s.nanDraws := rfl

@[simp] theorem State.answerFloat_requests (r : Word) (f : BitVec 5) : (s.answerFloat r f).requests = s.requests := rfl
@[simp] theorem State.answerFloat_inProgress (r : Word) (f : BitVec 5) : (s.answerFloat r f).inProgress = s.inProgress := rfl
@[simp] theorem State.answerFloat_port (r : Word) (f : BitVec 5) : (s.answerFloat r f).port = s.port := rfl
@[simp] theorem State.answerFloat_response (r : Word) (f : BitVec 5) : (s.answerFloat r f).response = some { result := r, ovf := false, fflags := f } := rfl
@[simp] theorem State.answerFloat_rng (r : Word) (f : BitVec 5) : (s.answerFloat r f).rng = s.rng := rfl
@[simp] theorem State.answerFloat_ambientRm (r : Word) (f : BitVec 5) : (s.answerFloat r f).ambientRm = s.ambientRm := rfl
@[simp] theorem State.answerFloat_params (r : Word) (f : BitVec 5) : (s.answerFloat r f).params = s.params := rfl
@[simp] theorem State.answerFloat_nanDraws (r : Word) (f : BitVec 5) : (s.answerFloat r f).nanDraws = s.nanDraws := rfl

@[simp] theorem State.answerUnassigned_requests : (s.answerUnassigned).requests = s.requests := rfl
@[simp] theorem State.answerUnassigned_inProgress : (s.answerUnassigned).inProgress = s.inProgress := rfl
@[simp] theorem State.answerUnassigned_port : (s.answerUnassigned).port = s.port := rfl
@[simp] theorem State.answerUnassigned_response : (s.answerUnassigned).response = some { result := 0#64, ovf := false, fflags := 0#5 } := rfl
@[simp] theorem State.answerUnassigned_rng : (s.answerUnassigned).rng = s.rng := rfl
@[simp] theorem State.answerUnassigned_ambientRm : (s.answerUnassigned).ambientRm = s.ambientRm := rfl
@[simp] theorem State.answerUnassigned_params : (s.answerUnassigned).params = s.params := rfl
@[simp] theorem State.answerUnassigned_nanDraws : (s.answerUnassigned).nanDraws = s.nanDraws := rfl

@[simp] theorem State.advanceDraws_requests : (s.advanceDraws).requests = s.requests := rfl
@[simp] theorem State.advanceDraws_inProgress : (s.advanceDraws).inProgress = s.inProgress := rfl
@[simp] theorem State.advanceDraws_port : (s.advanceDraws).port = s.port := rfl
@[simp] theorem State.advanceDraws_response : (s.advanceDraws).response = s.response := rfl
@[simp] theorem State.advanceDraws_rng : (s.advanceDraws).rng = s.rng := rfl
@[simp] theorem State.advanceDraws_ambientRm : (s.advanceDraws).ambientRm = s.ambientRm := rfl
@[simp] theorem State.advanceDraws_params : (s.advanceDraws).params = s.params := rfl
@[simp] theorem State.advanceDraws_nanDraws : (s.advanceDraws).nanDraws = s.nanDraws + 1 := rfl

@[simp] theorem State.advanceRng_requests : (s.advanceRng).requests = s.requests := rfl
@[simp] theorem State.advanceRng_inProgress : (s.advanceRng).inProgress = s.inProgress := rfl
@[simp] theorem State.advanceRng_port : (s.advanceRng).port = s.port := rfl
@[simp] theorem State.advanceRng_response : (s.advanceRng).response = s.response := rfl
@[simp] theorem State.advanceRng_rng : (s.advanceRng).rng = Config.rngNext s.rng := rfl
@[simp] theorem State.advanceRng_ambientRm : (s.advanceRng).ambientRm = s.ambientRm := rfl
@[simp] theorem State.advanceRng_params : (s.advanceRng).params = s.params := rfl
@[simp] theorem State.advanceRng_nanDraws : (s.advanceRng).nanDraws = s.nanDraws := rfl

@[simp] theorem State.answerS_requests (r : FpResult 32) : (s.answerS r).requests = s.requests := rfl
@[simp] theorem State.answerS_inProgress (r : FpResult 32) : (s.answerS r).inProgress = s.inProgress := rfl
@[simp] theorem State.answerS_port (r : FpResult 32) : (s.answerS r).port = s.port := rfl
@[simp] theorem State.answerS_response (r : FpResult 32) : (s.answerS r).response = some { result := zext64 r.value, ovf := false, fflags := r.flags } := rfl
@[simp] theorem State.answerS_rng (r : FpResult 32) : (s.answerS r).rng = s.rng := rfl
@[simp] theorem State.answerS_ambientRm (r : FpResult 32) : (s.answerS r).ambientRm = s.ambientRm := rfl
@[simp] theorem State.answerS_params (r : FpResult 32) : (s.answerS r).params = s.params := rfl
@[simp] theorem State.answerS_nanDraws (r : FpResult 32) : (s.answerS r).nanDraws = s.nanDraws + 1 := rfl

@[simp] theorem State.answerD_requests (r : FpResult 64) : (s.answerD r).requests = s.requests := rfl
@[simp] theorem State.answerD_inProgress (r : FpResult 64) : (s.answerD r).inProgress = s.inProgress := rfl
@[simp] theorem State.answerD_port (r : FpResult 64) : (s.answerD r).port = s.port := rfl
@[simp] theorem State.answerD_response (r : FpResult 64) : (s.answerD r).response = some { result := r.value, ovf := false, fflags := r.flags } := rfl
@[simp] theorem State.answerD_rng (r : FpResult 64) : (s.answerD r).rng = s.rng := rfl
@[simp] theorem State.answerD_ambientRm (r : FpResult 64) : (s.answerD r).ambientRm = s.ambientRm := rfl
@[simp] theorem State.answerD_params (r : FpResult 64) : (s.answerD r).params = s.params := rfl
@[simp] theorem State.answerD_nanDraws (r : FpResult 64) : (s.answerD r).nanDraws = s.nanDraws + 1 := rfl

@[simp] theorem State.withFetchWord_requests (n w : Nat) : (s.withFetchWord n w).requests = { ctrl := BitVec.ofNat 11 (w % 2 ^ n), a := 0, b := 0, c := 0 } :: s.requests := rfl
@[simp] theorem State.withFetchWord_inProgress (n w : Nat) : (s.withFetchWord n w).inProgress = false := rfl
@[simp] theorem State.withFetchWord_port (n w : Nat) : (s.withFetchWord n w).port = s.port := rfl
@[simp] theorem State.withFetchWord_response (n w : Nat) : (s.withFetchWord n w).response = s.response := rfl
@[simp] theorem State.withFetchWord_rng (n w : Nat) : (s.withFetchWord n w).rng = s.rng := rfl
@[simp] theorem State.withFetchWord_ambientRm (n w : Nat) : (s.withFetchWord n w).ambientRm = s.ambientRm := rfl
@[simp] theorem State.withFetchWord_params (n w : Nat) : (s.withFetchWord n w).params = s.params := rfl
@[simp] theorem State.withFetchWord_nanDraws (n w : Nat) : (s.withFetchWord n w).nanDraws = s.nanDraws := rfl

@[simp] theorem State.answeredWith_requests (r : Word) (o : Bool) (f : BitVec 5) :
    (s.answeredWith r o f).requests = s.requests := rfl
@[simp] theorem State.answeredWith_inProgress (r : Word) (o : Bool) (f : BitVec 5) :
    (s.answeredWith r o f).inProgress = s.inProgress := rfl
@[simp] theorem State.answeredWith_port (r : Word) (o : Bool) (f : BitVec 5) :
    (s.answeredWith r o f).port = s.port := rfl
@[simp] theorem State.answeredWith_response (r : Word) (o : Bool) (f : BitVec 5) :
    (s.answeredWith r o f).response = some { result := r, ovf := o, fflags := f } := rfl
@[simp] theorem State.answeredWith_rng (r : Word) (o : Bool) (f : BitVec 5) :
    (s.answeredWith r o f).rng = s.rng := rfl
@[simp] theorem State.answeredWith_ambientRm (r : Word) (o : Bool) (f : BitVec 5) :
    (s.answeredWith r o f).ambientRm = s.ambientRm := rfl
@[simp] theorem State.answeredWith_params (r : Word) (o : Bool) (f : BitVec 5) :
    (s.answeredWith r o f).params = s.params := rfl
@[simp] theorem State.answeredWith_nanDraws (r : Word) (o : Bool) (f : BitVec 5) :
    (s.answeredWith r o f).nanDraws = s.nanDraws := rfl

@[simp] theorem State.answeredDrawing_requests (r : Word) (f : BitVec 5) :
    (s.answeredDrawing r f).requests = s.requests := rfl
@[simp] theorem State.answeredDrawing_inProgress (r : Word) (f : BitVec 5) :
    (s.answeredDrawing r f).inProgress = s.inProgress := rfl
@[simp] theorem State.answeredDrawing_port (r : Word) (f : BitVec 5) :
    (s.answeredDrawing r f).port = s.port := rfl
@[simp] theorem State.answeredDrawing_response (r : Word) (f : BitVec 5) :
    (s.answeredDrawing r f).response = some { result := r, ovf := false, fflags := f } := rfl
@[simp] theorem State.answeredDrawing_rng (r : Word) (f : BitVec 5) :
    (s.answeredDrawing r f).rng = s.rng := rfl
@[simp] theorem State.answeredDrawing_ambientRm (r : Word) (f : BitVec 5) :
    (s.answeredDrawing r f).ambientRm = s.ambientRm := rfl
@[simp] theorem State.answeredDrawing_params (r : Word) (f : BitVec 5) :
    (s.answeredDrawing r f).params = s.params := rfl
@[simp] theorem State.answeredDrawing_nanDraws (r : Word) (f : BitVec 5) :
    (s.answeredDrawing r f).nanDraws = s.nanDraws + 1 := rfl

/-! ### Every answer in the statements' terms -/

theorem State.answerInt_eq (r : Word) (o : Bool) : s.answerInt r o = s.answeredWith r o 0#5 := rfl
theorem State.answerFloat_eq (r : Word) (f : BitVec 5) : s.answerFloat r f = s.answeredWith r false f := rfl
theorem State.answerUnassigned_eq : s.answerUnassigned = s.answeredWith 0#64 false 0#5 := rfl
theorem State.answerS_eq (r : FpResult 32) : s.answerS r = s.answeredDrawing (zext64 r.value) r.flags := rfl
theorem State.answerD_eq (r : FpResult 64) : s.answerD r = s.answeredDrawing r.value r.flags := rfl
theorem State.answerWrapped_eq (z : Int) :
    s.answerWrapped z = s.answeredWith (BitVec.ofInt 64 z) (signedOverflow 64 z) 0#5 := rfl
theorem State.answerHigh_eq (z : Int) : s.answerHigh z = s.answeredWith (BitVec.ofInt 64 (z / 2 ^ 64)) false 0#5 := rfl
theorem State.answerW_eq (r : BitVec 32) (o : Bool) : s.answerW r o = s.answeredWith (sext64 r) o 0#5 := rfl
theorem State.answerWrappedW_eq (z : Int) :
    s.answerWrappedW z = s.answeredWith (sext64 (BitVec.ofInt 32 z)) (signedOverflow 32 z) 0#5 := rfl
theorem State.toIntS_eq (place : Int → Word) (r : IntResult) :
    s.toIntS place r = s.answeredWith (place r.value) false r.flags := rfl
theorem State.toIntD_eq (place : Int → Word) (r : IntResult) :
    s.toIntD place r = s.answeredWith (place r.value) false r.flags := rfl
theorem State.fromIntS_eq (m : RoundMode) (n : Int) : s.fromIntS m n =
    s.answeredWith (zext64 (cvtFromInt single m n : FpResult 32).value) false (cvtFromInt single m n : FpResult 32).flags := rfl
theorem State.fromIntD_eq (m : RoundMode) (n : Int) : s.fromIntD m n =
    s.answeredWith (cvtFromInt double m n : FpResult 64).value false (cvtFromInt double m n : FpResult 64).flags := rfl

/-! ### The reset state and the operands -/

@[simp] theorem State.reset_requests : State.reset.requests = [] := rfl
@[simp] theorem State.reset_inProgress : State.reset.inProgress = false := rfl
@[simp] theorem State.reset_response : State.reset.response = none := rfl
@[simp] theorem State.reset_rng : State.reset.rng = Config.rngInit Config.seed := rfl
@[simp] theorem State.reset_nanDraws : State.reset.nanDraws = 0 := rfl

@[simp] theorem State.a_eq : s.a = s.port.a := rfl
@[simp] theorem State.b_eq : s.b = s.port.b := rfl
@[simp] theorem State.c_eq : s.c = s.port.c := rfl
@[simp] theorem State.aw_eq : s.aw = s.port.a.extractLsb' 0 32 := rfl
@[simp] theorem State.bw_eq : s.bw = s.port.b.extractLsb' 0 32 := rfl
@[simp] theorem State.fa_eq : s.fa = s.port.a.extractLsb' 0 32 := rfl
@[simp] theorem State.fb_eq : s.fb = s.port.b.extractLsb' 0 32 := rfl
@[simp] theorem State.fc_eq : s.fc = s.port.c.extractLsb' 0 32 := rfl

end

end Sys2Proof.Machine
end

