-- ==== Sys2Proof/Laws/Ops.lean ====
section
/-! SUPPORT. Ops: what the shared operations can do, each said once: the values of P_FLIP, the effective mode, the refusal of a reserved rounding
field, taking a request, and the outcomes of a step. -/

namespace Sys2Proof.Machine

/-- P_FLIP lies strictly between 0 and 1 (D16). -/
theorem flipProbability_bounds (p : FlipProbability) : 0 < p.value ∧ p.value < 1 := by
  unfold FlipProbability.value
  refine ⟨by positivity, (div_lt_one (by positivity)).mpr ?_⟩
  have h : (0 : ℚ) ≤ p.misses := by positivity
  linarith

/-- Every rational number strictly between 0 and 1 is a value P_FLIP may have. -/
theorem flipProbability_surjective {x : ℚ} (h0 : 0 < x) (h1 : x < 1) : ∃ p : FlipProbability, p.value = x := by
  obtain ⟨n, hn⟩ : ∃ n : Nat, x.num = n + 1 := ⟨(x.num - 1).toNat, by have := Rat.num_pos.mpr h0; omega⟩
  obtain ⟨d, hd⟩ : ∃ d : Nat, x.den = n + 1 + (d + 1) := ⟨x.den - n - 2, by have := Rat.num_lt_denom_iff.mpr h1; omega⟩
  refine ⟨{ hits := n, misses := d }, ?_⟩
  rw [← Rat.num_div_den x, hn, hd]
  unfold FlipProbability.value
  push_cast
  congr 1
  ring

/-- The effective mode exists exactly for the rounding fields that are not reserved (R40, R41). -/
theorem effMode_eq_none_iff (ambient : RoundMode) (rm : BitVec 3) : effMode ambient rm = none ↔ reservedRm rm = true := by
  revert rm; cases ambient <;> decide

/-- Under a rounding field that is not reserved there is an effective mode. -/
theorem effMode_isSome (ambient : RoundMode) (rm : BitVec 3) (h : reservedRm rm = false) :
    ∃ m, effMode ambient rm = some m := by
  cases hm : effMode ambient rm with
  | some m => exact ⟨m, rfl⟩
  | none => rw [(effMode_eq_none_iff ambient rm).mp hm] at h; cases h

theorem withMode_of_some {rm : BitVec 3} {s : State} {m : RoundMode} (k : RoundMode → State)
    (h : effMode s.ambientRm rm = some m) : withMode rm s k = .next (k m) := by
  unfold withMode; rw [h]

theorem withMode_of_reserved {rm : BitVec 3} (s : State) (k : RoundMode → State) (h : reservedRm rm = true) :
    withMode rm s k = .refused .reservedRoundingMode := by
  unfold withMode; rw [(effMode_eq_none_iff s.ambientRm rm).mpr h]

/-- Everything `withMode` can answer. -/
theorem withMode_cases (rm : BitVec 3) (s : State) (k : RoundMode → State) :
    (∃ m, effMode s.ambientRm rm = some m ∧ withMode rm s k = .next (k m)) ∨
      (reservedRm rm = true ∧ withMode rm s k = .refused .reservedRoundingMode) := by
  cases h : reservedRm rm with
  | true => exact .inr ⟨rfl, withMode_of_reserved s k h⟩
  | false =>
    obtain ⟨m, hm⟩ := effMode_isSome s.ambientRm rm h
    exact .inl ⟨m, hm, withMode_of_some k hm⟩

/-- Everything taking a request can find. -/
theorem take_cases (s : State) :
    (s.requests = [] ∧ s.take = .idle) ∨
      (∃ q rest, s.requests = q :: rest ∧ s.inProgress = true ∧ s.take = .overlapping) ∨
      (∃ q rest, s.requests = q :: rest ∧ s.inProgress = false ∧
        s.take = .taken q.ctrl { s with requests := rest, port := q }) := by
  unfold State.take
  cases hr : s.requests with
  | nil => exact .inl ⟨rfl, rfl⟩
  | cons q rest =>
    cases hp : s.inProgress with
    | true => exact .inr (.inl ⟨q, rest, rfl, rfl, rfl⟩)
    | false => exact .inr (.inr ⟨q, rest, rfl, rfl, rfl⟩)

theorem perform_instr {ctrl : BitVec 11} {i : Instr} (s : State) (h : decode ctrl = .instr i) :
    s.perform ctrl = exec i s := by
  unfold State.perform; rw [h]

theorem perform_unassigned {ctrl : BitVec 11} {op : BitVec 8} (s : State) (h : decode ctrl = .unassigned op) :
    s.perform ctrl = .next (s.answeredWith 0#64 false 0#5) := by
  unfold State.perform; rw [h]; rfl

theorem step_idle (s : State) (h : s.requests = []) : step s = .next s := by
  unfold step State.take; rw [h]

theorem step_overlapping (s : State) (q : Request) (rest : List Request) (h : s.requests = q :: rest)
    (hp : s.inProgress = true) : step s = .refused .requestInProgress := by
  unfold step State.take; rw [h, hp]; rfl

theorem step_taken (s : State) (q : Request) (rest : List Request) (h : s.requests = q :: rest)
    (hp : s.inProgress = false) :
    step s = State.perform { s with requests := rest, port := q } q.ctrl := by
  unfold step State.take; rw [h, hp]; rfl

end Sys2Proof.Machine
end

