-- ==== Sys2Proof/Laws/PerInstr.lean ====
section
/-! SUPPORT. PerInstr: the families of statements made for every instruction, one lemma per constructor. -/

namespace Sys2Proof.Laws.EncodedFields

/-- The control word of an instruction holds its selector in bits 7:0 and its rounding field in bits 10:8, and its value is
`rm * 256 + op` (R80). -/
def Statement (i : Instr) : Prop :=
  opField (encode i) = i.selector ∧ rmField (encode i) = i.rm ∧
    (encode i).toNat = i.rm.toNat * 256 + i.selector.toNat

/-- The fields of any selector and rounding field put together. -/
theorem of_append (op : BitVec 8) (rm : BitVec 3) :
    opField (rm ++ op) = op ∧ rmField (rm ++ op) = rm ∧ (rm ++ op).toNat = rm.toNat * 256 + op.toNat := by
  have h : (rm ++ op).toNat = rm.toNat * 256 + op.toNat := by
    rw [BitVec.toNat_append, ← Nat.shiftLeft_add_eq_or_of_lt op.isLt, Nat.shiftLeft_eq]
  have h1 := op.isLt
  have h2 := rm.isLt
  refine ⟨?_, ?_, h⟩
  · apply BitVec.eq_of_toNat_eq
    unfold opField
    rw [BitVec.extractLsb'_toNat, h, Nat.shiftRight_eq_div_pow]
    omega
  · apply BitVec.eq_of_toNat_eq
    unfold rmField
    rw [BitVec.extractLsb'_toNat, h, Nat.shiftRight_eq_div_pow]
    omega

theorem add (rm : BitVec 3) : Statement (.add rm) := of_append _ rm
theorem sub (rm : BitVec 3) : Statement (.sub rm) := of_append _ rm
theorem mul (rm : BitVec 3) : Statement (.mul rm) := of_append _ rm
theorem mulh (rm : BitVec 3) : Statement (.mulh rm) := of_append _ rm
theorem mulhsu (rm : BitVec 3) : Statement (.mulhsu rm) := of_append _ rm
theorem mulhu (rm : BitVec 3) : Statement (.mulhu rm) := of_append _ rm
theorem div (rm : BitVec 3) : Statement (.div rm) := of_append _ rm
theorem divu (rm : BitVec 3) : Statement (.divu rm) := of_append _ rm
theorem rem (rm : BitVec 3) : Statement (.rem rm) := of_append _ rm
theorem remu (rm : BitVec 3) : Statement (.remu rm) := of_append _ rm
theorem and (rm : BitVec 3) : Statement (.and rm) := of_append _ rm
theorem or (rm : BitVec 3) : Statement (.or rm) := of_append _ rm
theorem xor (rm : BitVec 3) : Statement (.xor rm) := of_append _ rm
theorem sll (rm : BitVec 3) : Statement (.sll rm) := of_append _ rm
theorem srl (rm : BitVec 3) : Statement (.srl rm) := of_append _ rm
theorem sra (rm : BitVec 3) : Statement (.sra rm) := of_append _ rm
theorem slt (rm : BitVec 3) : Statement (.slt rm) := of_append _ rm
theorem sltu (rm : BitVec 3) : Statement (.sltu rm) := of_append _ rm
theorem addw (rm : BitVec 3) : Statement (.addw rm) := of_append _ rm
theorem subw (rm : BitVec 3) : Statement (.subw rm) := of_append _ rm
theorem mulw (rm : BitVec 3) : Statement (.mulw rm) := of_append _ rm
theorem divw (rm : BitVec 3) : Statement (.divw rm) := of_append _ rm
theorem divuw (rm : BitVec 3) : Statement (.divuw rm) := of_append _ rm
theorem remw (rm : BitVec 3) : Statement (.remw rm) := of_append _ rm
theorem remuw (rm : BitVec 3) : Statement (.remuw rm) := of_append _ rm
theorem sllw (rm : BitVec 3) : Statement (.sllw rm) := of_append _ rm
theorem srlw (rm : BitVec 3) : Statement (.srlw rm) := of_append _ rm
theorem sraw (rm : BitVec 3) : Statement (.sraw rm) := of_append _ rm
theorem vadd32 (rm : BitVec 3) : Statement (.vadd32 rm) := of_append _ rm
theorem vsub32 (rm : BitVec 3) : Statement (.vsub32 rm) := of_append _ rm
theorem vmul32 (rm : BitVec 3) : Statement (.vmul32 rm) := of_append _ rm
theorem vdiv32 (rm : BitVec 3) : Statement (.vdiv32 rm) := of_append _ rm
theorem vrem32 (rm : BitVec 3) : Statement (.vrem32 rm) := of_append _ rm
theorem vadd16 (rm : BitVec 3) : Statement (.vadd16 rm) := of_append _ rm
theorem vsub16 (rm : BitVec 3) : Statement (.vsub16 rm) := of_append _ rm
theorem vmul16 (rm : BitVec 3) : Statement (.vmul16 rm) := of_append _ rm
theorem vdiv16 (rm : BitVec 3) : Statement (.vdiv16 rm) := of_append _ rm
theorem vrem16 (rm : BitVec 3) : Statement (.vrem16 rm) := of_append _ rm
theorem vmvlo (rm : BitVec 3) : Statement (.vmvlo rm) := of_append _ rm
theorem vmvhi (rm : BitVec 3) : Statement (.vmvhi rm) := of_append _ rm
theorem faultInject (rm : BitVec 3) : Statement (.faultInject rm) := of_append _ rm
theorem eccCheck (rm : BitVec 3) : Statement (.eccCheck rm) := of_append _ rm
theorem eccEncode (rm : BitVec 3) : Statement (.eccEncode rm) := of_append _ rm
theorem eccAdapt (rm : BitVec 3) : Statement (.eccAdapt rm) := of_append _ rm
theorem faddS (rm : BitVec 3) : Statement (.faddS rm) := of_append _ rm
theorem fsubS (rm : BitVec 3) : Statement (.fsubS rm) := of_append _ rm
theorem fmulS (rm : BitVec 3) : Statement (.fmulS rm) := of_append _ rm
theorem fdivS (rm : BitVec 3) : Statement (.fdivS rm) := of_append _ rm
theorem fsqrtS (rm : BitVec 3) : Statement (.fsqrtS rm) := of_append _ rm
theorem fmaddS (rm : BitVec 3) : Statement (.fmaddS rm) := of_append _ rm
theorem fmsubS (rm : BitVec 3) : Statement (.fmsubS rm) := of_append _ rm
theorem fnmsubS (rm : BitVec 3) : Statement (.fnmsubS rm) := of_append _ rm
theorem fnmaddS (rm : BitVec 3) : Statement (.fnmaddS rm) := of_append _ rm
theorem fsgnjS (rm : BitVec 3) : Statement (.fsgnjS rm) := of_append _ rm
theorem fsgnjnS (rm : BitVec 3) : Statement (.fsgnjnS rm) := of_append _ rm
theorem fsgnjxS (rm : BitVec 3) : Statement (.fsgnjxS rm) := of_append _ rm
theorem fminS (rm : BitVec 3) : Statement (.fminS rm) := of_append _ rm
theorem fmaxS (rm : BitVec 3) : Statement (.fmaxS rm) := of_append _ rm
theorem feqS (rm : BitVec 3) : Statement (.feqS rm) := of_append _ rm
theorem fltS (rm : BitVec 3) : Statement (.fltS rm) := of_append _ rm
theorem fleS (rm : BitVec 3) : Statement (.fleS rm) := of_append _ rm
theorem fclassS (rm : BitVec 3) : Statement (.fclassS rm) := of_append _ rm
theorem fcvtWS (rm : BitVec 3) : Statement (.fcvtWS rm) := of_append _ rm
theorem fcvtWuS (rm : BitVec 3) : Statement (.fcvtWuS rm) := of_append _ rm
theorem fcvtLS (rm : BitVec 3) : Statement (.fcvtLS rm) := of_append _ rm
theorem fcvtLuS (rm : BitVec 3) : Statement (.fcvtLuS rm) := of_append _ rm
theorem fcvtSW (rm : BitVec 3) : Statement (.fcvtSW rm) := of_append _ rm
theorem fcvtSWu (rm : BitVec 3) : Statement (.fcvtSWu rm) := of_append _ rm
theorem fcvtSL (rm : BitVec 3) : Statement (.fcvtSL rm) := of_append _ rm
theorem fcvtSLu (rm : BitVec 3) : Statement (.fcvtSLu rm) := of_append _ rm
theorem fmvXW (rm : BitVec 3) : Statement (.fmvXW rm) := of_append _ rm
theorem fmvWX (rm : BitVec 3) : Statement (.fmvWX rm) := of_append _ rm
theorem faddD (rm : BitVec 3) : Statement (.faddD rm) := of_append _ rm
theorem fsubD (rm : BitVec 3) : Statement (.fsubD rm) := of_append _ rm
theorem fmulD (rm : BitVec 3) : Statement (.fmulD rm) := of_append _ rm
theorem fdivD (rm : BitVec 3) : Statement (.fdivD rm) := of_append _ rm
theorem fsqrtD (rm : BitVec 3) : Statement (.fsqrtD rm) := of_append _ rm
theorem fmaddD (rm : BitVec 3) : Statement (.fmaddD rm) := of_append _ rm
theorem fmsubD (rm : BitVec 3) : Statement (.fmsubD rm) := of_append _ rm
theorem fnmsubD (rm : BitVec 3) : Statement (.fnmsubD rm) := of_append _ rm
theorem fnmaddD (rm : BitVec 3) : Statement (.fnmaddD rm) := of_append _ rm
theorem fsgnjD (rm : BitVec 3) : Statement (.fsgnjD rm) := of_append _ rm
theorem fsgnjnD (rm : BitVec 3) : Statement (.fsgnjnD rm) := of_append _ rm
theorem fsgnjxD (rm : BitVec 3) : Statement (.fsgnjxD rm) := of_append _ rm
theorem fminD (rm : BitVec 3) : Statement (.fminD rm) := of_append _ rm
theorem fmaxD (rm : BitVec 3) : Statement (.fmaxD rm) := of_append _ rm
theorem feqD (rm : BitVec 3) : Statement (.feqD rm) := of_append _ rm
theorem fltD (rm : BitVec 3) : Statement (.fltD rm) := of_append _ rm
theorem fleD (rm : BitVec 3) : Statement (.fleD rm) := of_append _ rm
theorem fclassD (rm : BitVec 3) : Statement (.fclassD rm) := of_append _ rm
theorem fcvtWD (rm : BitVec 3) : Statement (.fcvtWD rm) := of_append _ rm
theorem fcvtWuD (rm : BitVec 3) : Statement (.fcvtWuD rm) := of_append _ rm
theorem fcvtLD (rm : BitVec 3) : Statement (.fcvtLD rm) := of_append _ rm
theorem fcvtLuD (rm : BitVec 3) : Statement (.fcvtLuD rm) := of_append _ rm
theorem fcvtDW (rm : BitVec 3) : Statement (.fcvtDW rm) := of_append _ rm
theorem fcvtDWu (rm : BitVec 3) : Statement (.fcvtDWu rm) := of_append _ rm
theorem fcvtDL (rm : BitVec 3) : Statement (.fcvtDL rm) := of_append _ rm
theorem fcvtDLu (rm : BitVec 3) : Statement (.fcvtDLu rm) := of_append _ rm
theorem fmvXD (rm : BitVec 3) : Statement (.fmvXD rm) := of_append _ rm
theorem fmvDX (rm : BitVec 3) : Statement (.fmvDX rm) := of_append _ rm
theorem bf16Add (rm : BitVec 3) : Statement (.bf16Add rm) := of_append _ rm
theorem bf16Sub (rm : BitVec 3) : Statement (.bf16Sub rm) := of_append _ rm
theorem bf16Mul (rm : BitVec 3) : Statement (.bf16Mul rm) := of_append _ rm
theorem bf16Div (rm : BitVec 3) : Statement (.bf16Div rm) := of_append _ rm
theorem bf16Dot (rm : BitVec 3) : Statement (.bf16Dot rm) := of_append _ rm
theorem pf32Add (rm : BitVec 3) : Statement (.pf32Add rm) := of_append _ rm
theorem pf32Sub (rm : BitVec 3) : Statement (.pf32Sub rm) := of_append _ rm
theorem pf32Mul (rm : BitVec 3) : Statement (.pf32Mul rm) := of_append _ rm
theorem pf32Div (rm : BitVec 3) : Statement (.pf32Div rm) := of_append _ rm
theorem pf32Rem (rm : BitVec 3) : Statement (.pf32Rem rm) := of_append _ rm
theorem pf32Pack (rm : BitVec 3) : Statement (.pf32Pack rm) := of_append _ rm

end Sys2Proof.Laws.EncodedFields
end

