-- ==== Sys2Proof/Laws/Results.lean ====
section
/-! SUPPORT. Results: one lemma for each shared floating-point procedure, saying once what it gives in the terms of
Safety.lean (`43_fp_numerics.md` R205 to R227). `F.Serves w` collects what they need of a format. -/

namespace Sys2Proof.Machine

/-- Patterns of width `w` hold format F, and every computed NaN is a quiet NaN of it. -/
structure Format.Serves (F : Format) (w : ℕ) : Prop where
  fits : F.Fits w
  nan : ∀ (pick : BitVec w) (p : Bool), datum F (nanResult F pick p).value = .nan true

theorem single_serves : single.Serves 32 := ⟨single_fits, nanResult_single⟩
theorem double_serves : double.Serves 64 := ⟨double_fits, nanResult_double⟩

variable {F : Format} {w : ℕ}

theorem nanResult_flags (pick : BitVec w) (p : Bool) : (nanResult F pick p).flags = flagIf p flagNV := rfl

/-! ### Patterns -/

theorem fractionField_magnitude (hF : F.Fits w) (v : BitVec w) :
    fractionField F v = v.toNat % 2 ^ (w - 1) % 2 ^ fractionBits F := by
  unfold fractionField
  rw [hF.size, Nat.mod_mul_left_mod]

theorem exponentField_magnitude (hF : F.Fits w) (v : BitVec w) :
    exponentField F v = v.toNat % 2 ^ (w - 1) / 2 ^ fractionBits F := by
  unfold exponentField
  rw [hF.size, Nat.mod_mul_left_div_self]

theorem negatePattern_magnitude (hF : F.Fits w) (v : BitVec w) :
    (negatePattern v).toNat % 2 ^ (w - 1) = v.toNat % 2 ^ (w - 1) := by
  have hw := hF.width
  apply Nat.eq_of_testBit_eq
  intro i
  rw [Nat.testBit_mod_two_pow, Nat.testBit_mod_two_pow, BitVec.testBit_toNat, BitVec.testBit_toNat, negatePattern,
    BitVec.getLsbD_xor, BitVec.getLsbD_twoPow]
  by_cases hi : i < w - 1
  · have : ¬ w - 1 = i := by omega
    simp [hi, this]
  · simp [hi]

theorem negatePattern_msb (hF : F.Fits w) (v : BitVec w) : (negatePattern v).msb = !v.msb := by
  have hw := hF.width
  have h0 : 0 < w := by omega
  simp [negatePattern, BitVec.msb_eq_getLsbD_last, h0]

/-- The pattern with its sign changed stands for the datum with its sign changed (R227). -/
theorem datum_negatePattern (hF : F.Fits w) (v : BitVec w) : datum F (negatePattern v) = (datum F v).negateIf true := by
  unfold datum
  rw [fractionField_magnitude hF, exponentField_magnitude hF, negatePattern_magnitude hF, negatePattern_msb hF,
    ← fractionField_magnitude hF, ← exponentField_magnitude hF]
  dsimp only
  split_ifs <;> simp [Datum.negateIf]

/-! ### Sums, products, quotients, roots -/

theorem addDatum_result (h : F.Serves w) (m : RoundMode) (pick : BitVec w) (x y : Datum) :
    SumResult F m x y (addDatum F m pick x y).value (addDatum F m pick x y).flags := by
  refine ⟨?_, ?_, ?_, ?_, ?_⟩
  · intro hn
    cases x <;> cases y <;> simp [Datum.isNaN] at hn <;>
      simp [addDatum, h.nan, nanResult_flags, Datum.isSignaling]
  · rintro p q rfl rfl hpq
    simp [addDatum, hpq, h.nan, nanResult_flags, flagIf]
  · rintro p rfl hy
    cases y <;> simp [Datum.isFinite] at hy <;> simp [addDatum, exactResult, hy]
  · rintro p hx rfl
    cases x <;> simp [Datum.isFinite] at hx
    simp [addDatum, exactResult]
  · intro hx hy
    cases x <;> simp [Datum.isFinite] at hx
    cases y <;> simp [Datum.isFinite] at hy
    rename_i s n e s' n' e'
    obtain ⟨h0, h1⟩ := addFinite_spec h.fits m s n e s' n' e'
    refine ⟨h1, fun hz => ?_⟩
    have := h0 hz
    simp only [addDatum, Datum.sign]
    rw [this]
    exact ⟨rfl, rfl⟩

theorem addF_result (h : F.Serves w) (m : RoundMode) (pick x y : BitVec w) :
    SumResult F m (datum F x) (datum F y) (addF F m pick x y).value (addF F m pick x y).flags :=
  addDatum_result h m pick _ _

theorem subF_result (h : F.Serves w) (m : RoundMode) (pick x y : BitVec w) :
    SumResult F m (datum F x) ((datum F y).negateIf true) (subF F m pick x y).value (subF F m pick x y).flags := by
  unfold subF addF
  rw [datum_negatePattern h.fits]
  exact addDatum_result h m pick _ _

theorem mulF_result (h : F.Serves w) (m : RoundMode) (pick x y : BitVec w) :
    ProductResult F m (datum F x) (datum F y) (mulF F m pick x y).value (mulF F m pick x y).flags := by
  unfold mulF
  generalize datum F x = x
  generalize datum F y = y
  refine ⟨?_, ?_, ?_, ?_⟩
  · intro hn
    cases x <;> cases y <;> simp [Datum.isNaN] at hn <;> simp [h.nan, nanResult_flags, Datum.isSignaling]
  · intro hn
    cases x <;> cases y <;> simp [Datum.isInf, Datum.isZero] at hn <;> simp [hn, h.nan, nanResult_flags, flagIf]
  · intro hn
    cases x <;> cases y <;> simp [Datum.isInf, Datum.isZero, Datum.isNaN] at hn <;> simp [hn, exactResult, Datum.sign]
  · intro hx hy
    cases x <;> simp [Datum.isFinite] at hx
    cases y <;> simp [Datum.isFinite] at hy
    rename_i s n e s' n' e'
    obtain ⟨h0, h1⟩ := roundFinite_spec h.fits m (s ^^ s') (n * n') (e + e')
    rw [← value_mul]
    refine ⟨fun hz => h1 (fun h => hz ((value_eq_zero _ _ _).mpr h)), fun hz => ?_⟩
    have := h0 ((value_eq_zero _ _ _).mp hz)
    simp only [Datum.sign]
    rw [this]
    exact ⟨rfl, rfl⟩

theorem quotientF_result (h : F.Serves w) (m : RoundMode) (pick x y : BitVec w) :
    QuotientResult F m (datum F x) (datum F y) (quotientF F m pick x y).value (quotientF F m pick x y).flags := by
  unfold quotientF
  generalize datum F x = x
  generalize datum F y = y
  refine ⟨?_, ?_, ?_, ?_, ?_, ?_, ?_⟩
  · intro hn
    cases x <;> cases y <;> simp [Datum.isNaN] at hn <;> simp [h.nan, nanResult_flags, Datum.isSignaling]
  · intro hn
    cases x <;> cases y <;> simp [Datum.isInf, Datum.isZero] at hn <;> simp [hn, h.nan, nanResult_flags, flagIf]
  · intro hx hy
    cases x <;> cases y <;> simp [Datum.isInf, Datum.isFinite] at hx hy
    simp [exactResult, Datum.sign]
  · intro hx hy
    cases x <;> cases y <;> simp [Datum.isInf, Datum.isFinite] at hx hy
    simp [exactResult, Datum.sign]
  · intro hx hx2 hy
    cases x <;> cases y <;> simp [Datum.isZero, Datum.isFinite] at hx hy hx2
    simp [hx2, hy, Datum.sign]
  · intro hx hy hy2
    cases x <;> cases y <;> simp [Datum.isZero, Datum.isFinite] at hx hy hy2
    simp [hx, hy2, Datum.sign, exactResult]
  · intro hx hy hx2 hy2
    cases x <;> cases y <;> simp [Datum.isZero, Datum.isFinite] at hx hy hx2 hy2
    simp only [if_neg hx2, if_neg hy2]
    exact quotient_spec h.fits m _ _ _ _ _ _ hx2 hy2

theorem divF_result (h : F.Serves w) (m : RoundMode) (pick x y : BitVec w) :
    DivisionResult F m (datum F x) (datum F y) (divF F m pick x y).value (divF F m pick x y).flags := by
  unfold divF
  constructor
  · intro hz; rw [if_pos hz]; exact ⟨rfl, rfl⟩
  · intro hz; rw [hz]; exact quotientF_result h m pick x y

theorem sqrtF_result (h : F.Serves w) (m : RoundMode) (pick x : BitVec w) :
    RootResult F m x (sqrtF F m pick x).value (sqrtF F m pick x).flags := by
  unfold RootResult sqrtF
  cases datum F x with
  | nan q => simp [Datum.isFinite, Datum.isZero, h.nan, Datum.isNaN, nanResult_flags, Datum.isSignaling]
  | inf n => cases n <;> simp [Datum.isFinite, Datum.isZero, Datum.isNaN, exactResult]
  | fin s n e =>
    have hv := value_eq_zero s n e
    by_cases h0 : n = 0
    · simp only [if_pos h0, exactResult]
      rw [hv.mpr h0]
      simp [Datum.isFinite, Datum.isZero, Datum.isNaN, h0]
    · have hp : (0 : ℚ) < n * 2 ^ e := by positivity
      cases s
      · have hpos : 0 < (Datum.fin false n e).value := by simpa [Datum.value] using hp
        simp only [if_neg h0]
        refine ⟨?_, by simp [Datum.isNaN], by simp [Datum.isZero, h0], fun _ _ => root_spec h.fits m n e h0⟩
        rintro (h | ⟨_, h⟩)
        · cases h
        · linarith
      · have hneg : (Datum.fin true n e).value < 0 := by simp [Datum.value]; linarith
        simp only [if_neg h0, if_true]
        refine ⟨fun _ => ⟨?_, ?_⟩, by simp [Datum.isNaN], by simp [Datum.isZero, h0], fun _ h => by linarith⟩ <;> trivial

theorem zeroTimesInf_iff (x y : Datum) : zeroTimesInf x y = true ↔
    (x.isInf = true ∧ y.isZero = true) ∨ (x.isZero = true ∧ y.isInf = true) := by
  simp [zeroTimesInf]; tauto

/-- The exact product of two data that are neither NaNs nor zero times infinity, its sign changed where `np` holds. -/
theorem productDatum_spec (np : Bool) (x y : Datum) (hx : x.isNaN = false) (hy : y.isNaN = false) :
    ((productDatum x y).negateIf np).isNaN = false ∧
      ((productDatum x y).negateIf np).isFinite = (x.isFinite && y.isFinite) ∧
      ((productDatum x y).negateIf np).sign = (x.sign ^^ y.sign ^^ np) ∧
      ((productDatum x y).negateIf np).value = (if np then -1 else 1) * (x.value * y.value) := by
  refine ⟨?_, ?_, ?_, ?_⟩
  · cases x <;> cases y <;> simp_all [Datum.isNaN, productDatum, Datum.negateIf]
  · cases x <;> cases y <;> simp_all [Datum.isNaN, productDatum, Datum.negateIf, Datum.isFinite]
  · cases x <;> cases y <;> simp_all [Datum.isNaN, productDatum, Datum.negateIf, Datum.sign]
  · cases x <;> cases y <;> simp_all [Datum.isNaN, productDatum, Datum.negateIf]
    all_goals try (simp [Datum.value]; done)
    rename_i s n e s' n' e'
    rw [← value_mul]
    cases np <;> cases s <;> cases s' <;> simp [Datum.value]

theorem fmaF_result (h : F.Serves w) (m : RoundMode) (np nc : Bool) (pick x y z : BitVec w) :
    FusedResult F m np nc (datum F x) (datum F y) (datum F z) (fmaF F m np nc pick x y z).value
      (fmaF F m np nc pick x y z).flags := by
  unfold fmaF
  generalize datum F x = x
  generalize datum F y = y
  generalize datum F z = z
  have hz := zeroTimesInf_iff x y
  constructor
  · intro hh
    simp only [hz.mpr hh, if_true, h.nan, nanResult_flags, flagIf]
    exact ⟨trivial, trivial⟩
  · intro hh
    have hh' : zeroTimesInf x y = false := by rw [← Bool.not_eq_true, hz]; exact hh
    simp only [hh']
    refine ⟨fun hn => ?_, fun hx hy hz => ?_⟩
    · have hn' : (x.isNaN || y.isNaN || z.isNaN) = true := by simpa [or_assoc] using hn
      simp only [hn', if_true]
      exact ⟨h.nan _ _, rfl⟩
    · simp only [hx, hy, hz]
      obtain ⟨h1, h2, h3, h4⟩ := productDatum_spec np x y hx hy
      exact ⟨_, h1, h2, h3, h4, addDatum_result h _ _ _ _⟩

/-! ### Conversions, minimum and maximum, comparison -/

theorem cvtToInt_result (m : RoundMode) (bits : ℕ) (signed : Bool) (x : BitVec w) :
    ToIntResult m (if signed then -(2 : ℤ) ^ (bits - 1) else 0)
      (if signed then (2 : ℤ) ^ (bits - 1) - 1 else (2 : ℤ) ^ bits - 1) (datum F x) (cvtToInt F m bits signed x).value
      (cvtToInt F m bits signed x).flags := by
  have hlh : (if signed then -(2 : ℤ) ^ (bits - 1) else 0) ≤ (if signed then (2 : ℤ) ^ (bits - 1) - 1 else (2 : ℤ) ^ bits - 1) := by
    have h1 : (0 : ℤ) < 2 ^ (bits - 1) := by positivity
    have h2 : (0 : ℤ) < 2 ^ bits := by positivity
    cases signed <;> simp <;> omega
  unfold cvtToInt
  dsimp only
  generalize (if signed then -(2 : ℤ) ^ (bits - 1) else 0) = lo at hlh ⊢
  generalize (if signed then (2 : ℤ) ^ (bits - 1) - 1 else (2 : ℤ) ^ bits - 1) = hi at hlh ⊢
  cases datum F x with
  | nan q => exact ⟨fun _ => ⟨rfl, rfl⟩, fun h => (by cases h), fun h => (by cases h), fun h => (by cases h)⟩
  | inf s =>
    cases s
    · exact ⟨fun h => (by cases h), fun _ => ⟨rfl, rfl⟩, fun h => (by cases h), fun h => (by cases h)⟩
    · exact ⟨fun h => (by cases h), fun h => (by cases h), fun _ => ⟨rfl, rfl⟩, fun h => (by cases h)⟩
  | fin s n e =>
    refine ⟨fun h => (by cases h), fun h => (by cases h), fun h => (by cases h), fun _ => ?_⟩
    obtain ⟨h1, h2⟩ := cvtToInt_round m s n e
    dsimp only at h1 h2 ⊢
    generalize (if s then -((roundInt m s ((dyadic n e).scaled 0) : ℕ) : ℤ) else
      ((roundInt m s ((dyadic n e).scaled 0) : ℕ) : ℤ)) = k at h1 h2 ⊢
    refine ⟨k, h1, fun hlo => ?_, fun hhi => ?_, fun hlo hhi => ?_⟩
    · rw [if_pos hlo]; exact ⟨rfl, rfl⟩
    · rw [if_neg (by omega), if_pos hhi]; exact ⟨rfl, rfl⟩
    · rw [if_neg (not_lt.mpr hlo), if_neg (not_lt.mpr hhi)]
      refine ⟨rfl, ?_⟩
      have h3 : ((dyadic n e).scaled 0).rest = .exact ↔ (k : ℚ) = (Datum.fin s n e).value := by
        rw [h2, ← Rat.cast_inj (α := ℝ), Rat.cast_intCast]
      by_cases hr : ((dyadic n e).scaled 0).rest = .exact
      · simp only [if_pos hr, decide_eq_true (h3.mp hr)]; rfl
      · simp only [if_neg hr, decide_eq_false (fun h => hr (h3.mpr h))]; rfl

theorem cvtFromInt_result (h : F.Fits w) (m : RoundMode) (n : ℤ) :
    FromIntResult F m n (cvtFromInt F m n : FpResult w).value (cvtFromInt F m n : FpResult w).flags := by
  obtain ⟨h0, h1⟩ := cvtFromInt_spec (w := w) h m n
  exact ⟨fun hn => by rw [h0 hn]; exact ⟨rfl, rfl⟩, h1⟩

/-- The three relations on patterns (R221): false with a NaN, else the relation on the extended line. -/
theorem cmpF_spec (x y : BitVec w) :
    (cmpF F .eq x y = true ↔ (datum F x).isNaN = false ∧ (datum F y).isNaN = false ∧
        (datum F x).extended = (datum F y).extended) ∧
      (cmpF F .lt x y = true ↔ (datum F x).isNaN = false ∧ (datum F y).isNaN = false ∧
        (datum F x).extended < (datum F y).extended) ∧
      (cmpF F .le x y = true ↔ (datum F x).isNaN = false ∧ (datum F y).isNaN = false ∧
        (datum F x).extended ≤ (datum F y).extended) := by
  unfold cmpF
  generalize datum F x = x
  generalize datum F y = y
  by_cases hx : x.isNaN = true
  · cases x <;> simp [Datum.isNaN] at hx
    simp [Datum.eq, Datum.lt, Datum.isNaN]
  by_cases hy : y.isNaN = true
  · cases y <;> simp [Datum.isNaN] at hy
    cases x <;> simp [Datum.eq, Datum.lt, Datum.isNaN]
  rw [Bool.not_eq_true] at hx hy
  obtain ⟨h1, h2⟩ := datum_compare x y hx hy
  refine ⟨by simp [h2, hx, hy], by simp [h1, hx, hy], ?_⟩
  rw [Bool.or_eq_true, h1, h2, le_iff_lt_or_eq]
  simp [hx, hy]

theorem datum_sign (v : BitVec w) (h : (datum F v).isNaN = false) : (datum F v).sign = v.msb := by
  unfold datum at *
  simp only at *
  split_ifs at * <;> simp_all [Datum.isNaN, Datum.sign]

theorem minmaxF_result (h : F.Serves w) (ismax : Bool) (pick x y : BitVec w) :
    MinMaxResult F ismax x y (minmaxF F ismax pick x y).value (minmaxF F ismax pick x y).flags := by
  obtain ⟨-, -, h1⟩ := cmpF_spec (F := F) x y
  obtain ⟨-, -, h2⟩ := cmpF_spec (F := F) y x
  have hsx := datum_sign (F := F) x
  have hsy := datum_sign (F := F) y
  unfold MinMaxResult minmaxF
  simp only
  cases hx : (datum F x).isNaN <;> cases hy : (datum F y).isNaN <;> rw [hx, hy] at h1 h2
  · simp only [Bool.false_and, if_false, Bool.false_eq_true]
    rw [← hsx hx, ← hsy hy]
    refine ⟨by split_ifs <;> rfl, fun h => (by cases h), fun h => (by cases h), fun _ h => (by cases h), fun _ _ => ?_⟩
    have hlt : ∀ u v : BitVec w, (datum F u).extended < (datum F v).extended →
        ((datum F u).isZero && (datum F v).isZero) = false := by
      intro u v huv
      cases hu : datum F u <;> cases hv : datum F v <;> simp [Datum.isZero]
      rintro rfl
      by_contra h0
      subst h0
      rw [hu, hv] at huv
      simp [Datum.extended, Datum.value] at huv
    refine ⟨fun hz hz' hs => ?_, fun hl => ?_, fun hl => ?_, fun he => ?_⟩
    · have : ((datum F x).sign ^^ (datum F y).sign) = true := by
        cases h1 : (datum F x).sign <;> cases h2 : (datum F y).sign <;> simp_all
      simp [hz, hz', this]
    · have hnle : ¬ (datum F y).extended ≤ (datum F x).extended := not_le.mpr hl
      have c1 : cmpF F .le x y = true := h1.mpr ⟨rfl, rfl, hl.le⟩
      have c2 : cmpF F .le y x = false := by rw [← Bool.not_eq_true, h2]; tauto
      rw [hlt x y hl]
      cases ismax <;> simp [c1, c2]
    · have hnle : ¬ (datum F x).extended ≤ (datum F y).extended := not_le.mpr hl
      have c1 : cmpF F .le y x = true := h2.mpr ⟨rfl, rfl, hl.le⟩
      have c2 : cmpF F .le x y = false := by rw [← Bool.not_eq_true, h1]; tauto
      rw [Bool.and_comm (datum F x).isZero, hlt y x hl]
      cases ismax <;> simp [c1, c2]
    · subst he
      cases ismax <;> simp
  · simp
  · simp
  · simp [h.nan]

end Sys2Proof.Machine
end

