-- ==== Sys2Proof/Tests/Slice0.lean ====
section
/-! SUPPORT. Slice0: the model's own tests. Expected values come from the spec: the control words are written out from R80 and
R88, the vectors are those of `95_test_vectors.md` and of the instruction rules. The `witness_` theorems show states and
operands that meet the hypotheses of the statement they name, clause by clause. -/

namespace Sys2Proof.Tests
open Sys2Proof Sys2Proof.Machine

/-- The machine after reset with these operands on its port. -/
def st (a b c : Word) : State := { State.reset with port := { ctrl := 0, a := a, b := b, c := c } }

/-- The machine after reset with one request issued. -/
def issued (w : BitVec 11) (a b c : Word) : State :=
  { State.reset with requests := [{ ctrl := w, a := a, b := b, c := c }] }

/-- The response of one step on one request. -/
def ask (w : BitVec 11) (a b c : Word) : Option Response :=
  match step (issued w a b c) with
  | .next t => t.response
  | .fault _ => none
  | .refused _ => none

/-! ### WellFormed: an ill-formed instruction for the one check, which the check refuses (R41, R85) -/

theorem test_ill_formed : (Instr.faddS 5#3).wellFormed = false ∧ (Instr.fcvtDW 7#3).wellFormed = false ∧
    (Instr.bf16Dot 6#3).wellFormed = false ∧ (Instr.faddS 4#3).wellFormed = true ∧ (Instr.add 7#3).wellFormed = true ∧
    (Instr.pf32Rem 5#3).wellFormed = true := by decide
theorem test_ill_formed_refused : exec (.faddS 5#3) (st 0 0 0) = .refused .reservedRoundingMode := rfl

/-! ### Decoding: one word of each family, written bit by bit as `rm` (3 bits) then `op` (8 bits) (R80, R88) -/

theorem test_decode_integer : decode 0b00000000001#11 = .instr (.add 0) ∧ decode 0b00000010010#11 = .instr (.sltu 0) := by decide
theorem test_decode_w : decode 0b00000011000#11 = .instr (.addw 0) ∧ decode 0b00000100001#11 = .instr (.sraw 0) := by decide
theorem test_decode_simd : decode 0b00000101000#11 = .instr (.vadd32 0) ∧ decode 0b00000110100#11 = .instr (.vrem16 0) ∧
    decode 0b00000111001#11 = .instr (.vmvhi 0) := by decide
theorem test_decode_fault_ecc : decode 0b00000111100#11 = .instr (.faultInject 0) ∧
    decode 0b00000111101#11 = .instr (.eccCheck 0) ∧ decode 0b00000111110#11 = .instr (.eccEncode 0) ∧
    decode 0b00000111111#11 = .instr (.eccAdapt 0) := by decide
theorem test_decode_single : decode 0b00101000010#11 = .instr (.fmulS 1) ∧ decode 0b10001011000#11 = .instr (.fcvtSL 4) := by
  decide
theorem test_decode_double : decode 0b01110000000#11 = .instr (.faddD 3) ∧ decode 0b00010011011#11 = .instr (.fmvDX 0) := by
  decide
theorem test_decode_bf16 : decode 0b01011000100#11 = .instr (.bf16Dot 2) := by decide
theorem test_decode_pf32 : decode 0b00011010100#11 = .instr (.pf32Rem 0) := by decide
theorem test_decode_unassigned : decode 0b00000000000#11 = .unassigned 0x00#8 ∧
    decode 0b11111111111#11 = .unassigned 0xFF#8 := by decide
theorem test_decode_table_word : decodeTableWord 8 0x01 = some (.add 0) ∧ decodeTableWord 16 0x142 = some (.fmulS 1) ∧
    decodeTableWord 16 0x800 = none ∧ decodeTableWord 8 0x13 = none := by decide
theorem test_step_fetch_word : step (State.reset.withFetchWord 8 0x3E) =
    exec (.eccEncode 0) { State.reset with port := { ctrl := 0x03E#11, a := 0, b := 0, c := 0 } } := rfl

/-! ### One step of every instruction -/

/-- FAULT_INJECT answers under the free draw and advances the generator once (R180, R181). -/
theorem test_fault_inject : exec (.faultInject 0) (st 0x12345678 0 0) = .next { (st 0x12345678 0 0).answeredWith
    (faultValue (Config.rngDraw Config.pFlip State.reset.rng) 0x12345678)
      (faultFlip (Config.rngDraw Config.pFlip State.reset.rng)) 0 with
      rng := Config.rngNext State.reset.rng } := rfl
theorem test_fault_inject_outcomes : faultValue .noFlip 0x12345678 = 0x12345678#64 ∧ faultFlip .noFlip = false ∧
    faultValue (.flip 31) 0x12345678 = 0x92345678#64 ∧ faultFlip (.flip 31) = true := by decide
theorem test_add : ask 0x001#11 0x7FFFFFFFFFFFFFFF 0x1 0x0 = some ⟨0x8000000000000000, true, 0x00⟩ ∧
    ask 0x001#11 0x5 0xFFFFFFFFFFFFFFFF 0x0 = some ⟨0x4, false, 0x00⟩ := by decide
theorem test_sub : ask 0x002#11 0x8000000000000000 0x1 0x0 = some ⟨0x7FFFFFFFFFFFFFFF, true, 0x00⟩ ∧
    ask 0x002#11 0x3 0x5 0x0 = some ⟨0xFFFFFFFFFFFFFFFE, false, 0x00⟩ := by decide
theorem test_mul : ask 0x003#11 0x100000000 0x100000000 0x0 = some ⟨0x0, true, 0x00⟩ ∧
    ask 0x003#11 0xFFFFFFFFFFFFFFFF 0xFFFFFFFFFFFFFFFF 0x0 = some ⟨0x1, false, 0x00⟩ := by decide
theorem test_mulh : ask 0x004#11 0x8000000000000000 0x8000000000000000 0x0 = some ⟨0x4000000000000000, false, 0x00⟩ ∧
    ask 0x004#11 0xFFFFFFFFFFFFFFFF 0xFFFFFFFFFFFFFFFF 0x0 = some ⟨0x0, false, 0x00⟩ := by decide
theorem test_mulhsu : ask 0x005#11 0xFFFFFFFFFFFFFFFF 0xFFFFFFFFFFFFFFFF 0x0 = some ⟨0xFFFFFFFFFFFFFFFF, false, 0x00⟩ ∧
    ask 0x005#11 0x8000000000000000 0x2 0x0 = some ⟨0xFFFFFFFFFFFFFFFF, false, 0x00⟩ := by decide
theorem test_mulhu : ask 0x006#11 0x100000000 0x100000000 0x0 = some ⟨0x1, false, 0x00⟩ ∧
    ask 0x006#11 0xFFFFFFFFFFFFFFFF 0xFFFFFFFFFFFFFFFF 0x0 = some ⟨0xFFFFFFFFFFFFFFFE, false, 0x00⟩ := by decide
theorem test_div : ask 0x007#11 0x8000000000000000 0xFFFFFFFFFFFFFFFF 0x0 = some ⟨0x7FFFFFFFFFFFFFFF, true, 0x00⟩ ∧
    ask 0x007#11 0xFFFFFFFFFFFFFFF9 0x2 0x0 = some ⟨0xFFFFFFFFFFFFFFFD, false, 0x00⟩ := by decide
theorem test_divu : ask 0x008#11 0xFFFFFFFFFFFFFFF9 0x2 0x0 = some ⟨0x7FFFFFFFFFFFFFFC, false, 0x00⟩ ∧
    ask 0x008#11 0x5 0x0 0x0 = some ⟨0x0, false, 0x00⟩ := by decide
theorem test_rem : ask 0x009#11 0xFFFFFFFFFFFFFFF9 0x2 0x0 = some ⟨0xFFFFFFFFFFFFFFFF, false, 0x00⟩ ∧
    ask 0x009#11 0x5 0x0 0x0 = some ⟨0x0, false, 0x00⟩ := by decide
theorem test_remu : ask 0x00A#11 0xFFFFFFFFFFFFFFF9 0x2 0x0 = some ⟨0x1, false, 0x00⟩ ∧
    ask 0x00A#11 0x7 0x0 0x0 = some ⟨0x0, false, 0x00⟩ := by decide
theorem test_and : ask 0x00B#11 0xF0F0 0xFF00 0x0 = some ⟨0xF000, false, 0x00⟩ := by decide
theorem test_or : ask 0x00C#11 0xF0F0 0xFF00 0x0 = some ⟨0xFFF0, false, 0x00⟩ := by decide
theorem test_xor : ask 0x00D#11 0xF0F0 0xFF00 0x0 = some ⟨0xFF0, false, 0x00⟩ ∧
    ask 0x00D#11 0x123456789ABCDEF0 0x123456789ABCDEF0 0x0 = some ⟨0x0, false, 0x00⟩ := by decide
theorem test_sll : ask 0x00E#11 0x1 0x3F 0x0 = some ⟨0x8000000000000000, false, 0x00⟩ ∧
    ask 0x00E#11 0x1 0x40 0x0 = some ⟨0x1, false, 0x00⟩ := by decide
theorem test_srl : ask 0x00F#11 0x8000000000000000 0x3F 0x0 = some ⟨0x1, false, 0x00⟩ ∧
    ask 0x00F#11 0x8000000000000000 0x40 0x0 = some ⟨0x8000000000000000, false, 0x00⟩ := by decide
theorem test_sra : ask 0x010#11 0x8000000000000000 0x3F 0x0 = some ⟨0xFFFFFFFFFFFFFFFF, false, 0x00⟩ ∧
    ask 0x010#11 0x8000000000000000 0x7F 0x0 = some ⟨0xFFFFFFFFFFFFFFFF, false, 0x00⟩ := by decide
theorem test_slt : ask 0x011#11 0xFFFFFFFFFFFFFFFF 0x1 0x0 = some ⟨0x1, false, 0x00⟩ ∧
    ask 0x011#11 0x1 0xFFFFFFFFFFFFFFFF 0x0 = some ⟨0x0, false, 0x00⟩ := by decide
theorem test_sltu : ask 0x012#11 0x1 0xFFFFFFFFFFFFFFFF 0x0 = some ⟨0x1, false, 0x00⟩ ∧
    ask 0x012#11 0xFFFFFFFFFFFFFFFF 0x1 0x0 = some ⟨0x0, false, 0x00⟩ := by decide
theorem test_addw : ask 0x018#11 0x7FFFFFFF 0x1 0x0 = some ⟨0xFFFFFFFF80000000, true, 0x00⟩ ∧
    ask 0x018#11 0xFFFFFFFF00000001 0xFFFFFFFF 0x0 = some ⟨0x0, false, 0x00⟩ := by decide
theorem test_subw : ask 0x019#11 0x80000000 0x1 0x0 = some ⟨0x7FFFFFFF, true, 0x00⟩ ∧
    ask 0x019#11 0x0 0x1 0x0 = some ⟨0xFFFFFFFFFFFFFFFF, false, 0x00⟩ := by decide
theorem test_mulw : ask 0x01A#11 0x10000 0x10000 0x0 = some ⟨0x0, true, 0x00⟩ ∧
    ask 0x01A#11 0xFFFFFFFF 0xFFFFFFFF 0x0 = some ⟨0x1, false, 0x00⟩ := by decide
theorem test_divw : ask 0x01B#11 0x80000000 0xFFFFFFFF 0x0 = some ⟨0x7FFFFFFF, true, 0x00⟩ ∧
    ask 0x01B#11 0xFFFFFFF9 0x2 0x0 = some ⟨0xFFFFFFFFFFFFFFFD, false, 0x00⟩ := by decide
theorem test_divuw : ask 0x01C#11 0xFFFFFFFF 0x1 0x0 = some ⟨0xFFFFFFFFFFFFFFFF, false, 0x00⟩ ∧
    ask 0x01C#11 0x80000000 0x0 0x0 = some ⟨0x0, false, 0x00⟩ := by decide
theorem test_remw : ask 0x01D#11 0xFFFFFFF9 0x2 0x0 = some ⟨0xFFFFFFFFFFFFFFFF, false, 0x00⟩ ∧
    ask 0x01D#11 0x80000000 0xFFFFFFFF 0x0 = some ⟨0x0, false, 0x00⟩ := by decide
theorem test_remuw : ask 0x01E#11 0xFFFFFFFF 0x10 0x0 = some ⟨0xF, false, 0x00⟩ ∧
    ask 0x01E#11 0x5 0x0 0x0 = some ⟨0x0, false, 0x00⟩ := by decide
theorem test_sllw : ask 0x01F#11 0x1 0x1F 0x0 = some ⟨0xFFFFFFFF80000000, false, 0x00⟩ ∧
    ask 0x01F#11 0x1 0x20 0x0 = some ⟨0x1, false, 0x00⟩ := by decide
theorem test_srlw : ask 0x020#11 0x80000000 0x0 0x0 = some ⟨0xFFFFFFFF80000000, false, 0x00⟩ ∧
    ask 0x020#11 0x80000000 0x1 0x0 = some ⟨0x40000000, false, 0x00⟩ := by decide
theorem test_sraw : ask 0x021#11 0x80000000 0x4 0x0 = some ⟨0xFFFFFFFFF8000000, false, 0x00⟩ ∧
    ask 0x021#11 0xFFFFFFFF00000010 0x1 0x0 = some ⟨0x8, false, 0x00⟩ := by decide
theorem test_vadd32 : ask 0x028#11 0x7FFFFFFF00000001 0x1FFFFFFFF 0x0 = some ⟨0x8000000000000000, false, 0x00⟩ := by decide
theorem test_vsub32 : ask 0x029#11 0x80000000 0x100000001 0x0 = some ⟨0xFFFFFFFF7FFFFFFF, false, 0x00⟩ := by decide
theorem test_vmul32 : ask 0x02A#11 0x1000000000003 0x10000FFFFFFFE 0x0 = some ⟨0xFFFFFFFA, false, 0x00⟩ := by decide
theorem test_vdiv32 : ask 0x02B#11 0x8000000000000007 0xFFFFFFFF00000000 0x0 = some ⟨0x8000000000000000, false, 0x00⟩ ∧
    ask 0x02B#11 0xFFFFFFF900000007 0x2FFFFFFFE 0x0 = some ⟨0xFFFFFFFDFFFFFFFD, false, 0x00⟩ := by decide
theorem test_vrem32 : ask 0x02C#11 0xA00000014 0x300000000 0x0 = some ⟨0x100000000, false, 0x00⟩ ∧
    ask 0x02C#11 0x80000000FFFFFFF9 0xFFFFFFFF00000002 0x0 = some ⟨0xFFFFFFFF, false, 0x00⟩ := by decide
theorem test_vadd16 : ask 0x030#11 0x1000200030004 0x10002000300040 0x0 = some ⟨0x11002200330044, false, 0x00⟩ ∧
    ask 0x030#11 0x1FFFD00030004 0x10002000300040 0x0 = some ⟨0x11001D00330044, false, 0x00⟩ := by decide
theorem test_vsub16 : ask 0x031#11 0x800000050000 0x1000100060001 0x0 = some ⟨0xFFFF7FFFFFFFFFFF, false, 0x00⟩ := by decide
theorem test_vmul16 : ask 0x032#11 0x100FFFF00030002 0x100FFFF00050004 0x0 = some ⟨0x1000F0008, false, 0x00⟩ := by decide
theorem test_vdiv16 : ask 0x033#11 0x8000FFF900070064 0xFFFF0002FFFE0000 0x0 = some ⟨0x8000FFFDFFFD0000, false, 0x00⟩ := by decide
theorem test_vrem16 : ask 0x034#11 0x8000001400140014 0xFFFF000000050003 0x0 = some ⟨0x2, false, 0x00⟩ := by decide
theorem test_vmvlo : ask 0x038#11 0x1111222233334444 0xAAAABBBBCCCCDDDD 0x0 = some ⟨0x11112222CCCCDDDD, false, 0x00⟩ ∧
    ask 0x038#11 0x1111222233334444 0x1111222233334444 0x0 = some ⟨0x1111222233334444, false, 0x00⟩ := by decide
theorem test_vmvhi : ask 0x039#11 0x1111222233334444 0xAAAABBBBCCCCDDDD 0x0 = some ⟨0xAAAABBBB33334444, false, 0x00⟩ := by decide
theorem test_ecc_check : ask 0x03D#11 0x5412345679 0x0 0x0 = some ⟨0x5412345678, true, 0x00⟩ ∧
    ask 0x03D#11 0x5412345678 0x0 0x0 = some ⟨0x5412345678, false, 0x00⟩ := by decide +kernel
theorem test_ecc_encode : ask 0x03E#11 0x1 0x0 0x0 = some ⟨0x100000001, false, 0x00⟩ ∧
    ask 0x03E#11 0x0 0x0 0x0 = some ⟨0x0, false, 0x00⟩ := by decide
theorem test_ecc_adapt : ask 0x03F#11 0x3FE15412345678 0x0 0x0 = some ⟨0x3FF25412345678, false, 0x00⟩ ∧
    ask 0x03F#11 0x3FFD5412345679 0x0 0x0 = some ⟨0x3FFE5412345678, false, 0x00⟩ := by decide +kernel
theorem test_fadd_s : ask 0x340#11 0x3F800000 0x33800000 0x0 = some ⟨0x3F800001, false, 0x01⟩ ∧
    ask 0x040#11 0x1 0x1 0x0 = some ⟨0x2, false, 0x00⟩ := by decide
theorem test_fsub_s : ask 0x241#11 0x3F800000 0x3F800000 0x0 = some ⟨0x80000000, false, 0x00⟩ ∧
    ask 0x041#11 0x3F800000 0x40000000 0x0 = some ⟨0xBF800000, false, 0x00⟩ := by decide
theorem test_fmul_s : ask 0x242#11 0x7F7FFFFF 0x40000000 0x0 = some ⟨0x7F7FFFFF, false, 0x05⟩ ∧
    ask 0x042#11 0x80000000 0x40000000 0x0 = some ⟨0x80000000, false, 0x00⟩ := by decide
theorem test_fdiv_s : ask 0x143#11 0x3F800000 0x40400000 0x0 = some ⟨0x3EAAAAAA, false, 0x01⟩ ∧
    ask 0x043#11 0x7F800000 0x40000000 0x0 = some ⟨0x7F800000, false, 0x00⟩ := by decide
theorem test_fsqrt_s : ask 0x344#11 0x40000000 0x0 0x0 = some ⟨0x3FB504F4, false, 0x01⟩ ∧
    ask 0x044#11 0x7F800000 0x0 0x0 = some ⟨0x7F800000, false, 0x00⟩ := by decide +kernel
theorem test_fmadd_s : ask 0x245#11 0x3F800000 0x3F800000 0xBF800000 = some ⟨0x80000000, false, 0x00⟩ ∧
    ask 0x045#11 0x40000000 0x40400000 0x3F800000 = some ⟨0x40E00000, false, 0x00⟩ := by decide
theorem test_fmsub_s : ask 0x046#11 0x45800800 0x45800800 0xCB800000 = some ⟨0x4C000800, false, 0x01⟩ ∧
    ask 0x046#11 0x40000000 0x40400000 0x3F800000 = some ⟨0x40A00000, false, 0x00⟩ := by decide
theorem test_fnmsub_s : ask 0x047#11 0x45800800 0x45800800 0xCB800000 = some ⟨0xCC000800, false, 0x01⟩ ∧
    ask 0x047#11 0x40000000 0x40400000 0x3F800000 = some ⟨0xC0A00000, false, 0x00⟩ := by decide
theorem test_fnmadd_s : ask 0x048#11 0x45800800 0x45800800 0xCB800000 = some ⟨0xC6000400, false, 0x00⟩ ∧
    ask 0x048#11 0x40000000 0x40400000 0x3F800000 = some ⟨0xC0E00000, false, 0x00⟩ := by decide
theorem test_fsgnj_s : ask 0x049#11 0x7F800001 0x80000000 0x0 = some ⟨0xFF800001, false, 0x00⟩ ∧
    ask 0x049#11 0x3F800000 0xC0000000 0x0 = some ⟨0xBF800000, false, 0x00⟩ := by decide
theorem test_fsgnjn_s : ask 0x04A#11 0xBF800000 0xBF800000 0x0 = some ⟨0x3F800000, false, 0x00⟩ ∧
    ask 0x04A#11 0x3F800000 0x40000000 0x0 = some ⟨0xBF800000, false, 0x00⟩ := by decide
theorem test_fsgnjx_s : ask 0x04B#11 0x3F800000 0xC0000000 0x0 = some ⟨0xBF800000, false, 0x00⟩ ∧
    ask 0x04B#11 0xBF800000 0xC0000000 0x0 = some ⟨0x3F800000, false, 0x00⟩ := by decide
theorem test_fmin_s : ask 0x04C#11 0x7F800001 0x40000000 0x0 = some ⟨0x40000000, false, 0x10⟩ ∧
    ask 0x04C#11 0x80000000 0x0 0x0 = some ⟨0x80000000, false, 0x00⟩ := by decide
theorem test_fmax_s : ask 0x04D#11 0x7F800001 0x40000000 0x0 = some ⟨0x40000000, false, 0x10⟩ ∧
    ask 0x04D#11 0x7FC00000 0x40000000 0x0 = some ⟨0x40000000, false, 0x00⟩ := by decide
theorem test_feq_s : ask 0x04E#11 0x0 0x80000000 0x0 = some ⟨0x1, false, 0x00⟩ ∧
    ask 0x04E#11 0x3F800000 0x3F800000 0x0 = some ⟨0x1, false, 0x00⟩ := by decide
theorem test_flt_s : ask 0x04F#11 0x3F800000 0x40000000 0x0 = some ⟨0x1, false, 0x00⟩ ∧
    ask 0x04F#11 0x3F800000 0x3F800000 0x0 = some ⟨0x0, false, 0x00⟩ := by decide
theorem test_fle_s : ask 0x050#11 0x0 0x80000000 0x0 = some ⟨0x1, false, 0x00⟩ ∧
    ask 0x050#11 0x3F800000 0x3F800000 0x0 = some ⟨0x1, false, 0x00⟩ := by decide
theorem test_fclass_s : ask 0x051#11 0x7FC00000 0x0 0x0 = some ⟨0x200, false, 0x00⟩ ∧
    ask 0x051#11 0xFF800000 0x0 0x0 = some ⟨0x1, false, 0x00⟩ := by decide
theorem test_fcvt_w_s : ask 0x352#11 0x40200000 0x0 0x0 = some ⟨0x3, false, 0x01⟩ ∧
    ask 0x052#11 0xBF800000 0x0 0x0 = some ⟨0xFFFFFFFFFFFFFFFF, false, 0x00⟩ := by decide
theorem test_fcvt_wu_s : ask 0x353#11 0x40200000 0x0 0x0 = some ⟨0x3, false, 0x01⟩ ∧
    ask 0x053#11 0x4F32D05E 0x0 0x0 = some ⟨0xFFFFFFFFB2D05E00, false, 0x00⟩ := by decide
theorem test_fcvt_l_s : ask 0x354#11 0x40200000 0x0 0x0 = some ⟨0x3, false, 0x01⟩ ∧
    ask 0x054#11 0xDF000000 0x0 0x0 = some ⟨0x8000000000000000, false, 0x00⟩ := by decide
theorem test_fcvt_lu_s : ask 0x355#11 0x40200000 0x0 0x0 = some ⟨0x3, false, 0x01⟩ ∧
    ask 0x055#11 0x5F000000 0x0 0x0 = some ⟨0x8000000000000000, false, 0x00⟩ := by decide
theorem test_fcvt_s_w : ask 0x356#11 0x1000001 0x0 0x0 = some ⟨0x4B800001, false, 0x01⟩ ∧
    ask 0x356#11 0x20000000000001 0x0 0x0 = some ⟨0x3F800000, false, 0x00⟩ := by decide
theorem test_fcvt_s_wu : ask 0x357#11 0x1000001 0x0 0x0 = some ⟨0x4B800001, false, 0x01⟩ ∧
    ask 0x357#11 0x20000000000001 0x0 0x0 = some ⟨0x3F800000, false, 0x00⟩ := by decide
theorem test_fcvt_s_l : ask 0x358#11 0x1000001 0x0 0x0 = some ⟨0x4B800001, false, 0x01⟩ ∧
    ask 0x058#11 0xFFFFFFFFFFFFFFFF 0x0 0x0 = some ⟨0xBF800000, false, 0x00⟩ := by decide
theorem test_fcvt_s_lu : ask 0x359#11 0x1000001 0x0 0x0 = some ⟨0x4B800001, false, 0x01⟩ ∧
    ask 0x059#11 0x80000000 0x0 0x0 = some ⟨0x4F000000, false, 0x00⟩ := by decide
theorem test_fmv_x_w : ask 0x05A#11 0xFFFFFFFF7F800001 0x0 0x0 = some ⟨0x7F800001, false, 0x00⟩ ∧
    ask 0x05A#11 0xBF800000 0x0 0x0 = some ⟨0xFFFFFFFFBF800000, false, 0x00⟩ := by decide
theorem test_fmv_w_x : ask 0x05B#11 0xFFFFFFFF7F800001 0x0 0x0 = some ⟨0x7F800001, false, 0x00⟩ ∧
    ask 0x05B#11 0x123456783F800000 0x0 0x0 = some ⟨0x3F800000, false, 0x00⟩ := by decide
theorem test_fadd_d : ask 0x380#11 0x3FF0000000000000 0x3CA0000000000000 0x0 = some ⟨0x3FF0000000000001, false, 0x01⟩ ∧
    ask 0x080#11 0x1 0x1 0x0 = some ⟨0x2, false, 0x00⟩ := by decide +kernel
theorem test_fsub_d : ask 0x281#11 0x3FF0000000000000 0x3FF0000000000000 0x0 = some ⟨0x8000000000000000, false, 0x00⟩ ∧
    ask 0x081#11 0x3FF0000000000000 0x4000000000000000 0x0 = some ⟨0xBFF0000000000000, false, 0x00⟩ := by decide
theorem test_fmul_d : ask 0x282#11 0x7FEFFFFFFFFFFFFF 0x4000000000000000 0x0 = some ⟨0x7FEFFFFFFFFFFFFF, false, 0x05⟩ ∧
    ask 0x082#11 0x8000000000000000 0x4000000000000000 0x0 = some ⟨0x8000000000000000, false, 0x00⟩ := by decide +kernel
theorem test_fdiv_d : ask 0x183#11 0x3FF0000000000000 0x4008000000000000 0x0 = some ⟨0x3FD5555555555555, false, 0x01⟩ ∧
    ask 0x083#11 0x7FF0000000000000 0x4000000000000000 0x0 = some ⟨0x7FF0000000000000, false, 0x00⟩ := by decide
theorem test_fsqrt_d : ask 0x384#11 0x4000000000000000 0x0 0x0 = some ⟨0x3FF6A09E667F3BCD, false, 0x01⟩ ∧
    ask 0x084#11 0x7FF0000000000000 0x0 0x0 = some ⟨0x7FF0000000000000, false, 0x00⟩ := by decide +kernel
theorem test_fmadd_d : ask 0x285#11 0x3FF0000000000000 0x3FF0000000000000 0xBFF0000000000000 = some ⟨0x8000000000000000, false, 0x00⟩ ∧
    ask 0x085#11 0x4000000000000000 0x4008000000000000 0x3FF0000000000000 = some ⟨0x401C000000000000, false, 0x00⟩ := by decide
theorem test_fmsub_d : ask 0x086#11 0x41A0000002000000 0x41A0000002000000 0xC350000000000000 = some ⟨0x4360000002000000, false, 0x01⟩ ∧
    ask 0x086#11 0x4000000000000000 0x4008000000000000 0x3FF0000000000000 = some ⟨0x4014000000000000, false, 0x00⟩ := by decide
theorem test_fnmsub_d : ask 0x087#11 0x41A0000002000000 0x41A0000002000000 0xC350000000000000 = some ⟨0xC360000002000000, false, 0x01⟩ ∧
    ask 0x087#11 0x4000000000000000 0x4008000000000000 0x3FF0000000000000 = some ⟨0xC014000000000000, false, 0x00⟩ := by decide
theorem test_fnmadd_d : ask 0x088#11 0x41A0000002000000 0x41A0000002000000 0xC350000000000000 = some ⟨0xC1B0000001000000, false, 0x00⟩ ∧
    ask 0x088#11 0x4000000000000000 0x4008000000000000 0x3FF0000000000000 = some ⟨0xC01C000000000000, false, 0x00⟩ := by decide
theorem test_fsgnj_d : ask 0x089#11 0x7FF0000000000001 0x8000000000000000 0x0 = some ⟨0xFFF0000000000001, false, 0x00⟩ ∧
    ask 0x089#11 0x3FF0000000000000 0xC000000000000000 0x0 = some ⟨0xBFF0000000000000, false, 0x00⟩ := by decide
theorem test_fsgnjn_d : ask 0x08A#11 0xBFF0000000000000 0xBFF0000000000000 0x0 = some ⟨0x3FF0000000000000, false, 0x00⟩ ∧
    ask 0x08A#11 0x3FF0000000000000 0x4000000000000000 0x0 = some ⟨0xBFF0000000000000, false, 0x00⟩ := by decide
theorem test_fsgnjx_d : ask 0x08B#11 0x3FF0000000000000 0xC000000000000000 0x0 = some ⟨0xBFF0000000000000, false, 0x00⟩ ∧
    ask 0x08B#11 0xBFF0000000000000 0xC000000000000000 0x0 = some ⟨0x3FF0000000000000, false, 0x00⟩ := by decide
theorem test_fmin_d : ask 0x08C#11 0x7FF0000000000001 0x4000000000000000 0x0 = some ⟨0x4000000000000000, false, 0x10⟩ ∧
    ask 0x08C#11 0x8000000000000000 0x0 0x0 = some ⟨0x8000000000000000, false, 0x00⟩ := by decide
theorem test_fmax_d : ask 0x08D#11 0x7FF0000000000001 0x4000000000000000 0x0 = some ⟨0x4000000000000000, false, 0x10⟩ ∧
    ask 0x08D#11 0x7FF8000000000000 0x4000000000000000 0x0 = some ⟨0x4000000000000000, false, 0x00⟩ := by decide
theorem test_feq_d : ask 0x08E#11 0x0 0x8000000000000000 0x0 = some ⟨0x1, false, 0x00⟩ ∧
    ask 0x08E#11 0x3FF0000000000000 0x3FF0000000000000 0x0 = some ⟨0x1, false, 0x00⟩ := by decide
theorem test_flt_d : ask 0x08F#11 0x3FF0000000000000 0x4000000000000000 0x0 = some ⟨0x1, false, 0x00⟩ ∧
    ask 0x08F#11 0x3FF0000000000000 0x3FF0000000000000 0x0 = some ⟨0x0, false, 0x00⟩ := by decide
theorem test_fle_d : ask 0x090#11 0x0 0x8000000000000000 0x0 = some ⟨0x1, false, 0x00⟩ ∧
    ask 0x090#11 0x3FF0000000000000 0x3FF0000000000000 0x0 = some ⟨0x1, false, 0x00⟩ := by decide
theorem test_fclass_d : ask 0x091#11 0x7FF8000000000000 0x0 0x0 = some ⟨0x200, false, 0x00⟩ ∧
    ask 0x091#11 0xFFF0000000000000 0x0 0x0 = some ⟨0x1, false, 0x00⟩ := by decide
theorem test_fcvt_w_d : ask 0x392#11 0x4004000000000000 0x0 0x0 = some ⟨0x3, false, 0x01⟩ ∧
    ask 0x092#11 0xBFF0000000000000 0x0 0x0 = some ⟨0xFFFFFFFFFFFFFFFF, false, 0x00⟩ := by decide
theorem test_fcvt_wu_d : ask 0x393#11 0x4004000000000000 0x0 0x0 = some ⟨0x3, false, 0x01⟩ ∧
    ask 0x093#11 0x41E65A0BC0000000 0x0 0x0 = some ⟨0xFFFFFFFFB2D05E00, false, 0x00⟩ := by decide
theorem test_fcvt_l_d : ask 0x394#11 0x4004000000000000 0x0 0x0 = some ⟨0x3, false, 0x01⟩ ∧
    ask 0x094#11 0xC3E0000000000000 0x0 0x0 = some ⟨0x8000000000000000, false, 0x00⟩ := by decide
theorem test_fcvt_lu_d : ask 0x395#11 0x4004000000000000 0x0 0x0 = some ⟨0x3, false, 0x01⟩ ∧
    ask 0x095#11 0x43E0000000000000 0x0 0x0 = some ⟨0x8000000000000000, false, 0x00⟩ := by decide
theorem test_fcvt_d_w : ask 0x396#11 0x20000000000001 0x0 0x0 = some ⟨0x3FF0000000000000, false, 0x00⟩ ∧
    ask 0x096#11 0xFFFFFFFFFFFFFFF9 0x0 0x0 = some ⟨0xC01C000000000000, false, 0x00⟩ := by decide
theorem test_fcvt_d_wu : ask 0x397#11 0x20000000000001 0x0 0x0 = some ⟨0x3FF0000000000000, false, 0x00⟩ ∧
    ask 0x097#11 0xFFFFFFFFFFFFFFF9 0x0 0x0 = some ⟨0x41EFFFFFFF200000, false, 0x00⟩ := by decide
theorem test_fcvt_d_l : ask 0x398#11 0x20000000000001 0x0 0x0 = some ⟨0x4340000000000001, false, 0x01⟩ ∧
    ask 0x098#11 0xFFFFFFFFFFFFFFFF 0x0 0x0 = some ⟨0xBFF0000000000000, false, 0x00⟩ := by decide
theorem test_fcvt_d_lu : ask 0x399#11 0x20000000000001 0x0 0x0 = some ⟨0x4340000000000001, false, 0x01⟩ ∧
    ask 0x399#11 0x1000001 0x0 0x0 = some ⟨0x4170000010000000, false, 0x00⟩ := by decide
theorem test_fmv_x_d : ask 0x09A#11 0x7FF0000000000001 0x0 0x0 = some ⟨0x7FF0000000000001, false, 0x00⟩ ∧
    ask 0x09A#11 0xBFF0000000000000 0x0 0x0 = some ⟨0xBFF0000000000000, false, 0x00⟩ := by decide
theorem test_fmv_d_x : ask 0x09B#11 0x7FF0000000000001 0x0 0x0 = some ⟨0x7FF0000000000001, false, 0x00⟩ ∧
    ask 0x09B#11 0xBFF0000000000000 0x0 0x0 = some ⟨0xBFF0000000000000, false, 0x00⟩ := by decide
theorem test_bf16_add : ask 0x0C0#11 0x7F7F7F7F00000000 0x7F7F7F7F00000000 0x0 = some ⟨0x7F7F7F7F00000000, false, 0x05⟩ ∧
    ask 0x0C0#11 0x3F81 0x3B80 0x0 = some ⟨0x3F82, false, 0x00⟩ := by decide
theorem test_bf16_sub : ask 0x2C1#11 0x3F80 0x3F80 0x0 = some ⟨0x8000800080008000, false, 0x00⟩ ∧
    ask 0x2C1#11 0x3F803F8000008000 0x3F803F8000000000 0x0 = some ⟨0x8000800080008000, false, 0x00⟩ := by decide
theorem test_bf16_mul : ask 0x0C2#11 0x7F7F5F9740003F80 0x7F7F5F5940403F80 0x0 = some ⟨0x7F7F7F7F40C03F80, false, 0x05⟩ ∧
    ask 0x0C2#11 0x5F97 0x5F59 0x0 = some ⟨0x7F7F, false, 0x00⟩ := by decide
theorem test_bf16_div : ask 0x1C3#11 0x3F80 0x3F803F803F804040 0x0 = some ⟨0x3EAB, false, 0x01⟩ ∧
    ask 0x0C3#11 0xBF80 0x3F803F803F800000 0x0 = some ⟨0xFF7F, false, 0x08⟩ := by decide
theorem test_bf16_dot : ask 0x3C4#11 0x3F80000000000000 0x3F80000000000000 0x4B800000 = some ⟨0x4B800001, false, 0x01⟩ ∧
    ask 0x0C4#11 0x4080404040003F80 0x3F803F803F803F80 0x3F000000 = some ⟨0x41280000, false, 0x00⟩ := by decide
theorem test_pf32_add : ask 0x3D0#11 0x3F8000007F7FFFFF 0x338000007F7FFFFF 0x0 = some ⟨0x3F8000017F7FFFFF, false, 0x05⟩ ∧
    ask 0x0D0#11 0x3F80000040000000 0x3F80000040400000 0x0 = some ⟨0x4000000040A00000, false, 0x00⟩ := by decide
theorem test_pf32_sub : ask 0x2D1#11 0x3F800000 0x3F800000 0x0 = some ⟨0x8000000080000000, false, 0x00⟩ ∧
    ask 0x2D1#11 0x3F80000040A00000 0x3F80000040E00000 0x0 = some ⟨0x80000000C0000000, false, 0x00⟩ := by decide
theorem test_pf32_mul : ask 0x0D2#11 0x7149F2CA0DA24260 0x501502F90E2BCC77 0x0 = some ⟨0x7F7FFFFF00000000, false, 0x07⟩ ∧
    ask 0x0D2#11 0xDA24260 0x1E3CE508 0x0 = some ⟨0x0, false, 0x03⟩ := by decide
theorem test_pf32_div : ask 0x1D3#11 0x3F8000003F800000 0x4040000040400000 0x0 = some ⟨0x3EAAAAAA3EAAAAAA, false, 0x01⟩ ∧
    ask 0x0D3#11 0x3F8000003F800000 0x40400000 0x0 = some ⟨0x7FC000003EAAAAAB, false, 0x09⟩ := by decide
theorem test_pf32_rem : ask 0x0D4#11 0x40A000003F800000 0x4040000000000000 0x0 = some ⟨0x400000007FC00000, false, 0x10⟩ ∧
    ask 0x0D4#11 0x7149F2CA3DCCCCCD 0x404000003CF5C28F 0x0 = some ⟨0x3C23D70E, false, 0x00⟩ := by decide
theorem test_pf32_pack : ask 0x0D5#11 0x7F800000 0xFF800001 0x0 = some ⟨0xFF8000017F800000, false, 0x00⟩ ∧
    ask 0x0D5#11 0x1111111122222222 0x3333333344444444 0x0 = some ⟨0x4444444422222222, false, 0x00⟩ := by decide

/-! ### Witnesses: each statement's hypotheses are met, clause by clause, at the ends of their ranges -/

theorem witness_ResetSeedsGenerator : ∃ t, step (issued 0x03C#11 1 0 0) = .next t ∧ t.rng = Config.rngNext State.reset.rng :=
  ⟨_, rfl, rfl⟩
theorem witness_SelectorMap : ((0x01#8, Instr.add) : BitVec 8 × (BitVec 3 → Instr)) ∈ [(0x01#8, Instr.add)] :=
  List.mem_singleton.mpr rfl
theorem witness_EffectiveMode : 5 ≤ (5#3).toNat ∧ 5 ≤ (7#3).toNat := by decide
theorem witness_DecodeEncodeAgree : decode 0x001#11 = .instr (.add 0) ∧ decode 0x7D5#11 = .instr (.pf32Pack 7) := by decide
/-- The first and last selector of every unassigned range, and their assigned neighbours (R82). -/
theorem witness_UnassignedSelectors :
    (∀ op ∈ [0x00, 0x13, 0x17, 0x22, 0x27, 0x2D, 0x2F, 0x35, 0x37, 0x3A, 0x3B, 0x5C, 0x7F, 0x9C, 0xBF, 0xC5, 0xCF, 0xD6, 0xFF],
      UnassignedSelector op ∧ decode (BitVec.ofNat 11 op) = .unassigned (BitVec.ofNat 8 op)) ∧
    (∀ op ∈ [0x01, 0x12, 0x18, 0x21, 0x28, 0x2C, 0x30, 0x34, 0x38, 0x39, 0x3C, 0x5B, 0x80, 0x9B, 0xC0, 0xC4, 0xD0, 0xD5],
      ¬ UnassignedSelector op) := by decide
theorem witness_UnassignedAnswersZero :
    (issued 0x700#11 1 2 3).requests = [⟨0x700#11, 1, 2, 3⟩] ∧ (issued 0x700#11 1 2 3).inProgress = false ∧
    UnassignedSelector ((0x700#11).toNat % 256) ∧ ask 0x700#11 1 2 3 = some ⟨0, false, 0⟩ := by decide
theorem witness_StepRunsDecoded :
    (issued 0x001#11 1 2 3).requests = [⟨0x001#11, 1, 2, 3⟩] ∧ (issued 0x001#11 1 2 3).inProgress = false ∧
    decode 0x001#11 = .instr (.add 0) := by decide
theorem witness_OverlapRefused : ∃ s : State, s.requests ≠ [] ∧ s.inProgress = true :=
  ⟨{ issued 0x001#11 1 2 3 with inProgress := true }, by decide, rfl⟩
theorem witness_ReservedRoundingRefused : (Instr.faddS 5#3).rounds = true ∧ 5 ≤ (Instr.faddS 5#3).rm.toNat ∧
    (Instr.pf32Div 7#3).rounds = true ∧ 5 ≤ (Instr.pf32Div 7#3).rm.toNat := by decide
/-- Two words that differ in `rm` alone, of a selector that does not round and of an unassigned one (R42). -/
theorem witness_RoundingFieldIgnored :
    ((0x001#11).toNat % 256 = (0x701#11).toNat % 256 ∧ ∀ i, decode 0x001#11 = .instr i → i.rounds = false) ∧
    ((0x013#11).toNat % 256 = (0x513#11).toNat % 256 ∧ ∀ i, decode 0x013#11 = .instr i → i.rounds = false) :=
  ⟨⟨rfl, fun i h => by cases h; rfl⟩, ⟨rfl, fun i h => by cases h⟩⟩
theorem witness_WellFormedCompletes : (Instr.faddS 4#3).wellFormed = true ∧ (Instr.add 7#3).wellFormed = true := by decide
/-- The last selector of the integer side, the first of the floating side, and one that sets `ovf`. -/
theorem witness_OutputsByFamily :
    (∃ t r, exec (.eccAdapt 0) (st 0 0 0) = .next t ∧ t.response = some r ∧ (Instr.eccAdapt 0).selector.toNat = 0x3F) ∧
    (∃ t r, exec (.faddS 0) (st 0 0 0) = .next t ∧ t.response = some r ∧ (Instr.faddS 0).selector.toNat = 0x40) ∧
    (∃ t r, exec (.add 0) (st 0x7FFFFFFFFFFFFFFF 1 0) = .next t ∧ t.response = some r ∧ r.ovf = true) :=
  ⟨⟨_, _, rfl, rfl, rfl⟩, ⟨_, _, rfl, rfl, rfl⟩, ⟨_, _, rfl, rfl, by decide⟩⟩
theorem witness_GeneratorUse : (∀ rm, decode 0x001#11 ≠ .instr (.faultInject rm)) ∧
    (∃ t, (st 1 2 0).perform 0x001#11 = .next t) ∧ ∃ t, (st 1 2 0).perform 0x013#11 = .next t :=
  ⟨by decide, ⟨_, rfl⟩, ⟨_, rfl⟩⟩
theorem witness_ResponseIsOfTheRequest : ∃ s s' t t' : State, s ≠ s' ∧ s'.port = s.port ∧ s'.ambientRm = s.ambientRm ∧
    s'.params = s.params ∧ s'.nanDraws = s.nanDraws ∧ s'.rng = s.rng ∧ exec (.faultInject 0) s = .next t ∧
    exec (.faultInject 0) s' = .next t' ∧ exec (.faddS 0) s ≠ exec (.faddS 0) s' :=
  ⟨st 1 2 0, { st 1 2 0 with inProgress := true }, _, _, fun h => Bool.noConfusion (congrArg State.inProgress h), rfl, rfl, rfl,
    rfl, rfl, rfl, rfl, fun h => Bool.noConfusion (congrArg (fun
      | .next t => t.inProgress
      | .fault _ => false
      | .refused _ => false) h)⟩
theorem witness_StepKeepsInvariant : (issued 0x040#11 1 2 3).admissible = true ∧
    (∃ t, step (issued 0x040#11 1 2 3) = .next t) ∧ (issued 0x540#11 1 2 3).admissible = false :=
  ⟨by decide, ⟨_, rfl⟩, by decide⟩
theorem witness_RunsNeverStop : (issued 0x040#11 1 2 3).admissible = true ∧ 0 < 1 ∧ (issued 0x040#11 1 2 3).requests ≠ [] := by
  decide

/-- A zero divisor, the minimum by -1, and two plain divisions whose remainders have both signs. -/
theorem witness_SignedDivision : (st 5 0 0).port.b = 0#64 ∧
    ((st 0x8000000000000000 0xFFFFFFFFFFFFFFFF 0).port.a.toInt = -2 ^ 63 ∧
      (st 0x8000000000000000 0xFFFFFFFFFFFFFFFF 0).port.b.toInt = -1) ∧
    (low32 (st 5 0x100000000 0).port.b = 0#32 ∧ (low32 (st 0x80000000 0xFFFFFFFF 0).port.a).toInt = -2 ^ 31 ∧
      (low32 (st 0x80000000 0xFFFFFFFF 0).port.b).toInt = -1) ∧
    (low32 (st 7 2 0).port.b ≠ 0#32 ∧ ¬ ((low32 (st 7 2 0).port.a).toInt = -2 ^ 31 ∧ (low32 (st 7 2 0).port.b).toInt = -1)) ∧
    (st 0xFFFFFFFFFFFFFFF9 2 0).port.b ≠ 0#64 ∧ ¬ ((st 0xFFFFFFFFFFFFFFF9 2 0).port.a.toInt = -2 ^ 63 ∧
      (st 0xFFFFFFFFFFFFFFF9 2 0).port.b.toInt = -1) := by decide
theorem witness_UnsignedDivision : (st 5 0 0).port.b = 0#64 ∧ (st 5 1 0).port.b ≠ 0#64 ∧
    low32 (st 5 0x100000000 0).port.b = 0#32 ∧ low32 (st 5 0xFFFFFFFF 0).port.b ≠ 0#32 := by decide
theorem witness_UpperHalvesIgnoredW : (Instr.addw 0).selector.toNat = 0x18 ∧ (Instr.sraw 0).selector.toNat = 0x21 ∧
    low32 (st 0xFFFFFFFF00000001 0xAAAAAAAA00000002 9).port.a = low32 (st 1 2 0).port.a ∧
    low32 (st 0xFFFFFFFF00000001 0xAAAAAAAA00000002 9).port.b = low32 (st 1 2 0).port.b ∧
    (∃ t t', exec (.addw 0) (st 1 2 0) = .next t ∧ exec (.addw 0) (st 0xFFFFFFFF00000001 0xAAAAAAAA00000002 9) = .next t') ∧
    ∃ t t', exec (.sraw 0) (st 1 2 0) = .next t ∧ exec (.sraw 0) (st 0xFFFFFFFF00000001 0xAAAAAAAA00000002 9) = .next t' :=
  ⟨rfl, rfl, by decide, by decide, ⟨_, _, rfl, rfl⟩, ⟨_, _, rfl, rfl⟩⟩
theorem witness_Packed32 : (0 < 2 ∧ 1 < 2) ∧ lane32 (st 0xA00000014 0x300000000 0).port.b 0 = 0#32 ∧
    lane32 (st 0xA00000014 0x300000000 0).port.b 1 ≠ 0#32 := by decide
theorem witness_Packed16 : (0 < 4 ∧ 3 < 4) ∧ lane16 (st 1 0xFFFF000000050003 0).port.b 2 = 0#16 ∧
    lane16 (st 1 0xFFFF000000050003 0).port.b 3 ≠ 0#16 := by decide
/-- R163's own instance: the operands differ in lane 2 alone; and two 32-bit operands that differ in lane 1 alone. -/
theorem witness_LaneIndependence :
    (∃ t t' r r', exec (.vadd16 0) (st 0x0001000200030004 0x0010002000300040 0) = .next t ∧
      exec (.vadd16 0) (st 0x0001FFFD00030004 0x0010002000300040 0) = .next t' ∧ t.response = some r ∧ t'.response = some r' ∧
      lane16 0x0001FFFD00030004 3 = lane16 0x0001000200030004 3 ∧ lane16 0x0001FFFD00030004 0 = lane16 0x0001000200030004 0) ∧
    ∃ t t' r r', exec (.vrem32 0) (st 0x0000000100000007 0x0000000100000002 0) = .next t ∧
      exec (.vrem32 0) (st 0x0000000900000007 0x0000000300000002 0) = .next t' ∧ t.response = some r ∧ t'.response = some r' ∧
      lane32 0x0000000900000007 0 = lane32 0x0000000100000007 0 ∧ lane32 0x0000000300000002 0 = lane32 0x0000000100000002 0 :=
  ⟨⟨_, _, _, _, rfl, rfl, rfl, rfl, by decide, by decide⟩, ⟨_, _, _, _, rfl, rfl, rfl, rfl, by decide, by decide⟩⟩

/-- Registers whose overall parity matches, and whose does not with syndrome 0, 1, 32, 33 and 63 (R403, R404, R405), made of
`encode(0x12345678)`, whose code is `0x54`. -/
theorem witness_CheckRegister : parityMatch 0x0000005412345678#64 = true ∧
    (parityMatch 0x0000001412345678#64 = false ∧ (syndrome 0x0000001412345678#64).toNat = 0) ∧
    (parityMatch 0x0000005412345679#64 = false ∧ (syndrome 0x0000005412345679#64).toNat = 1) ∧
    (parityMatch 0x0000005492345678#64 = false ∧ (syndrome 0x0000005492345678#64).toNat = 32) ∧
    (parityMatch 0x0000003512345678#64 = false ∧ (syndrome 0x0000003512345678#64).toNat = 33) ∧
    (parityMatch 0x0000002B12345678#64 = false ∧ (syndrome 0x0000002B12345678#64).toNat = 63) ∧
    (st 0 0 0).params.decodeMeta = .keep ∧
    ({ st 0 0 0 with params := { (st 0 0 0).params with decodeMeta := .zero } } : State).params.decodeMeta = .zero := by
  decide +kernel
theorem witness_DecodeLaws : 0 < 32 ∧ 31 < 32 ∧ parityMatch (eccEncode 0x12345678#32 ^^^ 1#64 <<< 31) = false := by
  decide +kernel
theorem witness_SingleErrors : (st 0 0 0).params.decodeMeta = .keep ∧
    (st 0x0000005412345679 0 0).port.a = (0#25 ++ codeword 0x12345678#32) ^^^ 1#64 <<< 0 ∧
    (st 0x0000001412345678 0 0).port.a = (0#25 ++ codeword 0x12345678#32) ^^^ 1#64 <<< 38 ∧
    (st 0x0000005512345678 0 0).port.a = (0#25 ++ codeword 0x12345678#32) ^^^ 1#64 <<< (32 + 0) ∧
    (st 0x00C0517412345678 0 0).port.a = (0x180A2#25 ++ codeword 0x12345678#32) ^^^ 1#64 <<< (32 + 5) := by decide +kernel
theorem witness_DoubleErrorsPassThrough : 0 < 39 ∧ 38 < 39 ∧ 0 ≠ 38 ∧
    (st 0x0000001412345679 0 0).port.a = (0#25 ++ codeword 0x12345678#32) ^^^ 1#64 <<< 0 ^^^ 1#64 <<< 38 := by decide +kernel
theorem witness_AdaptRegister : eccMode (st 0x0000005412345658 0 0).port.a = 0#2 ∧
    eccMode (st 0x0000035492345678 0 0).port.a ≠ 0#2 := by decide
/-- A sequence of adaptations from any register; and registers that meet each of R436's three conditions at its bound. -/
theorem witness_AdaptSequences : (∀ a ∈ [0x0000015412345658#64, 0x002BC15412345678#64, 0x0100015412345678#64],
      ∃ (rm : Nat → BitVec 3) (s t : Nat → State) (r : Nat → Response),
        (s 0).port.a = a ∧ (r 0).result = eccAdapt .keep a ∧
        ∀ n, exec (.eccAdapt (rm n)) (s n) = .next (t n) ∧ (t n).response = some (r n) ∧
          (s (n + 1)).port.a = (r n).result) ∧
    1 ≤ (eccHistory (eccAdapt .keep 0x0000015412345658#64)).toNat ∧
    700 < (eccFrequency (eccAdapt .keep 0x002BC15412345678#64)).toNat ∧
    4 ≤ (eccSensitivity (eccAdapt .keep 0x0100015412345678#64)).toNat :=
  ⟨fun a _ => ⟨fun _ => 0, fun n => st ((eccAdapt .keep)^[n] a) 0 0,
    fun n => (st ((eccAdapt .keep)^[n] a) 0 0).answerInt (eccAdapt .keep ((eccAdapt .keep)^[n] a)) false,
    fun n => { result := eccAdapt .keep ((eccAdapt .keep)^[n] a), ovf := false, fflags := 0 }, rfl, rfl,
    fun n => ⟨rfl, rfl, Function.iterate_succ_apply' _ n a⟩⟩, by decide +kernel, by decide +kernel, by decide +kernel⟩

/-- The rounding modes a request can have (R40): the four of `rm` 0 to 3 and the ambient one of `rm` 4. -/
theorem witness_effMode : effMode (st 0 0 0).ambientRm 0#3 = some .rne ∧ effMode (st 0 0 0).ambientRm 1#3 = some .rtz ∧
    effMode (st 0 0 0).ambientRm 2#3 = some .rdn ∧ effMode (st 0 0 0).ambientRm 3#3 = some .rup ∧
    effMode (st 0 0 0).ambientRm 4#3 = some .rne := by decide
/-- Single-precision data of every kind: quiet and signaling NaN, both infinities, both zeros, the least subnormal, the least
normal, ones of both signs. -/
theorem witness_single_data : datum single 0x7FC00000#32 = .nan true ∧ datum single 0x7F800001#32 = .nan false ∧
    datum single 0x7F800000#32 = .inf false ∧ datum single 0xFF800000#32 = .inf true ∧
    datum single 0x00000000#32 = .fin false 0 (-149) ∧ datum single 0x80000000#32 = .fin true 0 (-149) ∧
    datum single 0x00000001#32 = .fin false 1 (-149) ∧ datum single 0x00800000#32 = .fin false 8388608 (-149) ∧
    datum single 0x3F800000#32 = .fin false 8388608 (-23) ∧ datum single 0xBF800000#32 = .fin true 8388608 (-23) := by decide
/-- The same in double precision. -/
theorem witness_double_data : datum double 0x7FF8000000000000#64 = .nan true ∧ datum double 0x7FF0000000000001#64 = .nan false ∧
    datum double 0x7FF0000000000000#64 = .inf false ∧ datum double 0xFFF0000000000000#64 = .inf true ∧
    datum double 0x0000000000000000#64 = .fin false 0 (-1074) ∧ datum double 0x8000000000000000#64 = .fin true 0 (-1074) ∧
    datum double 0x3FF0000000000000#64 = .fin false 4503599627370496 (-52) ∧
    datum double 0xBFF0000000000000#64 = .fin true 4503599627370496 (-52) := by decide
theorem value_one : (datum single 0x3F800000#32).value = 1 ∧ (datum single 0xBF800000#32).value = -1 := by
  obtain ⟨-, -, -, -, -, -, -, -, h, h'⟩ := witness_single_data
  rw [h, h']
  norm_num [Datum.value]
/-- A mode, operands for the NaN clause, for the clauses with infinities, for a non-zero and for a zero sum. -/
theorem witness_ScalarAddSub : effMode (st 0 0 0).ambientRm 0#3 = some .rne ∧ (datum single 0x7F800001#32).isNaN = true ∧
    datum single 0x7F800000#32 = .inf false ∧ datum single 0xFF800000#32 = .inf true ∧
    (datum single 0x3F800000#32).isFinite = true ∧
    (datum single 0x3F800000#32).value + (datum single 0x3F800000#32).value ≠ 0 ∧
    (datum single 0x3F800000#32).value + (datum single 0xBF800000#32).value = 0 := by
  rw [value_one.1, value_one.2]
  refine ⟨rfl, by decide, by decide, by decide, by decide, by norm_num, by norm_num⟩
/-- The same for a product; zero times infinity among the operands. -/
theorem witness_ScalarMultiply : effMode (st 0 0 0).ambientRm 4#3 = some .rne ∧ (datum single 0x7FC00000#32).isNaN = true ∧
    ((datum single 0x7F800000#32).isInf = true ∧ (datum single 0x00000000#32).isZero = true) ∧
    ((datum single 0xBF800000#32).isNaN = false ∧ (datum single 0xBF800000#32).isZero = false) ∧
    (datum single 0x3F800000#32).value * (datum single 0xBF800000#32).value ≠ 0 := by
  rw [value_one.1, value_one.2]
  refine ⟨rfl, by decide, ⟨by decide, by decide⟩, ⟨by decide, by decide⟩, by norm_num⟩
/-- A zero divisor of either sign; a finite, an infinite and a NaN divisor that are not zeros. -/
theorem witness_ScalarDivide : effMode (st 0 0 0).ambientRm 1#3 = some .rtz ∧ (datum single 0x00000000#32).isZero = true ∧
    (datum double 0x8000000000000000#64).isZero = true ∧ (datum single 0x3F800000#32).isZero = false ∧
    (datum single 0x3F800000#32).isFinite = true ∧ (datum single 0x7F800000#32).isZero = false ∧
    (datum single 0x7FC00000#32).isZero = false := by decide
/-- A negative, a NaN, a zero, an infinite and a positive operand. -/
theorem witness_ScalarSquareRoot : effMode (st 0 0 0).ambientRm 2#3 = some .rdn ∧ (datum single 0xBF800000#32).value < 0 ∧
    (datum single 0x7F800001#32).isNaN = true ∧ (datum single 0x80000000#32).isZero = true ∧
    datum single 0x7F800000#32 = .inf false ∧ 0 < (datum single 0x3F800000#32).value := by
  rw [value_one.1, value_one.2]
  refine ⟨rfl, by norm_num, by decide, by decide, by decide, by norm_num⟩
/-- Zero times infinity; a NaN addend; three operands that are no NaN, their product no zero times infinity. -/
theorem witness_FusedMultiplyAdd : effMode (st 0 0 0).ambientRm 3#3 = some .rup ∧
    ((datum single 0x7F800000#32).isInf = true ∧ (datum single 0x80000000#32).isZero = true) ∧
    (datum single 0x7FC00000#32).isNaN = true ∧ (datum single 0x3F800000#32).isNaN = false ∧
    (datum single 0x3F800000#32).isInf = false ∧ (datum single 0x3F800000#32).isZero = false := by decide
/-- Two NaNs, a NaN and a number, zeros of opposite sign, two numbers in order, twice the same number. -/
theorem witness_MinimumMaximum : (datum single 0x7FC00000#32).isNaN = true ∧ (datum single 0x3F800000#32).isNaN = false ∧
    ((datum single 0x00000000#32).isZero = true ∧ (datum single 0x80000000#32).isZero = true ∧
      (datum single 0x00000000#32).sign ≠ (datum single 0x80000000#32).sign) ∧
    (datum single 0xFF800000#32).extended < (datum single 0x7F800000#32).extended ∧ (0x3F800000#32) = 0x3F800000#32 := by
  refine ⟨by decide, by decide, ⟨by decide, by decide, by decide⟩, ?_, rfl⟩
  rw [show datum single 0xFF800000#32 = .inf true by decide, show datum single 0x7F800000#32 = .inf false by decide]
  exact WithBot.bot_lt_coe _
/-- A NaN, both infinities, a finite operand in range, and one that rounds past each end of the range (3e9 and -3e9 for the
signed 32-bit one). -/
theorem witness_FloatToInteger : effMode (st 0 0 0).ambientRm 0#3 = some .rne ∧ (datum single 0x7FC00000#32).isNaN = true ∧
    datum single 0x7F800000#32 = .inf false ∧ datum single 0xFF800000#32 = .inf true ∧
    RoundsTo .rne ((datum single 0x3F800000#32).value : ℚ) 1 ∧ RoundsTo .rne ((datum single 0x4F32D05E#32).value : ℚ) 3000000000 ∧
    RoundsTo .rne ((datum single 0xCF32D05E#32).value : ℚ) (-3000000000) := by
  rw [value_one.1, show datum single 0x4F32D05E#32 = .fin false 11718750 8 by decide,
    show datum single 0xCF32D05E#32 = .fin true 11718750 8 by decide]
  refine ⟨rfl, by decide, by decide, by decide, Or.inl ?_, Or.inl ?_, Or.inl ?_⟩ <;> norm_num [Datum.value]
theorem witness_IntegerToFloat : effMode (st 0 0 0).ambientRm 0#3 = some .rne ∧ (low32 (st 0 0 0).port.a).toInt = 0 ∧
    (low32 (st 0xFFFFFFFF 0 0).port.a).toInt ≠ 0 := by decide
theorem witness_UpperHalvesIgnoredS : (Instr.faddS 0).selector.toNat = 0x40 ∧ (Instr.fmvWX 0).selector.toNat = 0x5B ∧
    (Instr.faddS 0).selector ≠ 0x58#8 ∧ (Instr.faddS 0).selector ≠ 0x59#8 ∧
    low32 (st 0xFFFFFFFF3F800000 0xAAAAAAAA3F800000 0x1234567800000000).port.a = low32 (st 0x3F800000 0x3F800000 0).port.a ∧
    low32 (st 0xFFFFFFFF3F800000 0xAAAAAAAA3F800000 0x1234567800000000).port.b = low32 (st 0x3F800000 0x3F800000 0).port.b ∧
    low32 (st 0xFFFFFFFF3F800000 0xAAAAAAAA3F800000 0x1234567800000000).port.c = low32 (st 0x3F800000 0x3F800000 0).port.c ∧
    (∃ t t', exec (.faddS 0) (st 0x3F800000 0x3F800000 0) = .next t ∧
      exec (.faddS 0) (st 0xFFFFFFFF3F800000 0xAAAAAAAA3F800000 0x1234567800000000) = .next t') ∧
    ∃ t t', exec (.fmvWX 0) (st 0x3F800000 0x3F800000 0) = .next t ∧
      exec (.fmvWX 0) (st 0xFFFFFFFF3F800000 0xAAAAAAAA3F800000 0x1234567800000000) = .next t' :=
  ⟨rfl, rfl, by decide, by decide, by decide, by decide, by decide, ⟨_, _, rfl, rfl⟩, ⟨_, _, rfl, rfl⟩⟩
/-- A mode, the lanes' ends, and lane results for each clause of the narrowing: a NaN, and numbers on both sides of the clamp. -/
theorem witness_Bf16Elementwise : effMode (st 0 0 0).ambientRm 0#3 = some .rne ∧ 0 < 4 ∧ 3 < 4 ∧
    (datum single 0x7F800001#32).isNaN = true ∧ (datum single 0x7F7F0000#32).isNaN = false ∧
    (datum single 0x7F7F0001#32).isNaN = false ∧ (st 0 0 0).params.bf16Narrow = .rne := by decide
theorem witness_Bf16NeverInfinite : (Instr.bf16Add 0).selector.toNat = 0xC0 ∧ (Instr.bf16Div 0).selector.toNat = 0xC3 ∧ 3 < 4 ∧
    (∃ t r, exec (.bf16Add 0) (st 0x7F80 0x3F80 0) = .next t ∧ t.response = some r) ∧
    ∃ t r, exec (.bf16Div 0) (st 0x3F80 0 0) = .next t ∧ t.response = some r :=
  ⟨rfl, rfl, by decide, ⟨_, _, rfl, rfl⟩, ⟨_, _, rfl, rfl⟩⟩
theorem witness_Bf16DotProduct : effMode (st 0 0 0).ambientRm 3#3 = some .rup ∧ 0 < 4 ∧ 3 < 4 := by decide
/-- A mode, both lanes, and lane results on both sides of the clamp. -/
theorem witness_Pf32Elementwise : effMode (st 0 0 0).ambientRm 0#3 = some .rne ∧ 0 < 2 ∧ 1 < 2 ∧
    (datum single 0xFF800000#32).isInf = true ∧ (datum single 0x7F7FFFFF#32).isInf = false := by decide
theorem witness_Pf32NeverInfinite : (Instr.pf32Add 0).selector.toNat = 0xD0 ∧ (Instr.pf32Rem 0).selector.toNat = 0xD4 ∧ 1 < 2 ∧
    (∃ t r, exec (.pf32Add 0) (st 0x7F800000 0x3F800000 0) = .next t ∧ t.response = some r) ∧
    ∃ t r, exec (.pf32Rem 0) (st 0x3F800000 0 0) = .next t ∧ t.response = some r :=
  ⟨rfl, rfl, by decide, ⟨_, _, rfl, rfl⟩, ⟨_, _, rfl, rfl⟩⟩
/-- Both lanes; a zero divisor, a NaN, an infinite dividend, an infinite divisor, two finite operands. -/
theorem witness_Pf32Remainder : 0 < 2 ∧ 1 < 2 ∧ (datum single 0x80000000#32).isZero = true ∧
    (datum single 0x40000000#32).isZero = false ∧ (datum single 0x7F800001#32).isNaN = true ∧
    (datum single 0x7F800000#32).isInf = true ∧ (datum single 0x40000000#32).isNaN = false ∧
    (datum single 0x40F00000#32).isFinite = true ∧ (datum single 0x40000000#32).isFinite = true := by decide
theorem witness_SignInjection : 0 < 31 ∧ 30 < 31 ∧ 62 < 63 := by decide
theorem witness_PatternMoves : 0 < 64 ∧ 63 < 64 := by decide

end Sys2Proof.Tests
end

/-! PROOFS. Completion: every way an instruction and a step can end, said once, and the invariant that follows from it. -/

namespace Sys2Proof.Machine

/-- How a request completes (R34, R181, R211): its response, and for some operations a NaN draw or an advance of the
generator. Nothing else of the state is written. -/
inductive State.Completes (s : State) : State → Prop
  | answered (r : Word) (o : Bool) (f : BitVec 5) : s.Completes (s.answeredWith r o f)
  | drawing (r : Word) (f : BitVec 5) : s.Completes (s.answeredDrawing r f)
  | injected (r : Word) (o : Bool) : s.Completes (s.advanceRng.answeredWith r o 0#5)

/-- The outcomes the instruction `i` may have: it completes, or it is refused for a reserved rounding field (R41, R460). -/
inductive MayEnd (i : Instr) (s : State) : Host.Outcome State Fault Refusal → Prop
  | completes {t : State} (h : s.Completes t) : MayEnd i s (.next t)
  | reserved (h : i.wellFormed = false) : MayEnd i s (.refused .reservedRoundingMode)

section
variable {i : Instr} {s t : State}

theorem State.Completes.requests_eq (h : s.Completes t) : t.requests = s.requests := by
  cases h <;> rfl

theorem State.Completes.sameEnvironment (h : s.Completes t) : s.sameEnvironment t := by
  cases h <;> exact ⟨rfl, rfl, rfl⟩

/-! ### The shapes of the meanings -/

theorem MayEnd.answered {r : Word} {o : Bool} {f : BitVec 5} : MayEnd i s (.next (s.answeredWith r o f)) :=
  .completes (.answered r o f)

theorem MayEnd.drawing {r : Word} {f : BitVec 5} : MayEnd i s (.next (s.answeredDrawing r f)) :=
  .completes (.drawing r f)

theorem MayEnd.ite (p : Prop) [Decidable p] {x y : Host.Outcome State Fault Refusal} (hx : MayEnd i s x)
    (hy : MayEnd i s y) : MayEnd i s (if p then x else y) := by
  split
  · exact hx
  · exact hy

theorem MayEnd.withMode (hi : i.rounds = true) {k : RoundMode → State} (hk : ∀ m, s.Completes (k m)) :
    MayEnd i s (withMode i.rm s k) := by
  obtain ⟨m, -, hm⟩ | ⟨hr, hm⟩ := withMode_cases i.rm s k
  · rw [hm]; exact .completes (hk m)
  · rw [hm]; exact .reserved (by simp [Instr.wellFormed, hi, hr])

/-! ### Instructions and steps -/

/-- Every instruction completes or is refused for its rounding field: plain answers, divisions with their special cases,
FAULT_INJECT, then the floating operations by whether they may draw a NaN and whether they read the rounding field. -/
theorem exec_mayEnd (i : Instr) (s : State) : MayEnd i s (exec i s) := by
  cases i with
  | add | sub | mul | mulh | mulhsu | mulhu | and | or | xor | sll | srl | sra | slt | sltu | addw | subw | mulw
    | sllw | srlw | sraw | vadd32 | vsub32 | vmul32 | vdiv32 | vrem32 | vadd16 | vsub16 | vmul16 | vdiv16 | vrem16
    | vmvlo | vmvhi | eccCheck | eccEncode | eccAdapt | fsgnjS | fsgnjnS | fsgnjxS | feqS | fltS | fleS | fclassS
    | fmvXW | fmvWX | fsgnjD | fsgnjnD | fsgnjxD | feqD | fltD | fleD | fclassD | fmvXD | fmvDX | pf32Pack =>
    exact .answered
  | divu | remu | divuw | remw | remuw => exact .ite _ .answered .answered
  | div | rem | divw => exact .ite _ .answered (.ite _ .answered .answered)
  | faultInject => exact .completes (.injected _ _)
  | fminS | fmaxS | fminD | fmaxD | pf32Rem => exact .drawing
  | fcvtWS | fcvtWuS | fcvtLS | fcvtLuS | fcvtSW | fcvtSWu | fcvtSL | fcvtSLu | fcvtWD | fcvtWuD | fcvtLD | fcvtLuD
    | fcvtDW | fcvtDWu | fcvtDL | fcvtDLu =>
    exact .withMode rfl fun _ => .answered _ _ _
  | faddS | fsubS | fmulS | fdivS | fsqrtS | fmaddS | fmsubS | fnmsubS | fnmaddS | faddD | fsubD | fmulD | fdivD
    | fsqrtD | fmaddD | fmsubD | fnmsubD | fnmaddD | bf16Add | bf16Sub | bf16Mul | bf16Div | bf16Dot | pf32Add
    | pf32Sub | pf32Mul | pf32Div =>
    exact .withMode rfl fun _ => .drawing _ _

theorem exec_completes (h : exec i s = .next t) : s.Completes t := by
  have hi := exec_mayEnd i s
  rw [h] at hi
  cases hi with
  | completes ht => exact ht

theorem perform_completes {ctrl : BitVec 11} (h : s.perform ctrl = .next t) : s.Completes t := by
  cases hd : decode ctrl with
  | instr i => exact exec_completes (perform_instr s hd ▸ h)
  | unassigned op =>
    rw [perform_unassigned s hd] at h
    cases h
    exact .answered _ _ _

/-- Every step that is not refused: nothing is issued and nothing changes, or the oldest request is taken and completes. -/
theorem step_cases (h : step s = .next t) :
    (s.requests = [] ∧ t = s) ∨
      ∃ q rest, s.requests = q :: rest ∧ s.inProgress = false ∧
        State.Completes { s with requests := rest, port := q } t := by
  obtain ⟨hr, -⟩ | ⟨q, rest, hr, hp, -⟩ | ⟨q, rest, hr, hp, -⟩ := take_cases s
  · rw [step_idle s hr] at h
    cases h
    exact .inl ⟨hr, rfl⟩
  · rw [step_overlapping s q rest hr hp] at h
    cases h
  · rw [step_taken s q rest hr hp] at h
    exact .inr ⟨q, rest, hr, hp, perform_completes h⟩

/-! ### The invariant -/

theorem State.admissible_iff : s.admissible = true ↔ s.inProgress = false ∧ ∀ q ∈ s.requests, q.admissible = true := by
  simp [State.admissible]

/-- The obligations of R464 and R500 pass to any state of the same environment that has no new request. -/
theorem State.admissible_of_subset (hs : s.admissible = true) (he : s.sameEnvironment t)
    (hr : t.requests ⊆ s.requests) : t.admissible = true := by
  obtain ⟨hp, hq⟩ := State.admissible_iff.mp hs
  obtain ⟨-, -, hip⟩ := he
  exact State.admissible_iff.mpr ⟨hip.trans hp, fun q h => hq q (hr h)⟩

theorem step_sameEnvironment (h : step s = .next t) : s.sameEnvironment t := by
  obtain ⟨-, rfl⟩ | ⟨q, rest, -, -, hc⟩ := step_cases h
  · exact ⟨rfl, rfl, rfl⟩
  · exact hc.sameEnvironment

/-- A step takes the oldest request and issues none (R66). -/
theorem step_requests (h : step s = .next t) : t.requests = s.requests.tail := by
  obtain ⟨hr, rfl⟩ | ⟨q, rest, hr, -, hc⟩ := step_cases h
  · rw [hr, List.tail_nil]
  · rw [hc.requests_eq, hr, List.tail_cons]

end

/-- Settles O17: a step leaves the environment alone and issues no request, so the caller's obligations pass on. -/
theorem stepKeepsInvariant : Obligations.StepKeepsInvariant := by
  intro s t hs h
  have he := step_sameEnvironment h
  have hr : t.requests ⊆ s.requests := step_requests h ▸ List.tail_subset _
  exact ⟨State.admissible_of_subset hs he hr, he⟩

end Sys2Proof.Machine

/-! PROOFS. State: reset, the rounding field (`10_state.md` R39 to R42), which only a selector that rounds reads, and the flags
of a response (R34, R36). -/

namespace Sys2Proof.Machine

/-! ### The rounding field -/

theorem reservedRm_iff {rm : BitVec 3} : reservedRm rm = true ↔ 5 ≤ rm.toNat :=
  decide_eq_true_iff

/-- A selector that rounds answers through `withMode` on its rounding field, and sets no `ovf` (R34, R40, R41). -/
theorem exec_of_rounds {i : Instr} (s : State) (hi : i.rounds = true) :
    ∃ k, exec i s = withMode i.rm s k ∧
      ∀ m, ∃ r f, (k m).response = some { result := r, ovf := false, fflags := f } := by
  cases i with
  | faddS | fsubS | fmulS | fdivS | fsqrtS | fmaddS | fmsubS | fnmsubS | fnmaddS | fcvtWS | fcvtWuS | fcvtLS | fcvtLuS
    | fcvtSW | fcvtSWu | fcvtSL | fcvtSLu | faddD | fsubD | fmulD | fdivD | fsqrtD | fmaddD | fmsubD | fnmsubD | fnmaddD
    | fcvtWD | fcvtWuD | fcvtLD | fcvtLuD | fcvtDW | fcvtDWu | fcvtDL | fcvtDLu | bf16Add | bf16Sub | bf16Mul | bf16Div
    | bf16Dot | pf32Add | pf32Sub | pf32Mul | pf32Div =>
    exact ⟨_, rfl, fun _ => ⟨_, _, rfl⟩⟩
  | _ => cases hi

/-! ### The decoder -/

theorem opField_toNat (w : BitVec 11) : (opField w).toNat = w.toNat % 256 := by
  simp [opField, BitVec.extractLsb'_toNat]

/-- A decoder's table goes by the selector alone: under any other rounding field it finds an instruction too, and one of the
same meaning if the instruction does not round (R42). -/
def SelectsAlone (d : Nat → BitVec 3 → Option Instr) : Prop :=
  ∀ {op rm i}, d op rm = some i → ∀ rm', ∃ j, d op rm' = some j ∧ (i.rounds = false → ∀ s, exec j s = exec i s)

theorem SelectsAlone.eq_none {d : Nat → BitVec 3 → Option Instr} (hd : SelectsAlone d) {op : Nat} {rm : BitVec 3}
    (h : d op rm = none) (rm' : BitVec 3) : d op rm' = none := by
  by_contra hne
  obtain ⟨i, hi⟩ := Option.ne_none_iff_exists'.mp hne
  obtain ⟨j, hj, -⟩ := hd hi rm
  rw [h] at hj
  cases hj

theorem SelectsAlone.or {d e : Nat → BitVec 3 → Option Instr} (hd : SelectsAlone d) (he : SelectsAlone e) :
    SelectsAlone fun op rm => (d op rm).or (e op rm) := by
  intro op rm i h rm'
  obtain h | ⟨hnone, h⟩ := Option.or_eq_some_iff.mp h
  · obtain ⟨j, hj, hexec⟩ := hd h rm'
    exact ⟨j, Option.or_eq_some_iff.mpr (.inl hj), hexec⟩
  · obtain ⟨j, hj, hexec⟩ := he h rm'
    exact ⟨j, Option.or_eq_some_iff.mpr (.inr ⟨hd.eq_none hnone rm', hj⟩), hexec⟩

theorem decodeInteger_selectsAlone : SelectsAlone decodeInteger := by
  intro op rm i h rm'
  unfold decodeInteger at h
  split at h <;> cases h
  all_goals exact ⟨_, rfl, fun _ _ => rfl⟩

theorem decodeIntegerW_selectsAlone : SelectsAlone decodeIntegerW := by
  intro op rm i h rm'
  unfold decodeIntegerW at h
  split at h <;> cases h
  all_goals exact ⟨_, rfl, fun _ _ => rfl⟩

theorem decodeSimd_selectsAlone : SelectsAlone decodeSimd := by
  intro op rm i h rm'
  unfold decodeSimd at h
  split at h <;> cases h
  all_goals exact ⟨_, rfl, fun _ _ => rfl⟩

theorem decodeFaultEcc_selectsAlone : SelectsAlone decodeFaultEcc := by
  intro op rm i h rm'
  unfold decodeFaultEcc at h
  split at h <;> cases h
  all_goals exact ⟨_, rfl, fun _ _ => rfl⟩

theorem decodeSingle_selectsAlone : SelectsAlone decodeSingle := by
  intro op rm i h rm'
  unfold decodeSingle at h
  split at h <;> cases h
  all_goals
    refine ⟨_, rfl, fun hi s => ?_⟩
    cases hi <;> rfl

theorem decodeDouble_selectsAlone : SelectsAlone decodeDouble := by
  intro op rm i h rm'
  unfold decodeDouble at h
  split at h <;> cases h
  all_goals
    refine ⟨_, rfl, fun hi s => ?_⟩
    cases hi <;> rfl

theorem decodeBf16_selectsAlone : SelectsAlone decodeBf16 := by
  intro op rm i h rm'
  unfold decodeBf16 at h
  split at h <;> cases h
  all_goals exact ⟨_, rfl, fun hi => nomatch hi⟩

theorem decodePackedF32_selectsAlone : SelectsAlone decodePackedF32 := by
  intro op rm i h rm'
  unfold decodePackedF32 at h
  split at h <;> cases h
  all_goals
    refine ⟨_, rfl, fun hi s => ?_⟩
    cases hi <;> rfl

theorem decodeSelector_selectsAlone : SelectsAlone decodeSelector :=
  decodeInteger_selectsAlone.or <| decodeIntegerW_selectsAlone.or <| decodeSimd_selectsAlone.or <|
    decodeFaultEcc_selectsAlone.or <| decodeSingle_selectsAlone.or <| decodeDouble_selectsAlone.or <|
      decodeBf16_selectsAlone.or decodePackedF32_selectsAlone

theorem decode_eq_instr_iff {w : BitVec 11} {i : Instr} :
    decode w = .instr i ↔ decodeSelector (opField w).toNat (rmField w) = some i := by
  unfold decode
  split <;> simp_all

/-- Two words of one selector: if one is an instruction so is the other, with the same meaning if it does not round. -/
theorem decode_of_same_selector {w w' : BitVec 11} {i : Instr} (hw : w.toNat % 256 = w'.toNat % 256)
    (h : decode w = .instr i) :
    ∃ j, decode w' = .instr j ∧ (i.rounds = false → ∀ s, exec j s = exec i s) := by
  have hop : (opField w).toNat = (opField w').toNat := by rw [opField_toNat, opField_toNat, hw]
  obtain ⟨j, hj, hexec⟩ := decodeSelector_selectsAlone (decode_eq_instr_iff.mp h) (rmField w')
  rw [hop] at hj
  exact ⟨j, decode_eq_instr_iff.mpr hj, hexec⟩

/-! ### The flags of a response -/

/-- The selectors that may set `ovf` (R36): ADD, SUB, MUL, DIV, their W forms, FAULT_INJECT and ECC_CHECK. -/
def ovfSelectors : List Nat := [0x01, 0x02, 0x03, 0x07, 0x18, 0x19, 0x1A, 0x1B, 0x3C, 0x3D]

theorem lt_of_mem_ovfSelectors : ∀ op ∈ ovfSelectors, op < 0x40 := by decide

/-- What R34 and R36 allow the response of the selector `op` to hold. -/
def Response.FlagsAllowed (op : Nat) (r : Response) : Prop :=
  (op < 0x40 → r.fflags = 0#5) ∧ (0x40 ≤ op → r.ovf = false) ∧ (r.ovf = true → op ∈ ovfSelectors)

/-- If the outcome is a next state, its response satisfies `P`. -/
def Responds (P : Response → Prop) (x : Host.Outcome State Fault Refusal) : Prop :=
  ∀ t r, x = .next t → t.response = some r → P r

section
variable {op : Nat} {P : Response → Prop}

theorem Response.FlagsAllowed.none (v : Word) :
    FlagsAllowed op { result := v, ovf := false, fflags := 0#5 } :=
  ⟨fun _ => rfl, fun _ => rfl, fun h => nomatch h⟩

theorem Response.FlagsAllowed.float (h : 0x40 ≤ op) (v : Word) (f : BitVec 5) :
    FlagsAllowed op { result := v, ovf := false, fflags := f } :=
  ⟨fun hlt => absurd h (Nat.not_le.mpr hlt), fun _ => rfl, fun h => nomatch h⟩

theorem Response.FlagsAllowed.overflow (h : op ∈ ovfSelectors) (v : Word) (o : Bool) :
    FlagsAllowed op { result := v, ovf := o, fflags := 0#5 } :=
  ⟨fun _ => rfl, fun hle => absurd (lt_of_mem_ovfSelectors op h) (Nat.not_lt.mpr hle), fun _ => h⟩

theorem Responds.next {t : State} {r : Response} (ht : t.response = some r) (hr : P r) : Responds P (.next t) := by
  intro t' r' h h'
  cases h
  rw [ht] at h'
  cases h'
  exact hr

theorem Responds.ite (p : Prop) [Decidable p] {x y : Host.Outcome State Fault Refusal} (hx : Responds P x)
    (hy : Responds P y) : Responds P (if p then x else y) := by
  split
  · exact hx
  · exact hy

theorem Responds.of_rounds {i : Instr} (s : State) (hi : i.rounds = true) (hop : 0x40 ≤ op) :
    Responds (Response.FlagsAllowed op) (exec i s) := by
  obtain ⟨k, hk, hresp⟩ := exec_of_rounds s hi
  rw [hk]
  obtain ⟨m, -, hm⟩ | ⟨-, hm⟩ := withMode_cases i.rm s k
  · obtain ⟨v, f, hv⟩ := hresp m
    rw [hm]
    exact .next hv (.float hop v f)
  · rw [hm]
    intro t r h
    cases h

end

/-- Every instruction keeps to R34 and R36: the integer side by whether it may overflow, plain answers before divisions with
their special cases; then the floating side, by whether it rounds. -/
theorem exec_flagsAllowed (i : Instr) (s : State) :
    Responds (Response.FlagsAllowed i.selector.toNat) (exec i s) := by
  cases i with
  | mulh | mulhsu | mulhu | and | or | xor | sll | srl | sra | slt | sltu | sllw | srlw | sraw | vadd32 | vsub32 | vmul32
    | vdiv32 | vrem32 | vadd16 | vsub16 | vmul16 | vdiv16 | vrem16 | vmvlo | vmvhi | eccEncode | eccAdapt =>
    exact .next rfl (.none _)
  | divu | remu | divuw | remw | remuw => exact .ite _ (.next rfl (.none _)) (.next rfl (.none _))
  | rem => exact .ite _ (.next rfl (.none _)) (.ite _ (.next rfl (.none _)) (.next rfl (.none _)))
  | add | sub | mul | addw | subw | mulw | faultInject | eccCheck =>
    exact .next rfl (.overflow (of_decide_eq_true rfl) _ _)
  | div | divw =>
    exact .ite _ (.next rfl (.none _))
      (.ite _ (.next rfl (.overflow (of_decide_eq_true rfl) _ _)) (.next rfl (.none _)))
  | fsgnjS | fsgnjnS | fsgnjxS | fminS | fmaxS | feqS | fltS | fleS | fclassS | fmvXW | fmvWX | fsgnjD | fsgnjnD | fsgnjxD
    | fminD | fmaxD | feqD | fltD | fleD | fclassD | fmvXD | fmvDX | pf32Rem | pf32Pack =>
    exact .next rfl (.float (of_decide_eq_true rfl) _ _)
  | _ => exact .of_rounds s rfl (of_decide_eq_true rfl)

/-! ### The statements -/

/-- Settles O2: nothing is issued at reset, so nothing overlaps and the first step is idle. -/
theorem resetMeetsInvariant : Obligations.ResetMeetsInvariant :=
  ⟨State.admissible_iff.mpr ⟨State.reset_inProgress, fun _ hq => nomatch hq⟩, step_idle _ State.reset_requests⟩

/-- Settles O5: the modes of `rm` 0 to 4 by evaluation, the rest because a reserved field has none. -/
theorem effectiveMode : Obligations.EffectiveMode := by
  intro ambient
  refine ⟨rfl, rfl, rfl, rfl, rfl, fun rm h => ?_⟩
  exact (effMode_eq_none_iff ambient rm).mpr (reservedRm_iff.mpr h)

/-- Settles O11: a selector that rounds asks `withMode` for its mode, which refuses the reserved fields. -/
theorem reservedRoundingRefused : Obligations.ReservedRoundingRefused := by
  intro i s hi hrm
  obtain ⟨k, hk, -⟩ := exec_of_rounds s hi
  rw [hk]
  exact withMode_of_reserved s k (reservedRm_iff.mpr hrm)

/-- Settles O12: words of one selector are both unassigned, or are instructions that differ in `rm` alone. -/
theorem roundingFieldIgnored : Obligations.RoundingFieldIgnored := by
  intro s w w' hw hrounds
  cases hd : decode w with
  | instr i =>
    obtain ⟨j, hj, hexec⟩ := decode_of_same_selector hw hd
    rw [perform_instr s hd, perform_instr s hj, hexec (hrounds i hd)]
  | unassigned op =>
    cases hd' : decode w' with
    | instr j =>
      obtain ⟨i, hi, -⟩ := decode_of_same_selector hw.symm hd'
      rw [hd] at hi
      cases hi
    | unassigned op' => rw [perform_unassigned s hd, perform_unassigned s hd']

/-- Settles O14, by the flags each instruction may set. -/
theorem outputsByFamily : Obligations.OutputsByFamily :=
  fun i s t r hexec hresp => exec_flagsAllowed i s t r hexec hresp

end Sys2Proof.Machine

/-! PROOFS. Requests: a step runs the instruction decoded (`20_memory.md` R66, `30_encoding.md` R83), what a response depends on
(R66), and runs of any length (R460, R464, R500). -/

namespace Sys2Proof.Machine

/-- Settles O9: taking the oldest request hands its control word to the decoder. -/
theorem stepRunsDecoded : Obligations.StepRunsDecoded :=
  fun s q rest _ hr hp hd => (step_taken s q rest hr hp).trans (perform_instr _ hd)

/-! ### What a response depends on -/

/-- `s` with any other queue, serialisation bit, response and generator: the fields a response may not depend on (R66), but for
the generator under FAULT_INJECT. -/
def State.withRest (s : State) (requests : List Request) (inProgress : Bool) (response : Option Response) (rng : RngState) :
    State :=
  { s with requests := requests, inProgress := inProgress, response := response, rng := rng }

/-- States with the same request, mode, parameters and draw counter differ in the other fields only. -/
theorem State.eq_withRest {s s' : State} (hport : s'.port = s.port) (hmode : s'.ambientRm = s.ambientRm)
    (hparams : s'.params = s.params) (hdraws : s'.nanDraws = s.nanDraws) :
    s' = s.withRest s'.requests s'.inProgress s'.response s'.rng := by
  unfold State.withRest
  rw [← hport, ← hmode, ← hparams, ← hdraws]

/-- If both outcomes are next states, they hold the same response. -/
def RespondAlike (x x' : Host.Outcome State Fault Refusal) : Prop :=
  ∀ t t', x = .next t → x' = .next t' → t'.response = t.response

theorem RespondAlike.next {t t' : State} (h : t'.response = t.response) : RespondAlike (.next t) (.next t') := by
  intro u u' hu hu'
  cases hu
  cases hu'
  exact h

theorem RespondAlike.ite (p : Prop) [Decidable p] {x x' y y' : Host.Outcome State Fault Refusal}
    (hx : RespondAlike x x') (hy : RespondAlike y y') :
    RespondAlike (if p then x else y) (if p then x' else y') := by
  split
  · exact hx
  · exact hy

/-- Under one ambient mode `withMode` finds one effective mode, or refuses both times (R40, R41). -/
theorem RespondAlike.withMode {rm : BitVec 3} {s s' : State} (hmode : s'.ambientRm = s.ambientRm)
    {k k' : RoundMode → State} (hk : ∀ m, (k' m).response = (k m).response) :
    RespondAlike (withMode rm s k) (withMode rm s' k') := by
  obtain ⟨m, hm, hs⟩ | ⟨-, hs⟩ := withMode_cases rm s k
  · rw [hs, withMode_of_some k' (hmode ▸ hm)]
    exact .next (hk m)
  · rw [hs]
    intro t t' h
    cases h

/-- Every meaning reads the port, the mode, the parameters and the draw counter alone, and FAULT_INJECT the generator too: plain
answers, divisions with their special cases, FAULT_INJECT, then the selectors that round. -/
theorem exec_respondAlike (i : Instr) (s : State) (reqs : List Request) (p : Bool) (o : Option Response) (g : RngState)
    (hg : (∃ rm, i = .faultInject rm) → g = s.rng) :
    RespondAlike (exec i s) (exec i (s.withRest reqs p o g)) := by
  cases i with
  | add | sub | mul | mulh | mulhsu | mulhu | and | or | xor | sll | srl | sra | slt | sltu | addw | subw | mulw
    | sllw | srlw | sraw | vadd32 | vsub32 | vmul32 | vdiv32 | vrem32 | vadd16 | vsub16 | vmul16 | vdiv16 | vrem16
    | vmvlo | vmvhi | eccCheck | eccEncode | eccAdapt | fsgnjS | fsgnjnS | fsgnjxS | fminS | fmaxS | feqS | fltS | fleS
    | fclassS | fmvXW | fmvWX | fsgnjD | fsgnjnD | fsgnjxD | fminD | fmaxD | feqD | fltD | fleD | fclassD | fmvXD | fmvDX
    | pf32Rem | pf32Pack =>
    exact .next rfl
  | divu | remu | divuw | remw | remuw => exact .ite _ (.next rfl) (.next rfl)
  | div | rem | divw => exact .ite _ (.next rfl) (.ite _ (.next rfl) (.next rfl))
  | faultInject rm =>
    cases hg ⟨rm, rfl⟩
    exact .next rfl
  | _ => exact .withMode rfl fun _ => rfl

/-- Settles O16: the two states differ only in fields no meaning reads. -/
theorem responseIsOfTheRequest : Obligations.ResponseIsOfTheRequest := by
  intro i s s' t t' hport hmode hparams hdraws hrng ht ht'
  rw [State.eq_withRest hport hmode hparams hdraws] at ht'
  exact exec_respondAlike i s _ _ _ _ hrng t t' ht ht'

/-! ### Runs -/

section
variable {s t u : State}

theorem State.Completes.response_ne_none (h : s.Completes t) : t.response ≠ none := by
  cases h <;> exact Option.some_ne_none _

/-- A well-formed instruction is not refused (R41, R460). -/
theorem exec_of_wellFormed {i : Instr} (s : State) (hi : i.wellFormed = true) : ∃ t, exec i s = .next t := by
  have h := exec_mayEnd i s
  generalize exec i s = x at h
  cases h with
  | completes _ => exact ⟨_, rfl⟩
  | reserved hr => rw [hi] at hr; cases hr

/-- An admissible request is answered, an unassigned selector's included (R84, R460). -/
theorem perform_of_admissible {q : Request} (s : State) (hq : q.admissible = true) : ∃ t, s.perform q.ctrl = .next t := by
  unfold Request.admissible at hq
  cases hd : decode q.ctrl with
  | instr i =>
    rw [hd] at hq
    rw [perform_instr s hd]
    exact exec_of_wellFormed s hq
  | unassigned op => exact ⟨_, perform_unassigned s hd⟩

/-- A step from an admissible state does not stop (R464, R500). -/
theorem step_of_admissible (hs : s.admissible = true) : ∃ t, step s = .next t := by
  obtain ⟨hp, hall⟩ := State.admissible_iff.mp hs
  cases hr : s.requests with
  | nil => exact ⟨s, step_idle s hr⟩
  | cons q rest =>
    rw [step_taken s q rest hr hp]
    exact perform_of_admissible _ (hall q (hr ▸ List.mem_cons_self))

/-- A step that takes a request gives a response, and an idle one keeps the response there was (assumption log 5). -/
theorem step_response_ne_none (h : step s = .next t) (hs : s.requests ≠ [] ∨ s.response ≠ none) : t.response ≠ none := by
  obtain ⟨hr, rfl⟩ | ⟨q, rest, -, -, hc⟩ := step_cases h
  · exact hs.resolve_left (not_not_intro hr)
  · exact hc.response_ne_none

theorem State.sameEnvironment.trans (h : s.sameEnvironment t) (h' : t.sameEnvironment u) : s.sameEnvironment u := by
  obtain ⟨hmode, hparams, hp⟩ := h
  obtain ⟨hmode', hparams', hp'⟩ := h'
  exact ⟨hmode'.trans hmode, hparams'.trans hparams, hp'.trans hp⟩

/-- What `k` steps from `s` make of it. A response once given is never lost, which carries a run over its idle steps. -/
structure State.RunsTo (s : State) (k : Nat) (t : State) : Prop where
  requests : t.requests = s.requests.drop k
  admissible : t.admissible = true
  environment : s.sameEnvironment t
  keepsResponse : s.response ≠ none → t.response ≠ none
  responds : 0 < k → s.requests ≠ [] → t.response ≠ none

theorem State.RunsTo.zero (hs : s.admissible = true) : s.RunsTo 0 s where
  requests := rfl
  admissible := hs
  environment := ⟨rfl, rfl, rfl⟩
  keepsResponse := id
  responds := fun h => absurd h (Nat.lt_irrefl 0)

/-- One step before a run: a response it gives or keeps is kept by the run. -/
theorem State.RunsTo.succ {k : Nat} (h : step s = .next t) (ht : t.RunsTo k u) : s.RunsTo (k + 1) u where
  requests := by rw [ht.requests, step_requests h, List.drop_tail]
  admissible := ht.admissible
  environment := (step_sameEnvironment h).trans ht.environment
  keepsResponse := fun hr => ht.keepsResponse (step_response_ne_none h (.inr hr))
  responds := fun _ hr => ht.keepsResponse (step_response_ne_none h (.inl hr))

theorem run_succ {M : Host.Core} {x y : M.State} (k : Nat) (h : M.step x = .next y) : M.run (k + 1) x = M.run k y := by
  rw [Host.Core.run, h]

/-- A run from an admissible state does not stop, however long it is. -/
theorem run_of_admissible (k : Nat) : ∀ s : State, s.admissible = true → ∃ t, core.run k s = .next t ∧ s.RunsTo k t := by
  induction k with
  | zero => exact fun s hs => ⟨s, rfl, .zero hs⟩
  | succ k ih =>
    intro s hs
    obtain ⟨t, ht⟩ := step_of_admissible hs
    obtain ⟨hta, -⟩ := stepKeepsInvariant s t hs ht
    obtain ⟨u, hu, htu⟩ := ih t hta
    exact ⟨u, (run_succ k ht).trans hu, .succ ht htu⟩

end

/-- Settles O18, by induction on the number of steps. -/
theorem runsNeverStop : Obligations.RunsNeverStop := by
  intro k s hs
  obtain ⟨t, ht, hrun⟩ := run_of_admissible k s hs
  exact ⟨t, ht, hrun.requests, hrun.admissible, hrun.environment, hrun.responds⟩

end Sys2Proof.Machine

/-! PROOFS. Encoding: the decoder reads back what the encoder writes and nothing else (`30_encoding.md` R80, R86, R88), and the
selectors left unassigned (R82, R84). -/

namespace Sys2Proof.Machine

/-! ### The decoder's tables -/

/-- A decoder's table names the selectors `A`: what it finds has the selector and the rounding field it was asked for, and it
finds nothing only outside `A`. -/
def NamesSelectors (d : Nat → BitVec 3 → Option Instr) (A : Nat → Prop) : Prop :=
  ∀ op rm, (∃ i, d op rm = some i ∧ i.selector.toNat = op ∧ i.rm = rm) ∨ (d op rm = none ∧ ¬ A op)

theorem NamesSelectors.or {d e : Nat → BitVec 3 → Option Instr} {A B : Nat → Prop} (hd : NamesSelectors d A)
    (he : NamesSelectors e B) : NamesSelectors (fun op rm => (d op rm).or (e op rm)) fun op => A op ∨ B op := by
  intro op rm
  obtain ⟨i, hi, hfields⟩ | ⟨hnone, hA⟩ := hd op rm
  · exact .inl ⟨i, Option.or_eq_some_iff.mpr (.inl hi), hfields⟩
  · obtain ⟨i, hi, hfields⟩ | ⟨hnone', hB⟩ := he op rm
    · exact .inl ⟨i, Option.or_eq_some_iff.mpr (.inr ⟨hnone, hi⟩), hfields⟩
    · exact .inr ⟨Option.or_eq_none_iff.mpr ⟨hnone, hnone'⟩, not_or.mpr ⟨hA, hB⟩⟩

theorem decodeInteger_names : NamesSelectors decodeInteger fun op => 0x01 ≤ op ∧ op ≤ 0x12 := by
  intro op rm
  unfold decodeInteger
  split
  case h_19 => exact .inr ⟨rfl, by simp only [imp_false] at *; omega⟩
  all_goals exact .inl ⟨_, rfl, rfl, rfl⟩

theorem decodeIntegerW_names : NamesSelectors decodeIntegerW fun op => 0x18 ≤ op ∧ op ≤ 0x21 := by
  intro op rm
  unfold decodeIntegerW
  split
  case h_11 => exact .inr ⟨rfl, by simp only [imp_false] at *; omega⟩
  all_goals exact .inl ⟨_, rfl, rfl, rfl⟩

theorem decodeSimd_names : NamesSelectors decodeSimd fun op =>
    (0x28 ≤ op ∧ op ≤ 0x2C) ∨ (0x30 ≤ op ∧ op ≤ 0x34) ∨ (0x38 ≤ op ∧ op ≤ 0x39) := by
  intro op rm
  unfold decodeSimd
  split
  case h_13 => exact .inr ⟨rfl, by simp only [imp_false] at *; omega⟩
  all_goals exact .inl ⟨_, rfl, rfl, rfl⟩

theorem decodeFaultEcc_names : NamesSelectors decodeFaultEcc fun op => 0x3C ≤ op ∧ op ≤ 0x3F := by
  intro op rm
  unfold decodeFaultEcc
  split
  case h_5 => exact .inr ⟨rfl, by simp only [imp_false] at *; omega⟩
  all_goals exact .inl ⟨_, rfl, rfl, rfl⟩

theorem decodeSingle_names : NamesSelectors decodeSingle fun op => 0x40 ≤ op ∧ op ≤ 0x5B := by
  intro op rm
  unfold decodeSingle
  split
  case h_29 => exact .inr ⟨rfl, by simp only [imp_false] at *; omega⟩
  all_goals exact .inl ⟨_, rfl, rfl, rfl⟩

theorem decodeDouble_names : NamesSelectors decodeDouble fun op => 0x80 ≤ op ∧ op ≤ 0x9B := by
  intro op rm
  unfold decodeDouble
  split
  case h_29 => exact .inr ⟨rfl, by simp only [imp_false] at *; omega⟩
  all_goals exact .inl ⟨_, rfl, rfl, rfl⟩

theorem decodeBf16_names : NamesSelectors decodeBf16 fun op => 0xC0 ≤ op ∧ op ≤ 0xC4 := by
  intro op rm
  unfold decodeBf16
  split
  case h_6 => exact .inr ⟨rfl, by simp only [imp_false] at *; omega⟩
  all_goals exact .inl ⟨_, rfl, rfl, rfl⟩

theorem decodePackedF32_names : NamesSelectors decodePackedF32 fun op => 0xD0 ≤ op ∧ op ≤ 0xD5 := by
  intro op rm
  unfold decodePackedF32
  split
  case h_7 => exact .inr ⟨rfl, by simp only [imp_false] at *; omega⟩
  all_goals exact .inl ⟨_, rfl, rfl, rfl⟩

/-- The eight tables together leave out only selectors of R82's list. -/
theorem decodeSelector_names : NamesSelectors decodeSelector fun op => op < 256 ∧ ¬ UnassignedSelector op := by
  intro op rm
  obtain hfound | ⟨hnone, hout⟩ :=
    (decodeInteger_names.or <| decodeIntegerW_names.or <| decodeSimd_names.or <| decodeFaultEcc_names.or <|
      decodeSingle_names.or <| decodeDouble_names.or <| decodeBf16_names.or decodePackedF32_names) op rm
  · exact .inl hfound
  · exact .inr ⟨hnone, by omega⟩

/-! ### Control words -/

/-- A control word is its two fields put together (R80). -/
theorem rmField_append_opField (w : BitVec 11) : rmField w ++ opField w = w := by
  obtain ⟨-, -, h⟩ := Laws.EncodedFields.of_append (opField w) (rmField w)
  apply BitVec.eq_of_toNat_eq
  rw [h, opField_toNat, rmField, BitVec.extractLsb'_toNat, Nat.shiftRight_eq_div_pow]
  omega

theorem encode_toNat_mod (i : Instr) : (encode i).toNat % 256 = i.selector.toNat := by
  obtain ⟨hop, -⟩ := Laws.EncodedFields.of_append i.selector i.rm
  rw [← opField_toNat]
  exact congrArg BitVec.toNat hop

/-- Everything a control word can decode to: the instruction it encodes, or a selector of R82's list. -/
theorem decode_cases (w : BitVec 11) :
    (∃ i, decode w = .instr i ∧ encode i = w) ∨
      (decode w = .unassigned (opField w) ∧ UnassignedSelector (w.toNat % 256)) := by
  obtain ⟨i, hi, hop, hrm⟩ | ⟨hnone, hout⟩ := decodeSelector_names (opField w).toNat (rmField w)
  · refine .inl ⟨i, decode_eq_instr_iff.mpr hi, ?_⟩
    rw [encode, BitVec.eq_of_toNat_eq hop, hrm, rmField_append_opField]
  · rw [opField_toNat] at hout
    exact .inr ⟨by rw [decode, hnone], by omega⟩

/-- The selector of every operation is found in the tables, under its own operation (R88). -/
theorem decodeSelector_selector (i : Instr) : decodeSelector i.selector.toNat i.rm = some i := by
  cases i <;> rfl

/-- No operation has a selector of R82's list. -/
theorem selector_assigned (i : Instr) : ¬ UnassignedSelector i.selector.toNat := by
  cases i <;> exact of_decide_eq_true rfl

theorem decode_encode (i : Instr) : decode (encode i) = .instr i := by
  obtain ⟨hop, hrm, -⟩ := Laws.EncodedFields.of_append i.selector i.rm
  rw [decode_eq_instr_iff, encode, hop, hrm, decodeSelector_selector]

/-- Decoding and encoding are inverse to each other where a word is an instruction (R86). -/
theorem decode_eq_instr_iff_encode {w : BitVec 11} {i : Instr} : decode w = .instr i ↔ encode i = w := by
  constructor
  · intro h
    obtain ⟨j, hj, hw⟩ | ⟨hu, -⟩ := decode_cases w
    · rw [h] at hj
      cases hj
      exact hw
    · rw [h] at hu
      cases hu
  · rintro rfl
    exact decode_encode i

theorem exists_decode_unassigned_iff {w : BitVec 11} :
    (∃ op, decode w = .unassigned op) ↔ UnassignedSelector (w.toNat % 256) := by
  obtain ⟨i, hi, rfl⟩ | ⟨hu, hsel⟩ := decode_cases w
  · rw [encode_toNat_mod]
    refine iff_of_false ?_ (selector_assigned i)
    rintro ⟨op, hop⟩
    rw [hi] at hop
    cases hop
  · exact ⟨fun _ => hsel, fun _ => ⟨_, hu⟩⟩

/-- An operation with the selector `op`, whatever its rounding field, is what `op` selects. -/
theorem Selects.of_fields {op : BitVec 8} {f : BitVec 3 → Instr} (h : ∀ rm, (f rm).selector = op ∧ (f rm).rm = rm) :
    Selects op f := by
  intro rm
  obtain ⟨hop, hrm⟩ := h rm
  have hw : encode (f rm) = rm ++ op := by rw [encode, hop, hrm]
  exact ⟨decode_eq_instr_iff_encode.mpr hw, hw⟩

/-! ### The statements -/

/-- Settles O6, by what a control word can decode to and the tables' entry of each operation. -/
theorem decodeEncodeAgree : Obligations.DecodeEncodeAgree :=
  ⟨decode_encode, fun _ _ => decode_eq_instr_iff_encode.mp⟩

/-- Settles O7: the tables find nothing only on R82's list, and no operation stands on it. -/
theorem unassignedSelectors : Obligations.UnassignedSelectors :=
  fun _ => exists_decode_unassigned_iff

/-- Settles O8: a selector of R82's list decodes to no instruction, and the step answers it with zeros. -/
theorem unassignedAnswersZero : Obligations.UnassignedAnswersZero := by
  intro s q rest hr hp hq
  obtain ⟨op, hop⟩ := exists_decode_unassigned_iff.mpr hq
  rw [step_taken s q rest hr hp]
  exact perform_unassigned _ hop

/-- Settles O3: eight of the words are the encodings of their operations, and the last one's selector is on R82's list. -/
theorem wordsDecode : Obligations.WordsDecode := by
  unfold Obligations.WordsDecode
  simp only [decode_eq_instr_iff_encode]
  exact ⟨rfl, rfl, rfl, rfl, rfl, rfl, rfl, rfl, rfl⟩

/-- Settles O4: each row's operation has the row's selector, whatever its rounding field. -/
theorem selectorMap : Obligations.SelectorMap := by
  unfold Obligations.SelectorMap
  simp only [List.forall_mem_append, List.forall_mem_cons, List.not_mem_nil, false_imp_iff, implies_true, and_true]
  and_intros
  all_goals
    refine Selects.of_fields ?_
    exact fun _ => ⟨rfl, rfl⟩

end Sys2Proof.Machine

/-! PROOFS. IntegerScalar: what each integer selector answers, as an operation on bit vectors, first the 64-bit forms and then
the W forms (`40_integer_scalar.md` R100 to R131), and the statements about them. -/

namespace Sys2Proof.Machine

/-- Two integer answers with equal results are one outcome: how a meaning's exact integer becomes a bit-vector operation. -/
theorem next_answeredWith_congr (s : State) (o : Bool) {r r' : Word} (h : r = r') :
    (.next (s.answeredWith r o 0#5) : Host.Outcome State Fault Refusal) = .next (s.answeredWith r' o 0#5) := by
  rw [h]

/-! ### Truth values -/

theorem boolWord_decide (p : Prop) [Decidable p] : boolWord (decide p) = if p then 1#64 else 0#64 := by
  simp [boolWord]

/-! ### The high half of a product -/

/-- A remainder by a square, from the two remainders by its root. -/
theorem emod_mul_self {m : Int} (hm : 0 < m) (z : Int) : z % (m * m) = z / m % m * m + z % m := by
  have hlo := Int.emod_nonneg z hm.ne'
  have hlo' := Int.emod_lt_of_pos z hm
  have hhi := Int.emod_nonneg (z / m) hm.ne'
  have hhi' := Int.emod_lt_of_pos (z / m) hm
  refine ((Int.ediv_emod_unique (mul_pos hm hm) (q := z / m / m)).mpr ⟨?_, by positivity, by nlinarith⟩).2
  linear_combination m * Int.emod_add_mul_ediv (z / m) m + Int.emod_add_mul_ediv z m

/-- The two halves of an exact integer, side by side, are the integer at twice the width (R105 to R107). -/
theorem ofInt_high_append_low (w : Nat) (z : Int) :
    BitVec.ofInt w (z / 2 ^ w) ++ BitVec.ofInt w z = BitVec.ofInt (w + w) z := by
  have hpos : (0 : Int) < 2 ^ w := by positivity
  apply BitVec.eq_of_toNat_eq
  rw [BitVec.toNat_append, ← Nat.shiftLeft_add_eq_or_of_lt (BitVec.isLt _), Nat.shiftLeft_eq]
  zify
  simp only [BitVec.toNat_ofInt, pow_add, Nat.cast_mul, Nat.cast_pow, Nat.cast_ofNat]
  rw [Int.toNat_of_nonneg (Int.emod_nonneg _ hpos.ne'), Int.toNat_of_nonneg (Int.emod_nonneg _ hpos.ne'),
    Int.toNat_of_nonneg (Int.emod_nonneg _ (mul_pos hpos hpos).ne'), emod_mul_self hpos]

/-- A high half is what stands over the low product in the exact product of the operands' readings `x` and `y`. -/
theorem high_append_low {a b : Word} {x y : Int} (ha : BitVec.ofInt 64 x = a) (hb : BitVec.ofInt 64 y = b) :
    BitVec.ofInt 64 (x * y / 2 ^ 64) ++ (a * b) = BitVec.ofInt 128 x * BitVec.ofInt 128 y := by
  rw [← ha, ← hb, ← BitVec.ofInt_mul, ← BitVec.ofInt_mul]
  exact ofInt_high_append_low 64 (x * y)

theorem ofInt_toNat {v w : Nat} (x : BitVec w) : BitVec.ofInt v x.toNat = x.setWidth v := by
  rw [BitVec.ofInt_natCast, BitVec.ofNat_toNat]

/-! ### Division -/

section
variable {w : Nat} {x y : BitVec w}

/-- The one pair whose exact quotient does not fit: the smallest value by -1 (R131). -/
abbrev QuotientOverflows (x y : BitVec w) : Prop := x.toInt = -2 ^ (w - 1) ∧ y.toInt = -1

/-- The signed quotient with the corners of R131's table (R108, R124). -/
def signedQuotient (x y : BitVec w) : BitVec w :=
  if y = 0#w then 0#w else if QuotientOverflows x y then BitVec.intMax w else x.sdiv y

/-- The signed remainder with the corners of R131's table (R110, R126). -/
def signedRemainder (x y : BitVec w) : BitVec w := if y = 0#w ∨ QuotientOverflows x y then 0#w else x.srem y

/-- The unsigned remainder, 0 for a zero divisor (R111, R127). -/
def unsignedRemainder (x y : BitVec w) : BitVec w := if y = 0#w then 0#w else x % y

theorem not_quotientOverflows_zero (x : BitVec w) : ¬ QuotientOverflows x 0#w := by
  simp [QuotientOverflows]

theorem ofInt_tdiv_toInt (x y : BitVec w) : BitVec.ofInt w (x.toInt.tdiv y.toInt) = x.sdiv y := by
  apply BitVec.eq_of_toInt_eq
  rw [BitVec.toInt_sdiv, BitVec.toInt_ofInt]

theorem ofInt_sub_tdiv_mul_toInt (x y : BitVec w) :
    BitVec.ofInt w (x.toInt - x.toInt.tdiv y.toInt * y.toInt) = x.srem y := by
  have hmod : x.toInt - x.toInt.tdiv y.toInt * y.toInt = x.toInt.tmod y.toInt := by
    rw [sub_eq_iff_eq_add', Int.tdiv_mul_add_tmod]
  rw [hmod, ← BitVec.toInt_srem, BitVec.ofInt_toInt]

/-- The branches of the signed quotients' meanings, whatever `f` makes of a quotient and its overflow (R108, R124). -/
theorem signedQuotient_branches {α : Type} (f : BitVec w → Bool → α) (x y : BitVec w) :
    (if y = 0#w then f 0#w false
      else if QuotientOverflows x y then f (BitVec.intMax w) true
      else f (BitVec.ofInt w (x.toInt.tdiv y.toInt)) false) =
    f (signedQuotient x y) (decide (QuotientOverflows x y)) := by
  unfold signedQuotient
  split_ifs with hy ho
  · subst hy
    rw [decide_eq_false (not_quotientOverflows_zero x)]
  · rw [decide_eq_true ho]
  · rw [decide_eq_false ho, ofInt_tdiv_toInt]

/-- The branches of REMW, whatever `f` makes of a remainder (R126). -/
theorem signedRemainder_branches {α : Type} (f : BitVec w → α) (x y : BitVec w) :
    (if y = 0#w ∨ QuotientOverflows x y then f 0#w
      else f (BitVec.ofInt w (x.toInt - x.toInt.tdiv y.toInt * y.toInt))) = f (signedRemainder x y) := by
  rw [ofInt_sub_tdiv_mul_toInt, signedRemainder, apply_ite f]

theorem toInt_sdiv_of_not_overflows (hw : 0 < w) (ho : ¬ QuotientOverflows x y) :
    (x.sdiv y).toInt = x.toInt.tdiv y.toInt := by
  apply BitVec.toInt_sdiv_of_ne_or_ne
  by_contra! h
  obtain ⟨rfl, rfl⟩ := h
  refine ho ⟨BitVec.toInt_intMin_of_pos hw, ?_⟩
  rw [BitVec.neg_one_eq_allOnes, BitVec.toInt_allOnes, if_pos hw]

theorem abs_tmod_lt (a : Int) {b : Int} (hb : b ≠ 0) : |a.tmod b| < |b| := by
  rw [Int.abs_eq_natAbs, Int.abs_eq_natAbs, Int.natAbs_tmod]
  exact_mod_cast Nat.mod_lt _ (Int.natAbs_pos.mpr hb)

/-- A remainder that is not zero has the dividend's sign. -/
theorem tmod_neg_iff {a b : Int} (h : a.tmod b ≠ 0) : a.tmod b < 0 ↔ a < 0 := by
  have hsign : (a.tmod b).sign = a.sign := by
    rw [Int.sign_tmod, if_neg fun hd => h (Int.tmod_eq_zero_of_dvd hd)]
  rw [← Int.sign_eq_neg_one_iff_neg, hsign, Int.sign_eq_neg_one_iff_neg]

/-- What R131's table and the rules of DIV, REM, DIVW, REMW say of a quotient, a remainder and the overflow flag. -/
def SignedDivides (x y q r : BitVec w) (o : Bool) : Prop :=
  (y = 0#w → q = 0#w ∧ o = false ∧ r = 0#w) ∧
  (x.toInt = -2 ^ (w - 1) → y.toInt = -1 → q.toInt = 2 ^ (w - 1) - 1 ∧ o = true ∧ r = 0#w) ∧
  (y ≠ 0#w → ¬ QuotientOverflows x y → o = false ∧ x.toInt = q.toInt * y.toInt + r.toInt ∧ |r.toInt| < |y.toInt| ∧
    (r.toInt ≠ 0 → (r.toInt < 0 ↔ x.toInt < 0)))

/-- The zero divisor, the overflow, and the plain division. -/
theorem signedDivides (hw : 0 < w) (x y : BitVec w) :
    SignedDivides x y (signedQuotient x y) (signedRemainder x y) (decide (QuotientOverflows x y)) := by
  refine ⟨fun hy => ?_, fun hx hy => ?_, fun hy ho => ?_⟩
  · subst hy
    exact ⟨if_pos rfl, decide_eq_false (not_quotientOverflows_zero x), if_pos (.inl rfl)⟩
  · have hne : y ≠ 0#w := by
      rintro rfl
      exact not_quotientOverflows_zero x ⟨hx, hy⟩
    rw [signedQuotient, if_neg hne, if_pos ⟨hx, hy⟩]
    exact ⟨BitVec.toInt_intMax, decide_eq_true ⟨hx, hy⟩, if_pos (.inr ⟨hx, hy⟩)⟩
  · rw [signedQuotient, if_neg hy, if_neg ho, signedRemainder, if_neg (not_or.mpr ⟨hy, ho⟩),
      toInt_sdiv_of_not_overflows hw ho, BitVec.toInt_srem]
    exact ⟨decide_eq_false ho, (Int.tdiv_mul_add_tmod _ _).symm, abs_tmod_lt _ (toInt_ne_zero y hy), tmod_neg_iff⟩

/-- The branches of the unsigned quotients' meanings, whatever `f` makes of a quotient (R109, R125). -/
theorem unsignedQuotient_branches {α : Type} (f : BitVec w → α) (x y : BitVec w) :
    (if y = 0#w then f 0#w else f (BitVec.ofNat w (x.toNat / y.toNat))) = f (x / y) := by
  split_ifs with hy
  · rw [hy, BitVec.udiv_zero]
  · rw [← BitVec.udiv_def]

/-- The branches of the unsigned remainders' meanings, whatever `f` makes of a remainder (R111, R127). -/
theorem unsignedRemainder_branches {α : Type} (f : BitVec w → α) (x y : BitVec w) :
    (if y = 0#w then f 0#w else f (BitVec.ofNat w (x.toNat % y.toNat))) = f (unsignedRemainder x y) := by
  rw [← BitVec.umod_def, unsignedRemainder, apply_ite f]

/-- The zero divisor, and the floor quotient with its remainder. -/
theorem unsignedDivides (x y : BitVec w) :
    (y = 0#w → x / y = 0#w ∧ unsignedRemainder x y = 0#w) ∧
    (y ≠ 0#w → x.toNat = (x / y).toNat * y.toNat + (unsignedRemainder x y).toNat ∧
      (unsignedRemainder x y).toNat < y.toNat) := by
  refine ⟨fun hy => ?_, fun hy => ?_⟩
  · subst hy
    exact ⟨BitVec.udiv_zero, if_pos rfl⟩
  · have hpos : 0 < y.toNat := Nat.pos_of_ne_zero fun h => hy (BitVec.eq_of_toNat_eq h)
    rw [unsignedRemainder, if_neg hy, BitVec.toNat_udiv, BitVec.toNat_umod]
    exact ⟨(Nat.div_add_mod' _ _).symm, Nat.mod_lt _ hpos⟩

end

/-! ### What the 64-bit selectors answer -/

section
variable (rm : BitVec 3) (s : State)

theorem exec_add : exec (.add rm) s =
    .next (s.answeredWith (s.port.a + s.port.b) (signedOverflow 64 (s.port.a.toInt + s.port.b.toInt)) 0#5) :=
  next_answeredWith_congr s _ (ofInt_add_toInt _ _)

theorem exec_sub : exec (.sub rm) s =
    .next (s.answeredWith (s.port.a - s.port.b) (signedOverflow 64 (s.port.a.toInt - s.port.b.toInt)) 0#5) :=
  next_answeredWith_congr s _ (ofInt_sub_toInt _ _)

theorem exec_mul : exec (.mul rm) s =
    .next (s.answeredWith (s.port.a * s.port.b) (signedOverflow 64 (s.port.a.toInt * s.port.b.toInt)) 0#5) :=
  next_answeredWith_congr s _ (ofInt_mul_toInt _ _)

theorem exec_mulh : exec (.mulh rm) s =
    .next (s.answeredWith (BitVec.ofInt 64 (s.port.a.toInt * s.port.b.toInt / 2 ^ 64)) false 0#5) := rfl

theorem exec_mulhsu : exec (.mulhsu rm) s =
    .next (s.answeredWith (BitVec.ofInt 64 (s.port.a.toInt * s.port.b.toNat / 2 ^ 64)) false 0#5) := rfl

theorem exec_mulhu : exec (.mulhu rm) s =
    .next (s.answeredWith (BitVec.ofInt 64 (s.port.a.toNat * s.port.b.toNat / 2 ^ 64)) false 0#5) := rfl

theorem exec_div : exec (.div rm) s = .next (s.answeredWith (signedQuotient s.port.a s.port.b)
    (decide (QuotientOverflows s.port.a s.port.b)) 0#5) :=
  signedQuotient_branches (fun q o => Host.Outcome.next (s.answerInt q o)) s.port.a s.port.b

theorem exec_rem : exec (.rem rm) s = .next (s.answeredWith (signedRemainder s.port.a s.port.b) false 0#5) := by
  refine Eq.trans ?_ (signedRemainder_branches (fun r => Host.Outcome.next (s.answerInt r false)) s.port.a s.port.b)
  exact (ite_or _ _ _ _).symm

theorem exec_divu : exec (.divu rm) s = .next (s.answeredWith (s.port.a / s.port.b) false 0#5) :=
  unsignedQuotient_branches (fun q => Host.Outcome.next (s.answerInt q false)) s.port.a s.port.b

theorem exec_remu : exec (.remu rm) s = .next (s.answeredWith (unsignedRemainder s.port.a s.port.b) false 0#5) :=
  unsignedRemainder_branches (fun r => Host.Outcome.next (s.answerInt r false)) s.port.a s.port.b

theorem exec_sll : exec (.sll rm) s = .next (s.answeredWith (s.port.a <<< (s.port.b.toNat % 64)) false 0#5) :=
  next_answeredWith_congr s _ <| shamt64_eq s.port.b ▸ ofNat_mul_pow s.port.a (shamt64 s.port.b)

theorem exec_srl : exec (.srl rm) s = .next (s.answeredWith (s.port.a >>> (s.port.b.toNat % 64)) false 0#5) :=
  next_answeredWith_congr s _ <| shamt64_eq s.port.b ▸ ofNat_div_pow s.port.a (shamt64 s.port.b)

theorem exec_sra : exec (.sra rm) s = .next (s.answeredWith (s.port.a.sshiftRight (s.port.b.toNat % 64)) false 0#5) :=
  next_answeredWith_congr s _ <| shamt64_eq s.port.b ▸ ofInt_div_pow s.port.a (shamt64 s.port.b)

theorem exec_slt : exec (.slt rm) s =
    .next (s.answeredWith (if s.port.a.toInt < s.port.b.toInt then 1#64 else 0#64) false 0#5) :=
  next_answeredWith_congr s _ (boolWord_decide _)

theorem exec_sltu : exec (.sltu rm) s =
    .next (s.answeredWith (if s.port.a.toNat < s.port.b.toNat then 1#64 else 0#64) false 0#5) :=
  next_answeredWith_congr s _ (boolWord_decide _)

/-! ### What the W selectors answer -/

theorem exec_addw : exec (.addw rm) s =
    .next (s.answeredWith ((low32 s.port.a + low32 s.port.b).signExtend 64)
      (signedOverflow 32 ((low32 s.port.a).toInt + (low32 s.port.b).toInt)) 0#5) :=
  next_answeredWith_congr s _ (congrArg sext64 (ofInt_add_toInt _ _))

theorem exec_subw : exec (.subw rm) s =
    .next (s.answeredWith ((low32 s.port.a - low32 s.port.b).signExtend 64)
      (signedOverflow 32 ((low32 s.port.a).toInt - (low32 s.port.b).toInt)) 0#5) :=
  next_answeredWith_congr s _ (congrArg sext64 (ofInt_sub_toInt _ _))

theorem exec_mulw : exec (.mulw rm) s =
    .next (s.answeredWith ((low32 s.port.a * low32 s.port.b).signExtend 64)
      (signedOverflow 32 ((low32 s.port.a).toInt * (low32 s.port.b).toInt)) 0#5) :=
  next_answeredWith_congr s _ (congrArg sext64 (ofInt_mul_toInt _ _))

theorem exec_divw : exec (.divw rm) s =
    .next (s.answeredWith ((signedQuotient (low32 s.port.a) (low32 s.port.b)).signExtend 64)
      (decide (QuotientOverflows (low32 s.port.a) (low32 s.port.b))) 0#5) :=
  signedQuotient_branches (fun q o => Host.Outcome.next (s.answerW q o)) s.aw s.bw

theorem exec_remw : exec (.remw rm) s =
    .next (s.answeredWith ((signedRemainder (low32 s.port.a) (low32 s.port.b)).signExtend 64) false 0#5) :=
  signedRemainder_branches (fun r => Host.Outcome.next (s.answerW r false)) s.aw s.bw

theorem exec_divuw : exec (.divuw rm) s =
    .next (s.answeredWith ((low32 s.port.a / low32 s.port.b).signExtend 64) false 0#5) :=
  unsignedQuotient_branches (fun q => Host.Outcome.next (s.answerW q false)) s.aw s.bw

theorem exec_remuw : exec (.remuw rm) s =
    .next (s.answeredWith ((unsignedRemainder (low32 s.port.a) (low32 s.port.b)).signExtend 64) false 0#5) :=
  unsignedRemainder_branches (fun r => Host.Outcome.next (s.answerW r false)) s.aw s.bw

theorem exec_sllw : exec (.sllw rm) s =
    .next (s.answeredWith ((low32 s.port.a <<< (s.port.b.toNat % 32)).signExtend 64) false 0#5) :=
  next_answeredWith_congr s _ <| congrArg sext64 <| shamt32_eq s.port.b ▸ ofNat_mul_pow s.aw (shamt32 s.port.b)

theorem exec_srlw : exec (.srlw rm) s =
    .next (s.answeredWith ((low32 s.port.a >>> (s.port.b.toNat % 32)).signExtend 64) false 0#5) :=
  next_answeredWith_congr s _ <| congrArg sext64 <| shamt32_eq s.port.b ▸ ofNat_div_pow s.aw (shamt32 s.port.b)

theorem exec_sraw : exec (.sraw rm) s =
    .next (s.answeredWith (((low32 s.port.a).sshiftRight (s.port.b.toNat % 32)).signExtend 64) false 0#5) :=
  next_answeredWith_congr s _ <| congrArg sext64 <| shamt32_eq s.port.b ▸ ofInt_div_pow s.aw (shamt32 s.port.b)

end

/-- A W shift amount is read from the low word (R120). -/
theorem toNat_mod_32 (b : Word) : b.toNat % 32 = (low32 b).toNat % 32 := by
  rw [low32, BitVec.extractLsb'_toNat, Nat.shiftRight_zero, Nat.mod_mod_of_dvd _ (by decide)]

/-- Every W form answers from the low words of its operands. -/
theorem exec_respondAlike_of_low32 {i : Instr} {s s' : State} (hlo : 0x18 ≤ i.selector.toNat)
    (hhi : i.selector.toNat ≤ 0x21) (ha : low32 s'.port.a = low32 s.port.a) (hb : low32 s'.port.b = low32 s.port.b) :
    RespondAlike (exec i s) (exec i s') := by
  have hsh : s'.port.b.toNat % 32 = s.port.b.toNat % 32 := by rw [toNat_mod_32, hb, ← toNat_mod_32]
  cases i with
  | addw | subw | mulw | divw | remw | divuw | remuw =>
    simp only [exec_addw, exec_subw, exec_mulw, exec_divw, exec_remw, exec_divuw, exec_remuw, ha, hb]
    exact .next rfl
  | sllw | srlw | sraw =>
    simp only [exec_sllw, exec_srlw, exec_sraw, ha, hsh]
    exact .next rfl
  | _ => exact absurd (And.intro hlo hhi) (of_decide_eq_false rfl)

/-! ### The statements -/

/-- Settles O19, by the answers of ADD, SUB and MUL. -/
theorem addSubMul : Obligations.AddSubMul := by
  refine ⟨?_, ?_, ?_, fun rm s => ⟨⟨_, exec_add rm s, signedOverflow_64 _⟩, ⟨_, exec_sub rm s, signedOverflow_64 _⟩,
    ⟨_, exec_mul rm s, signedOverflow_64 _⟩⟩⟩
  all_goals exact .of_fields fun _ => ⟨rfl, rfl⟩

/-- Settles O20: each reading of an operand wraps to the operand at 64 bits and extends it at 128. -/
theorem multiplyHigh : Obligations.MultiplyHigh := by
  have hu : ∀ v : Word, BitVec.ofInt 64 v.toNat = v := fun v => (ofInt_toNat v).trans (BitVec.setWidth_eq v)
  refine ⟨?_, ?_, ?_, fun rm s => ⟨⟨_, exec_mulh rm s, ?_⟩, ⟨_, exec_mulhsu rm s, ?_⟩, ⟨_, exec_mulhu rm s, ?_⟩⟩⟩
  case refine_4 => exact high_append_low BitVec.ofInt_toInt BitVec.ofInt_toInt
  case refine_5 =>
    rw [← ofInt_toNat]
    exact high_append_low BitVec.ofInt_toInt (hu _)
  case refine_6 =>
    rw [← ofInt_toNat, ← ofInt_toNat]
    exact high_append_low (hu _) (hu _)
  all_goals exact .of_fields fun _ => ⟨rfl, rfl⟩

/-- Settles O21, by R131's table at both widths. -/
theorem signedDivision : Obligations.SignedDivision := by
  refine ⟨?_, ?_, ?_, ?_, fun rm s => ⟨⟨_, _, _, exec_div rm s, exec_rem rm s, signedDivides (by decide) _ _⟩,
    ⟨_, _, _, exec_divw rm s, exec_remw rm s, signedDivides (by decide) _ _⟩⟩⟩
  all_goals exact .of_fields fun _ => ⟨rfl, rfl⟩

/-- Settles O22, by the floor quotient and its remainder at both widths. -/
theorem unsignedDivision : Obligations.UnsignedDivision := by
  refine ⟨?_, ?_, ?_, ?_, fun rm s => ⟨⟨_, _, exec_divu rm s, exec_remu rm s, unsignedDivides _ _⟩,
    ⟨_, _, exec_divuw rm s, exec_remuw rm s, unsignedDivides _ _⟩⟩⟩
  all_goals exact .of_fields fun _ => ⟨rfl, rfl⟩

/-- Settles O23, bit by bit. -/
theorem bitwiseLogic : Obligations.BitwiseLogic := by
  refine ⟨?_, ?_, ?_, fun rm s => ⟨⟨_, rfl, fun _ => BitVec.getLsbD_and⟩, ⟨_, rfl, fun _ => BitVec.getLsbD_or⟩,
    ⟨_, rfl, fun _ => BitVec.getLsbD_xor⟩⟩⟩
  all_goals exact .of_fields fun _ => ⟨rfl, rfl⟩

/-- Settles O24, by the answers of SLL, SRL and SRA. -/
theorem shifts : Obligations.Shifts := by
  refine ⟨?_, ?_, ?_, fun rm s => ⟨exec_sll rm s, exec_srl rm s, exec_sra rm s⟩⟩
  all_goals exact .of_fields fun _ => ⟨rfl, rfl⟩

/-- Settles O25, by the answers of SLT and SLTU. -/
theorem comparisons : Obligations.Comparisons := by
  refine ⟨?_, ?_, fun rm s => ⟨exec_slt rm s, exec_sltu rm s⟩⟩
  all_goals exact .of_fields fun _ => ⟨rfl, rfl⟩

/-- Settles O26, by the answers of ADDW, SUBW and MULW. -/
theorem addSubMulW : Obligations.AddSubMulW := by
  refine ⟨?_, ?_, ?_, fun rm s => ⟨⟨_, exec_addw rm s, signedOverflow_32 _⟩, ⟨_, exec_subw rm s, signedOverflow_32 _⟩,
    ⟨_, exec_mulw rm s, signedOverflow_32 _⟩⟩⟩
  all_goals exact .of_fields fun _ => ⟨rfl, rfl⟩

/-- Settles O27, by the answers of SLLW, SRLW and SRAW. -/
theorem shiftsW : Obligations.ShiftsW := by
  refine ⟨?_, ?_, ?_, fun rm s => ⟨exec_sllw rm s, exec_srlw rm s, exec_sraw rm s⟩⟩
  all_goals exact .of_fields fun _ => ⟨rfl, rfl⟩

/-- Settles O28: the answers of the W forms mention the low words alone. -/
theorem upperHalvesIgnoredW : Obligations.UpperHalvesIgnoredW :=
  fun _ _ _ t t' hlo hhi ha hb ht ht' => exec_respondAlike_of_low32 hlo hhi ha hb t t' ht ht'

end Sys2Proof.Machine

/-! PROOFS. IntegerSimd: the packed-integer selectors answer lane by lane, said once for both lane widths, and the statements
about them (`41_integer_simd.md` R150 to R163). -/

namespace Sys2Proof.Machine

/-- The instruction `i` completes from every state with a result whose first `n` lanes are `f` of the operands' lanes, with no
`ovf` and no flag (R150). -/
def AnswersByLane {w : Nat} (lane : Word → Nat → BitVec w) (n : Nat) (f : BitVec w → BitVec w → BitVec w) (i : Instr) : Prop :=
  ∀ s : State, ∃ r, exec i s = .next (s.answeredWith r false 0#5) ∧
    ∀ k < n, lane r k = f (lane s.port.a k) (lane s.port.b k)

section
variable {i : Instr} {s s' t t' : State} {r r' : Response}

/-- A meaning by the lane procedure for 32-bit lanes answers by lane, under any reading `g` of the lane function. -/
theorem AnswersByLane.of_lanes32 {f g : BitVec 32 → BitVec 32 → BitVec 32} (hfg : ∀ x y, f x y = g x y)
    (h : ∀ s, exec i s = .next (s.answeredWith (lanes32 f s.port.a s.port.b) false 0#5)) : AnswersByLane lane32 2 g i :=
  fun s => ⟨_, h s, fun k hk => (lane32_lanes32 f _ _ k hk).trans (hfg _ _)⟩

/-- A meaning by the lane procedure for 16-bit lanes answers by lane, under any reading `g` of the lane function. -/
theorem AnswersByLane.of_lanes16 {f g : BitVec 16 → BitVec 16 → BitVec 16} (hfg : ∀ x y, f x y = g x y)
    (h : ∀ s, exec i s = .next (s.answeredWith (lanes16 f s.port.a s.port.b) false 0#5)) : AnswersByLane lane16 4 g i :=
  fun s => ⟨_, h s, fun k hk => (lane16_lanes16 f _ _ k hk).trans (hfg _ _)⟩

/-- A lane of the response of an instruction that answers by lane. -/
theorem AnswersByLane.lane_result {w n k : Nat} {lane : Word → Nat → BitVec w} {f : BitVec w → BitVec w → BitVec w}
    (h : AnswersByLane lane n f i) (hk : k < n) (ht : exec i s = .next t) (hr : t.response = some r) :
    lane r.result k = f (lane s.port.a k) (lane s.port.b k) := by
  obtain ⟨v, hv, hlane⟩ := h s
  cases hv.symm.trans ht
  cases hr
  exact hlane k hk

/-- Two requests to such an instruction whose operands agree on a lane have responses that agree on it (R163). -/
theorem AnswersByLane.lane_congr {w n k : Nat} {lane : Word → Nat → BitVec w} {f : BitVec w → BitVec w → BitVec w}
    (h : AnswersByLane lane n f i) (hk : k < n) (ht : exec i s = .next t) (ht' : exec i s' = .next t')
    (hr : t.response = some r) (hr' : t'.response = some r') (ha : lane s'.port.a k = lane s.port.a k)
    (hb : lane s'.port.b k = lane s.port.b k) : lane r'.result k = lane r.result k := by
  rw [h.lane_result hk ht hr, h.lane_result hk ht' hr', ha, hb]

end

/-! ### What the packed-integer selectors answer -/

section
variable (rm : BitVec 3)

theorem vadd32_byLane : AnswersByLane lane32 2 (fun x y => x + y) (.vadd32 rm) := .of_lanes32 laneAdd_eq fun _ => rfl

theorem vsub32_byLane : AnswersByLane lane32 2 (fun x y => x - y) (.vsub32 rm) := .of_lanes32 laneSub_eq fun _ => rfl

theorem vmul32_byLane : AnswersByLane lane32 2 (fun x y => x * y) (.vmul32 rm) := .of_lanes32 laneMul_eq fun _ => rfl

theorem vdiv32_byLane : AnswersByLane lane32 2 (fun x y => if y = 0#32 then 0#32 else x.sdiv y) (.vdiv32 rm) :=
  .of_lanes32 laneDiv_eq fun _ => rfl

theorem vrem32_byLane : AnswersByLane lane32 2 (fun x y => if y = 0#32 then 0#32 else x.srem y) (.vrem32 rm) :=
  .of_lanes32 laneRem_eq fun _ => rfl

theorem vadd16_byLane : AnswersByLane lane16 4 (fun x y => x + y) (.vadd16 rm) := .of_lanes16 laneAdd_eq fun _ => rfl

theorem vsub16_byLane : AnswersByLane lane16 4 (fun x y => x - y) (.vsub16 rm) := .of_lanes16 laneSub_eq fun _ => rfl

theorem vmul16_byLane : AnswersByLane lane16 4 (fun x y => x * y) (.vmul16 rm) := .of_lanes16 laneMul_eq fun _ => rfl

theorem vdiv16_byLane : AnswersByLane lane16 4 (fun x y => if y = 0#16 then 0#16 else x.sdiv y) (.vdiv16 rm) :=
  .of_lanes16 laneDiv_eq fun _ => rfl

theorem vrem16_byLane : AnswersByLane lane16 4 (fun x y => if y = 0#16 then 0#16 else x.srem y) (.vrem16 rm) :=
  .of_lanes16 laneRem_eq fun _ => rfl

theorem exec_vmvlo (s : State) :
    exec (.vmvlo rm) s = .next (s.answeredWith (pack32 (low32 s.port.b) (high32 s.port.a)) false 0#5) := rfl

theorem exec_vmvhi (s : State) :
    exec (.vmvhi rm) s = .next (s.answeredWith (pack32 (low32 s.port.a) (high32 s.port.b)) false 0#5) := rfl

end

/-- The selectors 0x28 to 0x2C are the five operations on 32-bit lanes. -/
theorem exists_byLane32 {i : Instr} (hlo : 0x28 ≤ i.selector.toNat) (hhi : i.selector.toNat ≤ 0x2C) :
    ∃ f, AnswersByLane lane32 2 f i := by
  cases i with
  | vadd32 rm => exact ⟨_, vadd32_byLane rm⟩
  | vsub32 rm => exact ⟨_, vsub32_byLane rm⟩
  | vmul32 rm => exact ⟨_, vmul32_byLane rm⟩
  | vdiv32 rm => exact ⟨_, vdiv32_byLane rm⟩
  | vrem32 rm => exact ⟨_, vrem32_byLane rm⟩
  | _ => exact absurd (And.intro hlo hhi) (of_decide_eq_false rfl)

/-- The selectors 0x30 to 0x34 are the five operations on 16-bit lanes. -/
theorem exists_byLane16 {i : Instr} (hlo : 0x30 ≤ i.selector.toNat) (hhi : i.selector.toNat ≤ 0x34) :
    ∃ f, AnswersByLane lane16 4 f i := by
  cases i with
  | vadd16 rm => exact ⟨_, vadd16_byLane rm⟩
  | vsub16 rm => exact ⟨_, vsub16_byLane rm⟩
  | vmul16 rm => exact ⟨_, vmul16_byLane rm⟩
  | vdiv16 rm => exact ⟨_, vdiv16_byLane rm⟩
  | vrem16 rm => exact ⟨_, vrem16_byLane rm⟩
  | _ => exact absurd (And.intro hlo hhi) (of_decide_eq_false rfl)

/-! ### The statements -/

/-- Settles O29, by the answers of the five operations on 32-bit lanes. -/
theorem packed32 : Obligations.Packed32 := by
  refine ⟨?_, ?_, ?_, ?_, ?_, fun rm s =>
    ⟨vadd32_byLane rm s, vsub32_byLane rm s, vmul32_byLane rm s, vdiv32_byLane rm s, vrem32_byLane rm s⟩⟩
  all_goals exact .of_fields fun _ => ⟨rfl, rfl⟩

/-- Settles O30, by the answers of the five operations on 16-bit lanes. -/
theorem packed16 : Obligations.Packed16 := by
  refine ⟨?_, ?_, ?_, ?_, ?_, fun rm s =>
    ⟨vadd16_byLane rm s, vsub16_byLane rm s, vmul16_byLane rm s, vdiv16_byLane rm s, vrem16_byLane rm s⟩⟩
  all_goals exact .of_fields fun _ => ⟨rfl, rfl⟩

/-- Settles O31: every selector of either range answers by lane. -/
theorem laneIndependence : Obligations.LaneIndependence := by
  intro i s s' t t' r r' ht ht' hr hr'
  refine ⟨fun hlo hhi k hk ha hb => ?_, fun hlo hhi k hk ha hb => ?_⟩
  · obtain ⟨f, hf⟩ := exists_byLane32 hlo hhi
    exact hf.lane_congr hk ht ht' hr hr' ha hb
  · obtain ⟨f, hf⟩ := exists_byLane16 hlo hhi
    exact hf.lane_congr hk ht ht' hr hr' ha hb

/-- Settles O32: each answer packs a low half and a high half, and an operand's lanes are its halves. -/
theorem laneAssembly : Obligations.LaneAssembly := by
  refine ⟨?_, ?_, fun rm s => ⟨⟨_, exec_vmvlo rm s, (lane32_pack32 _ _).2, (lane32_pack32 _ _).1⟩,
    ⟨_, exec_vmvhi rm s, (lane32_pack32 _ _).2, (lane32_pack32 _ _).1⟩⟩⟩
  all_goals exact .of_fields fun _ => ⟨rfl, rfl⟩

end Sys2Proof.Machine

/-! PROOFS. FaultEcc: the generator is FAULT_INJECT's alone (`42_alu_fault_ecc.md` R180, R181), and ECC_CHECK answers by the
decode table (`42_alu_fault_ecc.md` R182, `48_ecc_codec.md` R405). -/

namespace Sys2Proof.Machine

/-! ### What does not use the generator -/

/-- The outcome `x` of `s` leaves the generator as it was, and `x'` is the same outcome under the generator state `g`. -/
def SameUnderRng (s : State) (g : RngState) (x x' : Host.Outcome State Fault Refusal) : Prop :=
  ∀ t, x = .next t → t.rng = s.rng ∧ x' = .next { t with rng := g }

section
variable {s t t' : State} {g : RngState}

theorem SameUnderRng.next (ht : t.rng = s.rng) (ht' : t' = { t with rng := g }) :
    SameUnderRng s g (.next t) (.next t') := by
  intro u hu
  cases hu
  exact ⟨ht, congrArg _ ht'⟩

theorem SameUnderRng.ite (p : Prop) [Decidable p] {x x' y y' : Host.Outcome State Fault Refusal}
    (hx : SameUnderRng s g x x') (hy : SameUnderRng s g y y') :
    SameUnderRng s g (if p then x else y) (if p then x' else y') := by
  split
  · exact hx
  · exact hy

/-- The effective mode is the ambient mode's and the rounding field's alone (R40, R41). -/
theorem SameUnderRng.withMode {rm : BitVec 3} {k k' : RoundMode → State} (hk : ∀ m, (k m).rng = s.rng)
    (hk' : ∀ m, k' m = { k m with rng := g }) :
    SameUnderRng s g (withMode rm s k) (withMode rm { s with rng := g } k') := by
  obtain ⟨m, hm, hs⟩ | ⟨-, hs⟩ := withMode_cases rm s k
  · rw [hs, withMode_of_some (s := { s with rng := g }) k' hm]
    exact .next (hk m) (hk' m)
  · rw [hs]
    intro t h
    cases h

/-- No meaning but FAULT_INJECT's reads or writes the generator: plain answers, divisions with their special cases, then the
selectors that round. -/
theorem exec_sameUnderRng {i : Instr} (hi : ∀ rm, i ≠ .faultInject rm) (s : State) (g : RngState) :
    SameUnderRng s g (exec i s) (exec i { s with rng := g }) := by
  cases i with
  | faultInject rm => exact absurd rfl (hi rm)
  | add | sub | mul | mulh | mulhsu | mulhu | and | or | xor | sll | srl | sra | slt | sltu | addw | subw | mulw
    | sllw | srlw | sraw | vadd32 | vsub32 | vmul32 | vdiv32 | vrem32 | vadd16 | vsub16 | vmul16 | vdiv16 | vrem16
    | vmvlo | vmvhi | eccCheck | eccEncode | eccAdapt | fsgnjS | fsgnjnS | fsgnjxS | fminS | fmaxS | feqS | fltS | fleS
    | fclassS | fmvXW | fmvWX | fsgnjD | fsgnjnD | fsgnjxD | fminD | fmaxD | feqD | fltD | fleD | fclassD | fmvXD | fmvDX
    | pf32Rem | pf32Pack =>
    exact .next rfl rfl
  | divu | remu | divuw | remw | remuw => exact .ite _ (.next rfl rfl) (.next rfl rfl)
  | div | rem | divw => exact .ite _ (.next rfl rfl) (.ite _ (.next rfl rfl) (.next rfl rfl))
  | _ => exact .withMode (fun _ => rfl) fun _ => rfl

/-- Nor does the answer to an unassigned selector (R84). -/
theorem perform_sameUnderRng {w : BitVec 11} (hw : ∀ rm, decode w ≠ .instr (.faultInject rm)) (s : State) (g : RngState) :
    SameUnderRng s g (s.perform w) (({ s with rng := g } : State).perform w) := by
  cases hd : decode w with
  | instr i =>
    rw [perform_instr _ hd, perform_instr _ hd]
    exact exec_sameUnderRng (fun rm h => hw rm (h ▸ hd)) s g
  | unassigned op =>
    rw [perform_unassigned _ hd, perform_unassigned _ hd]
    exact .next rfl rfl

end

/-! ### What FAULT_INJECT and ECC_CHECK answer -/

theorem exec_faultInject (rm : BitVec 3) (s : State) : exec (.faultInject rm) s =
    .next { s.answeredWith (faultValue (Config.rngDraw Config.pFlip s.rng) s.port.a)
      (faultFlip (Config.rngDraw Config.pFlip s.rng)) 0#5 with rng := Config.rngNext s.rng } := rfl

/-- A draw leaves the operand and the flag alone, or flips one of the low 32 bits and sets the flag (R180). -/
theorem faultDraw_cases (d : FaultDraw) (a : Word) : (faultValue d a = a ∧ faultFlip d = false) ∨
    (faultFlip d = true ∧ ∃ k < 32, faultValue d a = a ^^^ 1#64 <<< k) := by
  cases d with
  | noFlip => exact .inl ⟨rfl, rfl⟩
  | flip k => exact .inr ⟨rfl, k, k.isLt, rfl⟩

theorem exec_eccCheck (rm : BitVec 3) (s : State) : exec (.eccCheck rm) s =
    .next (s.answeredWith (eccDecode s.params.decodeMeta s.port.a)
      (eccData (eccDecode s.params.decodeMeta s.port.a) != eccData s.port.a) 0#5) := rfl

/-! ### The decode table -/

section
variable (rule : MetaRule) (r : Word) (d : BitVec 32)

@[simp] theorem eccData_recoded : eccData (recoded rule r d) = d := by
  rw [recoded_eq, eccData_register]

@[simp] theorem eccHam_recoded : eccHam (recoded rule r d) = ham6 d := by
  rw [recoded_eq, eccHam_register]

@[simp] theorem eccPov_recoded : eccPov (recoded rule r d) = overallParity d := by
  rw [recoded_eq, eccPov_register]

@[simp] theorem eccMeta_recoded_keep : eccMeta (recoded .keep r d) = eccMeta r := by
  rw [recoded_eq, eccMeta_register]

@[simp] theorem eccMeta_recoded_zero : eccMeta (recoded .zero r d) = 0#25 := by
  rw [recoded_eq, eccMeta_register]

end

section
variable {r : Word}

/-- Matching overall parity: no error, or a double error (R405). -/
theorem eccDecode_of_match (rule : MetaRule) (h : parityMatch r = true) : eccDecode rule r = r :=
  if_pos h

theorem eccDecode_of_mismatch (rule : MetaRule) (h : parityMatch r = false) :
    eccDecode rule r = recoded rule r (correctedData r) :=
  if_neg (Bool.not_eq_true _ ▸ h)

/-- A syndrome 1 to 32 names the data bit to flip (R405). -/
theorem correctedData_of_data_syndrome (h1 : 1 ≤ (syndrome r).toNat) (h32 : (syndrome r).toNat ≤ 32) :
    correctedData r = eccData r ^^^ 1#32 <<< ((syndrome r).toNat - 1) :=
  if_pos ⟨h1, h32⟩

/-- Any other syndrome names no data bit (R405). -/
theorem correctedData_of_other_syndrome (h : (syndrome r).toNat = 0 ∨ 33 ≤ (syndrome r).toNat) :
    correctedData r = eccData r :=
  if_neg (by omega)

end

/-! ### The statements -/

/-- Settles O15: FAULT_INJECT's answer names the advance, and no other request uses the generator. -/
theorem generatorUse : Obligations.GeneratorUse :=
  ⟨fun rm s => ⟨_, exec_faultInject rm s, rfl⟩, fun _ s t g hw ht => perform_sameUnderRng hw s g t ht⟩

/-- Settles O35, by the two branches of the decode table; a recoded register is read field by field. -/
theorem checkRegister : Obligations.CheckRegister := by
  refine ⟨.of_fields fun _ => ⟨rfl, rfl⟩, fun rm s =>
    ⟨_, _, exec_eccCheck rm s, bne_iff_ne, eccDecode_of_match _, fun hparity => ?_⟩⟩
  rw [eccDecode_of_mismatch _ hparity, eccData_recoded, eccHam_recoded, eccPov_recoded]
  refine ⟨correctedData_of_data_syndrome, correctedData_of_other_syndrome, rfl, rfl, fun hkeep => ?_, fun hzero => ?_⟩
  · rw [hkeep, eccMeta_recoded_keep]
  · rw [hzero, eccMeta_recoded_zero]

/-- Settles O33: whatever the draw is, it flips no bit or one of the low 32. -/
theorem faultInjection : Obligations.FaultInjection :=
  ⟨.of_fields fun _ => ⟨rfl, rfl⟩, fun rm s => ⟨_, _, exec_faultInject rm s, faultDraw_cases _ _⟩⟩

end Sys2Proof.Machine

/-! PROOFS. FloatScalar: a selector of single or double precision that may draw a NaN answers with one shared procedure's result
(`44_fp_single.md` R250 to R263, `45_fp_double.md` R300 to R313), and what the rules of `43_fp_numerics.md` say of that result
is the procedure's own lemma of Laws/Results. -/

namespace Sys2Proof.Machine

/-! ### Answers that may draw a NaN -/

section
variable (s : State) {rm : BitVec 3} {m : RoundMode}

/-- A single-precision result `r` of which `P` holds is answered zero-extended, with its flags (R213). -/
theorem exists_next_answerS {P : BitVec 32 → BitVec 5 → Prop} {r : FpResult 32} (hr : P r.value r.flags) :
    ∃ v fl, (.next (s.answerS r) : Host.Outcome State Fault Refusal) = .next (s.answeredDrawing (zext64 v) fl) ∧ P v fl :=
  ⟨r.value, r.flags, congrArg Host.Outcome.next (s.answerS_eq r), hr⟩

theorem exists_next_answerD {P : BitVec 64 → BitVec 5 → Prop} {r : FpResult 64} (hr : P r.value r.flags) :
    ∃ v fl, (.next (s.answerD r) : Host.Outcome State Fault Refusal) = .next (s.answeredDrawing v fl) ∧ P v fl :=
  ⟨r.value, r.flags, congrArg Host.Outcome.next (s.answerD_eq r), hr⟩

/-- A selector that rounds answers with the result under its effective mode (R40). -/
theorem exists_withMode_answerS (hm : effMode s.ambientRm rm = some m) {P : BitVec 32 → BitVec 5 → Prop}
    {f : RoundMode → FpResult 32} (hf : P (f m).value (f m).flags) :
    ∃ v fl, withMode rm s (fun m => s.answerS (f m)) = .next (s.answeredDrawing (zext64 v) fl) ∧ P v fl := by
  rw [withMode_of_some _ hm]
  exact exists_next_answerS s hf

theorem exists_withMode_answerD (hm : effMode s.ambientRm rm = some m) {P : BitVec 64 → BitVec 5 → Prop}
    {f : RoundMode → FpResult 64} (hf : P (f m).value (f m).flags) :
    ∃ v fl, withMode rm s (fun m => s.answerD (f m)) = .next (s.answeredDrawing v fl) ∧ P v fl := by
  rw [withMode_of_some _ hm]
  exact exists_next_answerD s hf

/-- The shape of a fused multiply-add's answer in each precision, for any signs of product and addend (R224). -/
theorem exists_ternaryS_fused (op : BitVec 8) (np nc : Bool) (hm : effMode s.ambientRm rm = some m) :
    ∃ v fl, withMode rm s (fun m => s.ternaryS op (some m) (fmaF single m np nc)) =
        .next (s.answeredDrawing (zext64 v) fl) ∧
      FusedResult single m np nc (datum single (low32 s.port.a)) (datum single (low32 s.port.b))
        (datum single (low32 s.port.c)) v fl :=
  exists_withMode_answerS s hm (fmaF_result single_serves m np nc _ _ _ _)

theorem exists_ternaryD_fused (op : BitVec 8) (np nc : Bool) (hm : effMode s.ambientRm rm = some m) :
    ∃ v fl, withMode rm s (fun m => s.ternaryD op (some m) (fmaF double m np nc)) = .next (s.answeredDrawing v fl) ∧
      FusedResult double m np nc (datum double s.port.a) (datum double s.port.b) (datum double s.port.c) v fl :=
  exists_withMode_answerD s hm (fmaF_result double_serves m np nc _ _ _ _)

end

/-! ### The statements -/

/-- Settles O41: a difference is the sum with the second operand's sign changed (R227). -/
theorem scalarAddSub : Obligations.ScalarAddSub := by
  intro rm s m hm
  exact ⟨exists_withMode_answerS s hm (addF_result single_serves m _ _ _),
    exists_withMode_answerS s hm (subF_result single_serves m _ _ _),
    exists_withMode_answerD s hm (addF_result double_serves m _ _ _),
    exists_withMode_answerD s hm (subF_result double_serves m _ _ _)⟩

/-- Settles O42, by the product of two patterns in any format served. -/
theorem scalarMultiply : Obligations.ScalarMultiply := by
  intro rm s m hm
  exact ⟨exists_withMode_answerS s hm (mulF_result single_serves m _ _ _),
    exists_withMode_answerD s hm (mulF_result double_serves m _ _ _)⟩

/-- Settles O43: the zero-divisor test comes before the IEEE quotient (R225). -/
theorem scalarDivide : Obligations.ScalarDivide := by
  intro rm s m hm
  exact ⟨exists_withMode_answerS s hm (divF_result single_serves m _ _ _),
    exists_withMode_answerD s hm (divF_result double_serves m _ _ _)⟩

/-- Settles O44, by the rounded real root of a pattern in any format served. -/
theorem scalarSquareRoot : Obligations.ScalarSquareRoot := by
  intro rm s m hm
  exact ⟨exists_withMode_answerS s hm (sqrtF_result single_serves m _ _),
    exists_withMode_answerD s hm (sqrtF_result double_serves m _ _)⟩

/-- Settles O45: the four selectors of a precision differ in the signs they give the product and the addend. -/
theorem fusedMultiplyAdd : Obligations.FusedMultiplyAdd := by
  intro rm s m hm
  exact ⟨exists_ternaryS_fused s 0x45#8 false false hm, exists_ternaryS_fused s 0x46#8 false true hm,
    exists_ternaryS_fused s 0x47#8 true false hm, exists_ternaryS_fused s 0x48#8 true true hm,
    exists_ternaryD_fused s 0x85#8 false false hm, exists_ternaryD_fused s 0x86#8 false true hm,
    exists_ternaryD_fused s 0x87#8 true false hm, exists_ternaryD_fused s 0x88#8 true true hm⟩

/-- Settles O47: no rounding field is read, so the result is answered as it is. -/
theorem minimumMaximum : Obligations.MinimumMaximum := by
  intro rm s
  exact ⟨exists_next_answerS s (minmaxF_result single_serves false _ _ _),
    exists_next_answerS s (minmaxF_result single_serves true _ _ _),
    exists_next_answerD s (minmaxF_result double_serves false _ _ _),
    exists_next_answerD s (minmaxF_result double_serves true _ _ _)⟩

end Sys2Proof.Machine

/-! PROOFS. FloatBits: the scalar floating selectors that neither round nor draw a NaN (`44_fp_single.md` R259 to R267, R276,
R277, `45_fp_double.md` R309 to R317, R326, R327), and the operand bits a single-precision response depends on (R278). -/

namespace Sys2Proof.Machine

/-! ### The low word -/

theorem low32_getLsbD {k : ℕ} (hk : k < 32) (v : Word) : (low32 v).getLsbD k = v.getLsbD k := by
  simp [low32, hk]

theorem low32_msb (v : Word) : (low32 v).msb = v.getLsbD 31 := by
  rw [BitVec.msb_eq_getLsbD_last, low32_getLsbD (by decide)]

/-- Above the low word the sign extension copies bit 31 (R276). -/
theorem sext64_low32_getLsbD {k : ℕ} (hk : k < 64) (v : Word) :
    (sext64 (low32 v)).getLsbD k = v.getLsbD (min k 31) := by
  rw [sext64, BitVec.getLsbD_signExtend, low32_msb]
  by_cases hlow : k < 32
  · rw [if_pos hlow, low32_getLsbD hlow, min_eq_left (by omega)]
    simp [hk]
  · rw [if_neg hlow, min_eq_right (by omega)]
    simp [hk]

/-- Above the low word the zero extension has zeros (R277). -/
theorem zext64_low32_getLsbD {k : ℕ} (hk : k < 64) (v : Word) :
    (zext64 (low32 v)).getLsbD k = (decide (k < 32) && v.getLsbD k) := by
  simp [zext64, low32, hk]

/-! ### Sign injection -/

theorem withSign_msb {w : ℕ} (hw : 0 < w) (neg : Bool) (x : BitVec w) : (withSign neg x).msb = neg := by
  cases neg <;> simp [withSign, BitVec.msb_eq_getLsbD_last, hw]

theorem withSign_getLsbD {w k : ℕ} (hk : k < w - 1) (neg : Bool) (x : BitVec w) :
    (withSign neg x).getLsbD k = x.getLsbD k := by
  have hsign : k ≠ w - 1 := by omega
  have hw : k < w := by omega
  cases neg <;> simp [withSign, hsign, hw]

/-- The low word of `v` under the sign `p`, zero-extended, is what a single-precision sign injection answers. -/
theorem exists_withSign_single (s : State) (v : Word) {p q : Bool} (hpq : p = q) :
    ∃ r : BitVec 32, (.next (s.answeredWith (zext64 (withSign p (low32 v))) false 0#5) : Host.Outcome State Fault Refusal) =
        .next (s.answeredWith (zext64 r) false 0#5) ∧
      r.msb = q ∧ ∀ k < 31, r.getLsbD k = v.getLsbD k :=
  ⟨_, rfl, (withSign_msb (by decide) p _).trans hpq,
    fun _ hk => (withSign_getLsbD hk p _).trans (low32_getLsbD (by omega) v)⟩

theorem exists_withSign_double (s : State) (v : Word) {p q : Bool} (hpq : p = q) :
    ∃ r : Word, (.next (s.answeredWith (withSign p v) false 0#5) : Host.Outcome State Fault Refusal) =
        .next (s.answeredWith r false 0#5) ∧
      r.msb = q ∧ ∀ k < 63, r.getLsbD k = v.getLsbD k :=
  ⟨_, rfl, (withSign_msb (by decide) p _).trans hpq, fun _ hk => withSign_getLsbD hk p v⟩

/-! ### Classes -/

/-- `k` is the place of the datum `d` of format F in R222's list, and its place alone. -/
def ClassResult (F : Format) (d : Datum) (k : ℕ) : Prop :=
  k < 10 ∧
    (k = 0 ↔ d = .inf true) ∧ (k = 7 ↔ d = .inf false) ∧ (k = 8 ↔ d = .nan false) ∧ (k = 9 ↔ d = .nan true) ∧
    (k = 1 ↔ d.isFinite = true ∧ d.sign = true ∧ (2 : ℚ) ^ emin F ≤ |d.value|) ∧
    (k = 2 ↔ d.isFinite = true ∧ d.sign = true ∧ |d.value| < (2 : ℚ) ^ emin F ∧ d.value ≠ 0) ∧
    (k = 3 ↔ d.isFinite = true ∧ d.sign = true ∧ d.value = 0) ∧
    (k = 4 ↔ d.isFinite = true ∧ d.sign = false ∧ d.value = 0) ∧
    (k = 5 ↔ d.isFinite = true ∧ d.sign = false ∧ |d.value| < (2 : ℚ) ^ emin F ∧ d.value ≠ 0) ∧
    (k = 6 ↔ d.isFinite = true ∧ d.sign = false ∧ (2 : ℚ) ^ emin F ≤ |d.value|)

section
variable {F : Format} {w : ℕ}

theorem classResult_inf (neg : Bool) : ClassResult F (.inf neg) (if neg then 0 else 7) := by
  cases neg <;> simp [ClassResult, Datum.isFinite]

theorem classResult_nan (quiet : Bool) : ClassResult F (.nan quiet) (if quiet then 9 else 8) := by
  cases quiet <;> simp [ClassResult, Datum.isFinite]

theorem classResult_zero {neg : Bool} {sig : ℕ} {exp : ℤ} (h : (Datum.fin neg sig exp).value = 0) :
    ClassResult F (.fin neg sig exp) (if neg then 3 else 4) := by
  have hpos : (0 : ℚ) < 2 ^ emin F := by positivity
  cases neg <;> simp [ClassResult, Datum.isFinite, Datum.sign, h, hpos]

theorem classResult_subnormal {neg : Bool} {sig : ℕ} {exp : ℤ} (h0 : (Datum.fin neg sig exp).value ≠ 0)
    (h : |(Datum.fin neg sig exp).value| < (2 : ℚ) ^ emin F) :
    ClassResult F (.fin neg sig exp) (if neg then 2 else 5) := by
  cases neg <;> simp [ClassResult, Datum.isFinite, Datum.sign, h0, h]

theorem classResult_normal {neg : Bool} {sig : ℕ} {exp : ℤ} (h : (2 : ℚ) ^ emin F ≤ |(Datum.fin neg sig exp).value|) :
    ClassResult F (.fin neg sig exp) (if neg then 1 else 6) := by
  have hpos : (0 : ℚ) < 2 ^ emin F := by positivity
  have h0 : (Datum.fin neg sig exp).value ≠ 0 := abs_pos.mp (hpos.trans_le h)
  cases neg <;> simp [ClassResult, Datum.isFinite, Datum.sign, h0, h]

theorem abs_value_fin (neg : Bool) (sig : ℕ) (exp : ℤ) : |(Datum.fin neg sig exp).value| = (sig : ℚ) * 2 ^ exp := by
  cases neg <;> simp [Datum.value, abs_mul, abs_zpow]

/-- The hidden bit of a normal pattern, or its lack, sets the magnitude against the least normal one (R201). -/
theorem exponentField_eq_zero_iff {x : BitVec w} {neg : Bool} {sig : ℕ} {exp : ℤ} (h : datum F x = .fin neg sig exp) :
    exponentField F x = 0 ↔ |(Datum.fin neg sig exp).value| < (2 : ℚ) ^ emin F := by
  have hunit : (2 : ℚ) ^ emin F = (2 ^ fractionBits F : ℕ) * 2 ^ (emin F - fractionBits F) := by
    push_cast
    rw [← zpow_natCast, ← zpow_add₀ two_ne_zero, add_sub_cancel]
  rw [abs_value_fin, hunit]
  unfold datum at h
  dsimp only at h
  split_ifs at h with hmax hzero he
  · cases h
    refine iff_of_true he ?_
    have hlt : fractionField F x < 2 ^ fractionBits F := Nat.mod_lt _ (by positivity)
    gcongr
  · cases h
    refine iff_of_false he (not_lt.mpr ?_)
    have hexp : emin F - fractionBits F ≤ exponentField F x - F.emax - fractionBits F := by unfold emin; omega
    have hsig : 2 ^ fractionBits F ≤ 2 ^ fractionBits F + fractionField F x := Nat.le_add_right _ _
    gcongr
    exact one_le_two

/-- R222's mask has the bit of the datum's place alone. -/
theorem classF_result (x : BitVec w) : ∃ k, (classF F x).setWidth 64 = 1#64 <<< k ∧ ClassResult F (datum F x) k := by
  unfold classF
  cases hd : datum F x with
  | nan quiet => exact ⟨_, by cases quiet <;> rfl, classResult_nan quiet⟩
  | inf neg => exact ⟨_, by cases neg <;> rfl, classResult_inf neg⟩
  | fin neg sig exp =>
    by_cases hsig : sig = 0
    · exact ⟨_, by cases neg <;> simp [hsig], classResult_zero ((value_eq_zero _ _ _).mpr hsig)⟩
    have hsub := exponentField_eq_zero_iff hd
    have hvalue := (value_eq_zero neg sig exp).not.mpr hsig
    by_cases he : exponentField F x = 0
    · exact ⟨_, by cases neg <;> simp [hsig, he], classResult_subnormal hvalue (hsub.mp he)⟩
    · exact ⟨_, by cases neg <;> simp [hsig, he], classResult_normal (not_lt.mp (hsub.not.mp he))⟩

end

/-! ### What a single-precision response depends on -/

section
variable {s s' : State}

theorem State.unaryS_response_congr (hdraws : s'.nanDraws = s.nanDraws) (ha : s'.fa = s.fa) (op : BitVec 8)
    (mode : Option RoundMode) (f : BitVec 32 → BitVec 32 → FpResult 32) :
    (s'.unaryS op mode f).response = (s.unaryS op mode f).response := by
  simp only [unaryS, answerS_response, drawS, hdraws, ha]

theorem State.binaryS_response_congr (hdraws : s'.nanDraws = s.nanDraws) (ha : s'.fa = s.fa) (hb : s'.fb = s.fb)
    (op : BitVec 8) (mode : Option RoundMode) (f : BitVec 32 → BitVec 32 → BitVec 32 → FpResult 32) :
    (s'.binaryS op mode f).response = (s.binaryS op mode f).response := by
  simp only [binaryS, answerS_response, drawS, hdraws, ha, hb]

theorem State.ternaryS_response_congr (hdraws : s'.nanDraws = s.nanDraws) (ha : s'.fa = s.fa) (hb : s'.fb = s.fb)
    (hc : s'.fc = s.fc) (op : BitVec 8) (mode : Option RoundMode)
    (f : BitVec 32 → BitVec 32 → BitVec 32 → BitVec 32 → FpResult 32) :
    (s'.ternaryS op mode f).response = (s.ternaryS op mode f).response := by
  simp only [ternaryS, answerS_response, drawS, hdraws, ha, hb, hc]

/-- Every single-precision meaning but FCVT.S.L's and FCVT.S.LU's reads the low words of its operands: by the number of operands
of those that may draw a NaN, then the plain answers and the conversions. -/
theorem exec_respondAlike_of_single {i : Instr} (hlo : 0x40 ≤ i.selector.toNat) (hhi : i.selector.toNat ≤ 0x5B)
    (hl : i.selector ≠ 0x58#8) (hlu : i.selector ≠ 0x59#8) (hmode : s'.ambientRm = s.ambientRm)
    (hparams : s'.params = s.params) (hdraws : s'.nanDraws = s.nanDraws) (ha : s'.fa = s.fa) (hb : s'.fb = s.fb)
    (hc : s'.fc = s.fc) : RespondAlike (exec i s) (exec i s') := by
  cases i with
  | fsqrtS => exact .withMode hmode fun _ => State.unaryS_response_congr hdraws ha _ _ _
  | faddS | fsubS | fmulS | fdivS => exact .withMode hmode fun _ => State.binaryS_response_congr hdraws ha hb _ _ _
  | fmaddS | fmsubS | fnmsubS | fnmaddS =>
    exact .withMode hmode fun _ => State.ternaryS_response_congr hdraws ha hb hc _ _ _
  | fminS | fmaxS => exact .next (State.binaryS_response_congr hdraws ha hb _ _ _)
  | fsgnjS | fsgnjnS | fsgnjxS | feqS | fltS | fleS | fclassS | fmvXW | fmvWX =>
    exact .next (by simp only [State.answerFloat_response, ha, hb])
  | fcvtWS | fcvtWuS | fcvtLS | fcvtLuS =>
    exact .withMode hmode fun _ => by simp only [State.toIntS_eq, State.answeredWith_response, ha, hparams]
  | fcvtSW | fcvtSWu =>
    exact .withMode hmode fun _ => by simp only [State.fromIntS_eq, State.answeredWith_response, ha]
  | fcvtSL => exact absurd rfl hl
  | fcvtSLu => exact absurd rfl hlu
  | _ => exact absurd (And.intro hlo hhi) (of_decide_eq_false rfl)

end

/-! ### The statements -/

/-- Settles O46: each rule is a sign put on the first operand, in the format's own width. -/
theorem signInjection : Obligations.SignInjection := by
  refine ⟨?_, ?_, ?_, ?_, ?_, ?_, fun rm s => ?_⟩
  case refine_7 =>
    have ha := low32_msb s.port.a
    have hb := low32_msb s.port.b
    have ha' : s.port.a.msb = s.port.a.getLsbD 63 := BitVec.msb_eq_getLsbD_last _
    have hb' : s.port.b.msb = s.port.b.getLsbD 63 := BitVec.msb_eq_getLsbD_last _
    exact ⟨exists_withSign_single s s.port.a hb, exists_withSign_single s s.port.a (congrArg not hb),
      exists_withSign_single s s.port.a (congrArg₂ xor ha hb), exists_withSign_double s s.port.a hb',
      exists_withSign_double s s.port.a (congrArg not hb'), exists_withSign_double s s.port.a (congrArg₂ xor ha' hb')⟩
  all_goals exact .of_fields fun _ => ⟨rfl, rfl⟩

/-- Settles O48, by the three relations on patterns of either format. -/
theorem floatComparisons : Obligations.FloatComparisons := by
  refine ⟨?_, ?_, ?_, ?_, ?_, ?_, fun rm s => ?_⟩
  case refine_7 =>
    obtain ⟨heqS, hltS, hleS⟩ := cmpF_spec (F := single) (low32 s.port.a) (low32 s.port.b)
    obtain ⟨heqD, hltD, hleD⟩ := cmpF_spec (F := double) s.port.a s.port.b
    exact ⟨⟨_, rfl, heqS⟩, ⟨_, rfl, hltS⟩, ⟨_, rfl, hleS⟩, ⟨_, rfl, heqD⟩, ⟨_, rfl, hltD⟩, ⟨_, rfl, hleD⟩⟩
  all_goals exact .of_fields fun _ => ⟨rfl, rfl⟩

/-- Settles O49, by the place of the operand in R222's list. -/
theorem classification : Obligations.Classification := by
  refine ⟨?_, ?_, fun rm s => ?_⟩
  case refine_3 =>
    obtain ⟨j, hj, hS⟩ := classF_result (F := single) (low32 s.port.a)
    obtain ⟨k, hk, hD⟩ := classF_result (F := double) s.port.a
    exact ⟨⟨j, next_answeredWith_congr s false hj, hS⟩, ⟨k, next_answeredWith_congr s false hk, hD⟩⟩
  all_goals exact .of_fields fun _ => ⟨rfl, rfl⟩

/-- Settles O52, bit by bit for the moves of the low word. -/
theorem patternMoves : Obligations.PatternMoves := by
  refine ⟨?_, ?_, ?_, ?_, fun rm s => ⟨⟨_, rfl, fun _ hk => sext64_low32_getLsbD hk _⟩,
    ⟨_, rfl, fun _ hk => zext64_low32_getLsbD hk _⟩, rfl, rfl⟩⟩
  all_goals exact .of_fields fun _ => ⟨rfl, rfl⟩

/-- Settles O53: the single-precision meanings but two read the low words of the operands alone. -/
theorem upperHalvesIgnoredS : Obligations.UpperHalvesIgnoredS :=
  fun _ _ _ t t' hlo hhi hl hlu hmode hparams hdraws ha hb hc ht ht' =>
    exec_respondAlike_of_single hlo hhi hl hlu hmode hparams hdraws ha hb hc t t' ht ht'

end Sys2Proof.Machine

/-! PROOFS. FloatConvert: the conversions between floating values and integers (`44_fp_single.md` R268 to R275,
`45_fp_double.md` R318 to R325) answer with R218's and R219's results, which Laws/Results gives for any format; here is how an
integer is placed in 64 bits (R213) and why a 32-bit integer is a double. -/

namespace Sys2Proof.Machine

/-! ### Placing an integer -/

/-- A conversion's integer lies in its range (R218). -/
theorem ToIntResult.bounds {m : RoundMode} {lo hi n : ℤ} {x : Datum} {fl : BitVec 5} (h : ToIntResult m lo hi x n fl)
    (hle : lo ≤ hi) : lo ≤ n ∧ n ≤ hi := by
  obtain ⟨hnan, hpos, hneg, hfin⟩ := h
  cases x with
  | nan quiet =>
    obtain ⟨rfl, -⟩ := hnan rfl
    exact ⟨hle, le_rfl⟩
  | inf neg =>
    cases neg with
    | true =>
      obtain ⟨rfl, -⟩ := hneg rfl
      exact ⟨le_rfl, hle⟩
    | false =>
      obtain ⟨rfl, -⟩ := hpos rfl
      exact ⟨hle, le_rfl⟩
  | fin neg sig exp =>
    obtain ⟨k, -, hlow, hhigh, hin⟩ := hfin rfl
    omega

/-- An integer of 32 signed bits has one 64-bit pattern, extended or not. -/
theorem sext64_ofInt {n : ℤ} (hlo : -2 ^ 31 ≤ n) (hhi : n ≤ 2 ^ 31 - 1) :
    sext64 (BitVec.ofInt 32 n) = BitVec.ofInt 64 n := by
  rw [sext64, BitVec.signExtend, BitVec.toInt_ofInt, Int.bmod_eq_of_le] <;> norm_num <;> omega

theorem sext64_cvtToInt {F : Format} {w : ℕ} (m : RoundMode) (x : BitVec w) :
    sext64 (BitVec.ofInt 32 (cvtToInt F m 32 true x).value) = BitVec.ofInt 64 (cvtToInt F m 32 true x).value := by
  obtain ⟨hlo, hhi⟩ := (cvtToInt_result (F := F) m 32 true x).bounds (by decide)
  exact sext64_ofInt hlo hhi

/-! ### Integers a format holds -/

theorem roundsTo_intCast (m : RoundMode) (k : ℤ) : RoundsTo m (k : ℝ) k := by
  cases m with
  | rne => left; norm_num
  | rtz => exact ⟨le_rfl, lt_add_one _, mul_self_nonneg _⟩
  | rdn => exact ⟨le_rfl, lt_add_one _⟩
  | rup => exact ⟨sub_one_lt _, le_rfl⟩

/-- A real that is a whole number of the spacing `q` is its own rounding. -/
theorem RoundsTo.mul_eq {m : RoundMode} {z q : ℝ} {n : ℤ} (h : RoundsTo m (z / q) n) (hq : q ≠ 0) {k : ℤ}
    (hk : z = k * q) : n * q = z := by
  rw [hk, mul_div_assoc, div_self hq, mul_one] at h
  rw [roundsTo_unique m _ n k h (roundsTo_intCast m k), hk]

section
variable {F : Format} {w : ℕ} {m : RoundMode} {v : BitVec w} {fl : BitVec 5}

/-- A real in range that is a whole number of its binade's spacing is the value of its rounding, and no flag is raised. -/
theorem RoundedResult.exact {z : ℝ} (h : RoundedResult F m z v fl) (hmax : |z| < (2 : ℝ) ^ ((F.emax : ℤ) + 1))
    (hz : ∀ e : ℤ, (2 : ℝ) ^ e ≤ |z| → |z| < (2 : ℝ) ^ (e + 1) →
      ∃ k : ℤ, z = k * (2 : ℝ) ^ (max e (emin F) - fractionBits F)) :
    fl = 0#5 ∧ (datum F v).isFinite = true ∧ ((datum F v).value : ℝ) = z := by
  obtain ⟨e, n, hlo, hhi, hround, hcase⟩ := h
  obtain ⟨k, hk⟩ := hz e hlo hhi
  rw [hround.mul_eq (by positivity) hk] at hcase
  obtain ⟨hover, -⟩ | ⟨-, hfinite, -, hvalue, nx, uf, rfl, hnx, huf⟩ := hcase
  · exact absurd hmax (not_lt.mpr hover)
  · have hnx : nx = false := Bool.eq_false_iff.mpr fun h => hnx.mp h hvalue
    have huf : uf = false := Bool.eq_false_iff.mpr fun h => Bool.eq_false_iff.mp hnx (huf.mp h).1
    exact ⟨by simp [hnx, huf, flagIf], hfinite, hvalue⟩

/-- An integer of no more bits than the precision is a whole number of its binade's spacing. -/
theorem exists_mul_spacing (hF : F.Fits w) {n e : ℤ} (hn : n ≠ 0) (hbits : |n| < 2 ^ F.precision)
    (hlo : (2 : ℝ) ^ e ≤ |(n : ℝ)|) (hhi : |(n : ℝ)| < (2 : ℝ) ^ (e + 1)) :
    ∃ k : ℤ, (n : ℝ) = k * (2 : ℝ) ^ (max e (emin F) - fractionBits F) := by
  have hprec := hF.precision
  have hemax := hF.emax
  have hpos : (1 : ℝ) ≤ |(n : ℝ)| := by exact_mod_cast Int.one_le_abs hn
  have hbits' : |(n : ℝ)| < (2 : ℝ) ^ (F.precision : ℤ) := by
    rw [zpow_natCast]
    exact_mod_cast hbits
  have he0 : 0 < e + 1 := by
    rw [← zpow_lt_zpow_iff_right₀ (one_lt_two (α := ℝ)), zpow_zero]
    exact hpos.trans_lt hhi
  have heF : e < F.precision := (zpow_lt_zpow_iff_right₀ (one_lt_two (α := ℝ))).mp (hlo.trans_lt hbits')
  have hmax : max e (emin F) = e := max_eq_left (by unfold emin; omega)
  obtain ⟨j, hj⟩ : ∃ j : ℕ, e - fractionBits F = -(j : ℤ) := ⟨(fractionBits F - e).toNat, by unfold fractionBits; omega⟩
  refine ⟨n * 2 ^ j, ?_⟩
  rw [hmax, hj, zpow_neg, zpow_natCast]
  push_cast
  field_simp

/-- An integer of no more bits than the precision converts to its value, without a flag (R219). -/
theorem FromIntResult.exact (hF : F.Fits w) (hrange : F.precision ≤ F.emax + 1) {n : ℤ} (h : FromIntResult F m n v fl)
    (hbits : |n| < 2 ^ F.precision) :
    fl = 0#5 ∧ (datum F v).isFinite = true ∧ (datum F v).value = n ∧ (n = 0 → v = zeroPattern false) := by
  obtain ⟨hzero, hround⟩ := h
  by_cases hn : n = 0
  · obtain ⟨rfl, rfl⟩ := hzero hn
    rw [datum_zeroPattern hF, hn]
    exact ⟨rfl, rfl, by simp [Datum.value], fun _ => rfl⟩
  · have hmax : |(n : ℝ)| < (2 : ℝ) ^ ((F.emax : ℤ) + 1) := by
      have hle : (2 : ℤ) ^ F.precision ≤ 2 ^ (F.emax + 1) := pow_le_pow_right₀ one_le_two hrange
      exact_mod_cast hbits.trans_le hle
    obtain ⟨hfl, hfinite, hvalue⟩ := (hround hn).exact hmax fun e => exists_mul_spacing hF hn hbits
    exact ⟨hfl, hfinite, by exact_mod_cast hvalue, fun h => absurd h hn⟩

end

/-! ### What the conversions answer -/

section
variable (s : State) {rm : BitVec 3} {m : RoundMode}

/-- A conversion to an integer answers with R218's result, put in the 64 bits by `place`. -/
theorem exists_withMode_toInt (hm : effMode s.ambientRm rm = some m) (F : Format) {w : ℕ} (x : BitVec w) (bits : ℕ)
    (signed : Bool) (place : ℤ → Word) :
    ∃ n fl, withMode rm s (fun m => s.answeredWith (place (cvtToInt F m bits signed x).value) false
        (cvtToInt F m bits signed x).flags) = .next (s.answeredWith (place n) false fl) ∧
      ToIntResult m (if signed then -(2 : ℤ) ^ (bits - 1) else 0)
        (if signed then (2 : ℤ) ^ (bits - 1) - 1 else (2 : ℤ) ^ bits - 1) (datum F x) n fl :=
  ⟨_, _, withMode_of_some _ hm, cvtToInt_result m bits signed x⟩

/-- FCVT.W's sign extension is the 64-bit pattern of the integer (R268, R318). -/
theorem exists_withMode_toInt32 (hm : effMode s.ambientRm rm = some m) (F : Format) {w : ℕ} (x : BitVec w) :
    ∃ n fl, withMode rm s (fun m => s.answeredWith (sext64 (BitVec.ofInt 32 (cvtToInt F m 32 true x).value)) false
        (cvtToInt F m 32 true x).flags) = .next (s.answeredWith (BitVec.ofInt 64 n) false fl) ∧
      ToIntResult m (-2 ^ 31) (2 ^ 31 - 1) (datum F x) n fl :=
  ⟨_, _, by rw [withMode_of_some _ hm, sext64_cvtToInt], cvtToInt_result m 32 true x⟩

theorem exists_withMode_fromIntS (hm : effMode s.ambientRm rm = some m) (n : ℤ) :
    ∃ v fl, withMode rm s (fun m => s.fromIntS m n) = .next (s.answeredWith (zext64 v) false fl) ∧
      FromIntResult single m n v fl :=
  ⟨_, _, withMode_of_some _ hm, cvtFromInt_result single_fits m n⟩

theorem exists_withMode_fromIntD (hm : effMode s.ambientRm rm = some m) (n : ℤ) :
    ∃ v fl, withMode rm s (fun m => s.fromIntD m n) = .next (s.answeredWith v false fl) ∧
      FromIntResult double m n v fl :=
  ⟨_, _, withMode_of_some _ hm, cvtFromInt_result double_fits m n⟩

theorem exists_withMode_fromIntD_exact (hm : effMode s.ambientRm rm = some m) {n : ℤ} (hn : |n| < 2 ^ 53) :
    ∃ v, withMode rm s (fun m => s.fromIntD m n) = .next (s.answeredWith v false 0#5) ∧
      (datum double v).isFinite = true ∧ (datum double v).value = n ∧ (n = 0 → v = 0#64) := by
  obtain ⟨v, fl, hv, hresult⟩ := exists_withMode_fromIntD s hm n
  obtain ⟨rfl, hfinite, hvalue, hzero⟩ := hresult.exact double_fits (by decide) hn
  exact ⟨v, hv, hfinite, hvalue, hzero⟩

end

/-! ### The statements -/

/-- Settles O50, by the conversion of any format into any range; FCVT.W's result is already sign-extended. -/
theorem floatToInteger : Obligations.FloatToInteger := by
  refine ⟨?_, ?_, ?_, ?_, ?_, ?_, ?_, ?_, fun rm s m hm => ?_⟩
  case refine_9 =>
    have hwu (F : Format) {w : ℕ} (x : BitVec w) :=
      exists_withMode_toInt s hm F x 32 false fun n => extendWu s.params.wuExtend (BitVec.ofInt 32 n)
    exact ⟨exists_withMode_toInt32 s hm single _, hwu single _, exists_withMode_toInt s hm single _ 64 true _,
      exists_withMode_toInt s hm single _ 64 false _, exists_withMode_toInt32 s hm double _, hwu double _,
      exists_withMode_toInt s hm double _ 64 true _, exists_withMode_toInt s hm double _ 64 false _⟩
  all_goals exact .of_fields fun _ => ⟨rfl, rfl⟩

/-- Settles O51; a 32-bit integer has fewer bits than the double's precision. -/
theorem integerToFloat : Obligations.IntegerToFloat := by
  refine ⟨?_, ?_, ?_, ?_, ?_, ?_, ?_, ?_, fun rm s m hm => ?_⟩
  case refine_9 =>
    have hint : |(low32 s.port.a).toInt| < 2 ^ 53 := by
      have hlo := BitVec.le_toInt (low32 s.port.a)
      have hhi := BitVec.toInt_lt (x := low32 s.port.a)
      rw [abs_lt]
      omega
    have hnat : |((low32 s.port.a).toNat : ℤ)| < 2 ^ 53 := by
      have hhi := (low32 s.port.a).isLt
      rw [Nat.abs_cast]
      omega
    exact ⟨exists_withMode_fromIntS s hm _, exists_withMode_fromIntS s hm _, exists_withMode_fromIntS s hm _,
      exists_withMode_fromIntS s hm _, exists_withMode_fromIntD_exact s hm hint, exists_withMode_fromIntD_exact s hm hnat,
      exists_withMode_fromIntD s hm _, exists_withMode_fromIntD s hm _⟩
  all_goals exact .of_fields fun _ => ⟨rfl, rfl⟩

end Sys2Proof.Machine

/-! PROOFS. PackedBf16: the elementwise bfloat16 selectors answer lane by lane, each lane a float32 result of Laws/Results
clamped and narrowed, and BF16.DOT answers with a float32 sum rounded product by product (`46_packed_bf16.md` R350 to R358). -/

namespace Sys2Proof.Machine

/-! ### Patterns by their magnitude and exponent bits -/

theorem bfloat16_fits : bfloat16.Fits 16 := ⟨by decide, by decide, by decide, by decide⟩

section
variable {F : Format} {w : ℕ} {v : BitVec w}

/-- A pattern whose magnitude is below the infinities' is finite (R201). -/
theorem datum_isFinite_of_magnitude_lt (hF : F.Fits w)
    (h : v.toNat % 2 ^ (w - 1) < maxField F * 2 ^ fractionBits F) : (datum F v).isFinite = true := by
  have hexp : exponentField F v < maxField F := by
    rw [exponentField_magnitude hF]
    exact Nat.div_lt_of_lt_mul (Nat.mul_comm _ _ ▸ h)
  unfold datum
  rw [if_neg hexp.ne]
  split <;> rfl

theorem exponentField_of_isNaN (h : (datum F v).isNaN = true) : exponentField F v = maxField F := by
  by_contra hne
  unfold datum at h
  rw [if_neg hne] at h
  split at h <;> cases h

/-- Every bit of a NaN's exponent field is 1 (R201). -/
theorem getLsbD_of_isNaN (h : (datum F v).isNaN = true) {k : ℕ} (hk : maxField F + 1 = 2 ^ k) {i : ℕ}
    (hlo : fractionBits F ≤ i) (hhi : i < fractionBits F + k) : v.getLsbD i = true := by
  have hfield : v.toNat / 2 ^ fractionBits F % 2 ^ k = 2 ^ k - 1 := by
    have hexp := exponentField_of_isNaN h
    unfold exponentField at hexp
    rw [hk] at hexp
    omega
  have hbit := congrArg (Nat.testBit · (i - fractionBits F)) hfield
  simpa [BitVec.getLsbD, Nat.testBit_mod_two_pow, Nat.testBit_two_pow_sub_one, Nat.testBit_div_two_pow, Nat.sub_add_cancel hlo,
    show i - fractionBits F < k by omega] using hbit

end

/-! ### Clamp and narrowing -/

section
variable {y : BitVec 32} {h : BitVec 16} {rule : NarrowRule}

theorem clampBf16_of_isNaN (hy : (datum single y).isNaN = true) : clampBf16 y = y :=
  if_pos hy

theorem withSign_maxBf16 (neg : Bool) :
    withSign neg 0x7F7F0000#32 = if neg then 0xFF7F0000#32 else 0x7F7F0000#32 := by
  cases neg <;> decide

theorem clampBf16_of_not_isNaN (hy : (datum single y).isNaN = false) :
    clampBf16 y =
      if 0x7F7F0000 < y.toNat % 2 ^ 31 then (if y.msb then 0xFF7F0000#32 else 0x7F7F0000#32) else y := by
  rw [clampBf16, hy, if_neg Bool.false_ne_true, withSign_maxBf16]

/-- The clamp makes no NaN (R352). -/
theorem isNaN_clampBf16 : (datum single (clampBf16 y)).isNaN = (datum single y).isNaN := by
  cases hy : (datum single y).isNaN with
  | true => rw [clampBf16_of_isNaN hy, hy]
  | false =>
    rw [clampBf16_of_not_isNaN hy]
    split_ifs
    · decide
    · decide
    · exact hy

/-- A clamped number is at most the bfloat16 maximum in magnitude (R352). -/
theorem clampBf16_magnitude_le (hy : (datum single y).isNaN = false) :
    (clampBf16 y).toNat % 2 ^ 31 ≤ 0x7F7F0000 := by
  rw [clampBf16_of_not_isNaN hy]
  split_ifs with hmax
  · decide
  · decide
  · exact not_lt.mp hmax

theorem narrowBf16_of_isNaN (hy : (datum single y).isNaN = true) :
    narrowBf16 rule y = y.extractLsb' 16 16 ||| 0x0040#16 :=
  if_pos hy

/-- Narrowing to nearest even as arithmetic on the pattern: a carry out of bit 31 is outside the bits kept (R351). -/
theorem narrowBf16_rne (hy : (datum single y).isNaN = false) :
    narrowBf16 .rne y = BitVec.ofNat 16 ((y.toNat + 0x7FFF + y.toNat / 2 ^ 16 % 2) / 2 ^ 16) := by
  rw [narrowBf16, hy, if_neg Bool.false_ne_true]
  apply BitVec.eq_of_toNat_eq
  simp only [BitVec.extractLsb'_toNat, BitVec.toNat_add, BitVec.toNat_setWidth, BitVec.toNat_ofNat,
    Nat.shiftRight_eq_div_pow]
  omega

theorem narrowBf16_trunc (hy : (datum single y).isNaN = false) :
    narrowBf16 .trunc y = BitVec.ofNat 16 (y.toNat / 2 ^ 16) := by
  rw [narrowBf16, hy, if_neg Bool.false_ne_true]
  apply BitVec.eq_of_toNat_eq
  simp [BitVec.extractLsb'_toNat, Nat.shiftRight_eq_div_pow]

/-- The model's clamp followed by its narrowing is what R351 and R352 say of a lane. -/
theorem narrowsTo_iff : NarrowsTo rule y h ↔ h = narrowBf16 rule (clampBf16 y) := by
  unfold NarrowsTo
  cases hy : (datum single y).isNaN with
  | true => simp [clampBf16_of_isNaN hy, narrowBf16_of_isNaN hy]
  | false =>
    have hclamp : (datum single (clampBf16 y)).isNaN = false := isNaN_clampBf16.trans hy
    rw [← clampBf16_of_not_isNaN hy]
    cases rule with
    | rne => simp [narrowBf16_rne hclamp]
    | trunc => simp [narrowBf16_trunc hclamp]

/-- A NaN narrows to a quiet NaN: its exponent bits are copied and the quiet bit is set (R351). -/
theorem datum_narrowBf16_of_isNaN (hy : (datum single y).isNaN = true) :
    datum bfloat16 (narrowBf16 rule y) = .nan true := by
  rw [narrowBf16_of_isNaN hy]
  apply datum_quiet _ 8 (by decide) (by decide)
  intro i hlo hhi
  change 6 ≤ i at hlo
  change i < 15 at hhi
  rw [BitVec.getLsbD_or, BitVec.getLsbD_extractLsb']
  obtain rfl | hexp : i = 6 ∨ 7 ≤ i := by omega
  · simp
  · have hbit : y.getLsbD (16 + i) = true :=
      getLsbD_of_isNaN hy (k := 8) (by decide) (show 23 ≤ 16 + i by omega) (show 16 + i < 31 by omega)
    simp [hbit, show i < 16 by omega]

/-- A number up to the bfloat16 maximum narrows to at most that maximum: rounding cannot carry past it (R351). -/
theorem datum_narrowBf16_isFinite (hy : (datum single y).isNaN = false) (hmax : y.toNat % 2 ^ 31 ≤ 0x7F7F0000) :
    (datum bfloat16 (narrowBf16 rule y)).isFinite = true := by
  apply datum_isFinite_of_magnitude_lt bfloat16_fits
  change (narrowBf16 rule y).toNat % 2 ^ 15 < 0x7F80
  have hlt := y.isLt
  cases rule with
  | rne =>
    have hcarry : y.toNat / 2 ^ 16 % 2 ≤ 1 := Nat.le_of_lt_succ (Nat.mod_lt _ Nat.two_pos)
    rw [narrowBf16_rne hy, BitVec.toNat_ofNat]
    generalize y.toNat / 2 ^ 16 % 2 = carry at *
    omega
  | trunc =>
    rw [narrowBf16_trunc hy, BitVec.toNat_ofNat]
    omega

/-- A lane clamped and narrowed is a quiet NaN or finite (R351, R352). -/
theorem NarrowsTo.quiet_or_finite (hh : NarrowsTo rule y h) :
    datum bfloat16 h = .nan true ∨ (datum bfloat16 h).isFinite = true := by
  rw [narrowsTo_iff.mp hh]
  cases hy : (datum single y).isNaN with
  | true => exact .inl (datum_narrowBf16_of_isNaN (isNaN_clampBf16.trans hy))
  | false => exact .inr (datum_narrowBf16_isFinite (isNaN_clampBf16.trans hy) (clampBf16_magnitude_le hy))

end

theorem Datum.not_isInf_not_isSignaling {d : Datum} (h : d = .nan true ∨ d.isFinite = true) :
    d.isInf = false ∧ d.isSignaling = false := by
  obtain rfl | h := h
  · exact ⟨rfl, rfl⟩
  · cases d with
    | fin neg sig exp => exact ⟨rfl, rfl⟩
    | _ => cases h

/-! ### The elementwise lane procedure -/

theorem lane16_pack16_apply (l : ℕ → BitVec 16) {k : ℕ} (hk : k < 4) :
    lane16 (pack16 (l 0) (l 1) (l 2) (l 3)) k = l k := by
  obtain ⟨h0, h1, h2, h3⟩ := lane16_pack16 (l 0) (l 1) (l 2) (l 3)
  match k, hk with
  | 0, _ => exact h0
  | 1, _ => exact h1
  | 2, _ => exact h2
  | 3, _ => exact h3

/-- The float32 result of lane `k` of the elementwise procedure, before clamp and narrowing (R353). -/
def bf16Float (s : State) (op : BitVec 8) (m : RoundMode)
    (f : RoundMode → BitVec 32 → BitVec 32 → BitVec 32 → FpResult 32) (k : ℕ) : FpResult 32 :=
  let x := expandBf16 (lane16 s.port.a k)
  let y := expandBf16 (lane16 s.port.b k)
  f m (drawS s op (some m) k x y 0#32) x y

theorem bf16Lane_eq (s : State) (op : BitVec 8) (m : RoundMode)
    (f : RoundMode → BitVec 32 → BitVec 32 → BitVec 32 → FpResult 32) (k : ℕ) :
    bf16Lane s op m f k =
      { value := narrowBf16 s.params.bf16Narrow (clampBf16 (bf16Float s op m f k).value)
        flags := (bf16Float s op m f k).flags } := rfl

/-- The selector `i` answers, under every effective mode, with four lanes clamped and narrowed from float32 results of which
`P` holds, and with the flags of those results ORed (R353). -/
def AnswersBf16 (P : RoundMode → Datum → Datum → BitVec 32 → BitVec 5 → Prop) (i : BitVec 3 → Instr) : Prop :=
  ∀ (rm : BitVec 3) (s : State) (m : RoundMode), effMode s.ambientRm rm = some m →
    ∃ (r : Word) (y : ℕ → BitVec 32) (g : ℕ → BitVec 5),
      exec (i rm) s = .next (s.answeredDrawing r (g 0 ||| g 1 ||| g 2 ||| g 3)) ∧
      ∀ k < 4, P m (datum single (lane16 s.port.a k ++ 0#16)) (datum single (lane16 s.port.b k ++ 0#16)) (y k) (g k) ∧
        NarrowsTo s.params.bf16Narrow (y k) (lane16 r k)

/-- A meaning by the lane procedure answers by whatever rule the lane's operation follows. -/
theorem AnswersBf16.of_answerBf16 {P : RoundMode → Datum → Datum → BitVec 32 → BitVec 5 → Prop} {i : BitVec 3 → Instr}
    (op : BitVec 8) {f : RoundMode → BitVec 32 → BitVec 32 → BitVec 32 → FpResult 32}
    (hf : ∀ m pick x y, P m (datum single x) (datum single y) (f m pick x y).value (f m pick x y).flags)
    (hexec : ∀ rm s, exec (i rm) s = withMode rm s (s.answerBf16 op f)) : AnswersBf16 P i := by
  intro rm s m hm
  refine ⟨pack16 (bf16Lane s op m f 0).value (bf16Lane s op m f 1).value (bf16Lane s op m f 2).value
      (bf16Lane s op m f 3).value, fun k => (bf16Float s op m f k).value, fun k => (bf16Float s op m f k).flags, ?_, ?_⟩
  · rw [hexec, withMode_of_some _ hm]
    rfl
  · intro k hk
    rw [lane16_pack16_apply (fun k => (bf16Lane s op m f k).value) hk, bf16Lane_eq]
    exact ⟨hf m _ _ _, narrowsTo_iff.mpr rfl⟩

theorem bf16Add_answers : AnswersBf16 (SumResult single) .bf16Add :=
  .of_answerBf16 0xC0#8 (addF_result single_serves) fun _ _ => rfl

theorem bf16Sub_answers : AnswersBf16 (fun m x y => SumResult single m x (y.negateIf true)) .bf16Sub :=
  .of_answerBf16 0xC1#8 (subF_result single_serves) fun _ _ => rfl

theorem bf16Mul_answers : AnswersBf16 (ProductResult single) .bf16Mul :=
  .of_answerBf16 0xC2#8 (mulF_result single_serves) fun _ _ => rfl

theorem bf16Div_answers : AnswersBf16 (QuotientResult single) .bf16Div :=
  .of_answerBf16 0xC3#8 (quotientF_result single_serves) fun _ _ => rfl

/-- The selectors 0xC0 to 0xC3 are the four elementwise operations. -/
theorem exists_answersBf16 {i : Instr} (hlo : 0xC0 ≤ i.selector.toNat) (hhi : i.selector.toNat ≤ 0xC3) :
    ∃ P f, AnswersBf16 P f ∧ i = f i.rm ∧ i.rounds = true := by
  cases i with
  | bf16Add rm => exact ⟨_, _, bf16Add_answers, rfl, rfl⟩
  | bf16Sub rm => exact ⟨_, _, bf16Sub_answers, rfl, rfl⟩
  | bf16Mul rm => exact ⟨_, _, bf16Mul_answers, rfl, rfl⟩
  | bf16Div rm => exact ⟨_, _, bf16Div_answers, rfl, rfl⟩
  | _ => exact absurd (And.intro hlo hhi) (of_decide_eq_false rfl)

/-- A selector that rounds and is not refused has an effective mode (R40, R41). -/
theorem exists_effMode_of_exec {i : Instr} {s t : State} (hi : i.rounds = true) (ht : exec i s = .next t) :
    ∃ m, effMode s.ambientRm i.rm = some m := by
  obtain ⟨k, hk, -⟩ := exec_of_rounds s hi
  obtain ⟨m, hm, -⟩ | ⟨-, hrefused⟩ := withMode_cases i.rm s k
  · exact ⟨m, hm⟩
  · rw [hk, hrefused] at ht
    cases ht

/-- Each lane of the response of an elementwise selector is clamped and narrowed from some float32 result. -/
theorem AnswersBf16.exists_narrowsTo {P : RoundMode → Datum → Datum → BitVec 32 → BitVec 5 → Prop} {f : BitVec 3 → Instr}
    (h : AnswersBf16 P f) {rm : BitVec 3} {s t : State} {m : RoundMode} (hm : effMode s.ambientRm rm = some m)
    (ht : exec (f rm) s = .next t) {r : Response} (hr : t.response = some r) {k : ℕ} (hk : k < 4) :
    ∃ y, NarrowsTo s.params.bf16Narrow y (lane16 r.result k) := by
  obtain ⟨v, y, g, hv, hlanes⟩ := h rm s m hm
  cases hv.symm.trans ht
  cases hr
  obtain ⟨-, hnarrow⟩ := hlanes k hk
  exact ⟨y k, hnarrow⟩

/-! ### The dot product -/

section
variable (s : State) (m : RoundMode)

/-- The rounded product of lane `k` (R358). -/
def dotProduct (k : ℕ) : FpResult 32 :=
  let x := expandBf16 (lane16 s.port.a k)
  let y := expandBf16 (lane16 s.port.b k)
  mulF single m (drawS s 0xC4#8 (some m) (2 * k) x y 0#32) x y

/-- The accumulator after the first `k` lanes, with every flag so far (R358). -/
def dotSum : ℕ → FpResult 32
  | 0 => exactResult (low32 s.port.c)
  | k + 1 => dotStep s m (dotSum k) k

/-- The rounded sum of the accumulator before lane `k` and that lane's product (R358). -/
def dotAdd (k : ℕ) : FpResult 32 :=
  let acc := (dotSum s m k).value
  let p := (dotProduct s m k).value
  addF single m (drawS s 0xC4#8 (some m) (2 * k + 1) acc p 0#32) acc p

theorem dotSum_succ (k : ℕ) :
    dotSum s m (k + 1) =
      { value := (dotAdd s m k).value
        flags := (dotSum s m k).flags ||| (dotProduct s m k).flags ||| (dotAdd s m k).flags } := rfl

theorem dotSum_zero_flags : (dotSum s m 0).flags = 0#5 := rfl

theorem exec_bf16Dot (rm : BitVec 3) :
    exec (.bf16Dot rm) s = withMode rm s fun m => s.answerS (dotSum s m 4) := rfl

theorem dotProduct_result (k : ℕ) :
    ProductResult single m (datum single (lane16 s.port.a k ++ 0#16)) (datum single (lane16 s.port.b k ++ 0#16))
      (dotProduct s m k).value (dotProduct s m k).flags :=
  mulF_result single_serves m _ _ _

theorem dotSum_succ_result (k : ℕ) :
    SumResult single m (datum single (dotSum s m k).value) (datum single (dotProduct s m k).value)
      (dotSum s m (k + 1)).value (dotAdd s m k).flags :=
  addF_result single_serves m _ _ _

end

/-! ### The statements -/

/-- Settles O54, by the lane procedure over each operation's float32 rule. -/
theorem bf16Elementwise : Obligations.Bf16Elementwise := fun rm s m hm =>
  ⟨bf16Add_answers rm s m hm, bf16Sub_answers rm s m hm, bf16Mul_answers rm s m hm, bf16Div_answers rm s m hm⟩

/-- Settles O55: whatever the float32 results are, clamp and narrowing leave a quiet NaN or a finite lane. -/
theorem bf16NeverInfinite : Obligations.Bf16NeverInfinite := by
  intro i s t r k hlo hhi hk ht hr
  obtain ⟨P, f, hf, hi, hrounds⟩ := exists_answersBf16 hlo hhi
  obtain ⟨m, hm⟩ := exists_effMode_of_exec hrounds ht
  rw [hi] at ht
  obtain ⟨y, hy⟩ := hf.exists_narrowsTo hm ht hr hk
  exact Datum.not_isInf_not_isSignaling hy.quiet_or_finite

/-- Settles O56: the accumulator starts without a flag, and each lane adds its product's flags and then its sum's. -/
theorem bf16DotProduct : Obligations.Bf16DotProduct := by
  intro rm s m hm
  refine ⟨fun k => (dotProduct s m k).value, fun k => (dotSum s m k).value, fun k => (dotProduct s m k).flags,
    fun k => (dotAdd s m k).flags, rfl, fun k _ => ⟨dotProduct_result s m k, dotSum_succ_result s m k⟩, ?_⟩
  rw [exec_bf16Dot, withMode_of_some _ hm, State.answerS_eq]
  simp only [dotSum_succ, dotSum_zero_flags, BitVec.zero_or]

end Sys2Proof.Machine

/-! PROOFS. PackedF32: a packed float32 selector answers lane by lane, each lane a float32 result of Laws/Results clamped to the
finite numbers, and the remainder of two finite lanes is written without rounding (`47_packed_f32.md` R380 to R387). -/

namespace Sys2Proof.Machine

/-! ### The kinds of data -/

section
variable {d : Datum}

theorem Datum.exists_nan_of_isNaN (h : d.isNaN = true) : ∃ quiet, d = .nan quiet := by
  cases d with
  | nan quiet => exact ⟨quiet, rfl⟩
  | _ => cases h

theorem Datum.exists_inf_of_isInf (h : d.isInf = true) : ∃ neg, d = .inf neg := by
  cases d with
  | inf neg => exact ⟨neg, rfl⟩
  | _ => cases h

theorem Datum.exists_fin_of_isFinite (h : d.isFinite = true) : ∃ neg sig exp, d = .fin neg sig exp := by
  cases d with
  | fin neg sig exp => exact ⟨neg, sig, exp, rfl⟩
  | _ => cases h

theorem Datum.exists_fin_of_isZero (h : d.isZero = true) : ∃ neg exp, d = .fin neg 0 exp := by
  cases d with
  | fin neg sig exp =>
    obtain rfl : sig = 0 := of_decide_eq_true h
    exact ⟨neg, exp, rfl⟩
  | _ => cases h

theorem Datum.isInf_eq_false_of_isFinite (h : d.isFinite = true) : d.isInf = false :=
  (Datum.not_isInf_not_isSignaling (.inr h)).1

end

/-! ### Numbers a format holds -/

section
variable {F : Format} {w : ℕ}

/-- The sign, significand and exponent a finite pattern can have (R201). -/
theorem datum_fin_bounds (hF : F.Fits w) {x : BitVec w} {neg : Bool} {sig : ℕ} {exp : ℤ} (h : datum F x = .fin neg sig exp) :
    neg = x.msb ∧ sig < 2 ^ F.precision ∧ emin F - fractionBits F ≤ exp ∧ exp ≤ F.emax - fractionBits F := by
  have hprec : 2 ^ F.precision = 2 * 2 ^ fractionBits F := by
    rw [← pow_succ', fractionBits, Nat.sub_add_cancel (one_le_two.trans hF.precision)]
  have hfrac : fractionField F x < 2 ^ fractionBits F := Nat.mod_lt _ (by positivity)
  have hfield : exponentField F x < maxField F + 1 := Nat.mod_lt _ (Nat.succ_pos _)
  have hmaxField : maxField F = 2 * F.emax + 1 := rfl
  have hemin : emin F = 1 - F.emax := rfl
  have hemax := hF.emax
  unfold datum at h
  dsimp only at h
  split_ifs at h with hmax hzero he
  · cases h
    exact ⟨rfl, by omega, le_rfl, by omega⟩
  · cases h
    exact ⟨rfl, by omega, by omega, by omega⟩

theorem RoundedResult.msb_eq {m : RoundMode} {z : ℝ} {v : BitVec w} {fl : BitVec 5} (h : RoundedResult F m z v fl) :
    v.msb = decide (z < 0) := by
  obtain ⟨e, n, -, -, -, ⟨-, -, hmsb, -⟩ | ⟨-, -, hmsb, -⟩⟩ := h
  · exact hmsb
  · exact hmsb

theorem abs_value_fin_real (neg : Bool) (sig : ℕ) (exp : ℤ) :
    |(((Datum.fin neg sig exp).value : ℚ) : ℝ)| = (sig : ℝ) * 2 ^ exp := by
  rw [← Rat.cast_abs, abs_value_fin]
  push_cast
  rfl

/-- A number of no more bits than the precision, not below the least subnormal's place, is a whole number of its binade's
spacing (R206). -/
theorem exists_mul_spacing_of_fin (hF : F.Fits w) {neg : Bool} {sig : ℕ} {exp : ℤ} (hsig : sig < 2 ^ F.precision)
    (hexp : emin F - fractionBits F ≤ exp) {e : ℤ} (he : (2 : ℝ) ^ e ≤ |(((Datum.fin neg sig exp).value : ℚ) : ℝ)|) :
    ∃ k : ℤ, (((Datum.fin neg sig exp).value : ℚ) : ℝ) = k * (2 : ℝ) ^ (max e (emin F) - fractionBits F) := by
  have htop : (sig : ℝ) * 2 ^ exp < 2 ^ (exp + fractionBits F + 1) := by
    rw [← zpow_precision hF.precision, add_sub_cancel_right]
    gcongr
    exact_mod_cast hsig
  have hlt : e < exp + fractionBits F + 1 := by
    rw [← zpow_lt_zpow_iff_right₀ (one_lt_two (α := ℝ))]
    exact (he.trans_eq (abs_value_fin_real neg sig exp)).trans_lt htop
  refine ⟨alignedInt neg sig exp (max e (emin F) - fractionBits F), ?_⟩
  rw [alignedInt_value]
  omega

/-- A number the format holds is its own rounding, sign and all: nothing is lost and nothing is raised (R206, R216). -/
theorem roundFinite_exact (hF : F.Fits w) (m : RoundMode) (neg : Bool) {sig : ℕ} {exp : ℤ} (hsig : sig < 2 ^ F.precision)
    (hlo : emin F - fractionBits F ≤ exp) (hhi : exp ≤ F.emax - fractionBits F) :
    let v := (roundFinite F m neg sig exp : FpResult w).value
    (datum F v).isFinite = true ∧ v.msb = neg ∧ (datum F v).value = (Datum.fin neg sig exp).value := by
  obtain ⟨hzero, hround⟩ := roundFinite_spec (w := w) hF m neg sig exp
  by_cases h0 : sig = 0
  · rw [hzero h0]
    dsimp only [exactResult]
    have hmsb : (zeroPattern neg : BitVec w).msb = neg := signedPattern_msb hF neg 0 (by positivity)
    rw [datum_zeroPattern hF, (value_eq_zero neg sig exp).mpr h0, (value_eq_zero neg 0 _).mpr rfl]
    exact ⟨rfl, hmsb, rfl⟩
  · have hr := hround h0
    have hmax : |(((Datum.fin neg sig exp).value : ℚ) : ℝ)| < (2 : ℝ) ^ ((F.emax : ℤ) + 1) := by
      rw [abs_value_fin_real, ← zpow_precision hF.precision]
      calc (sig : ℝ) * 2 ^ exp < 2 ^ F.precision * 2 ^ exp := by
            gcongr
            exact_mod_cast hsig
        _ ≤ 2 ^ F.precision * 2 ^ ((F.emax : ℤ) - fractionBits F) := by
            gcongr
            exact one_le_two
    obtain ⟨-, hfinite, hvalue⟩ := hr.exact hmax fun e he _ => exists_mul_spacing_of_fin hF hsig hlo he
    refine ⟨hfinite, ?_, by exact_mod_cast hvalue⟩
    have hpos : (0 : ℝ) < (sig : ℝ) * 2 ^ exp := by positivity
    rw [hr.msb_eq, value_fin]
    cases neg <;> simp [hpos, hpos.le]

end

/-! ### The remainder -/

/-- The significand `sig` of exponent `exp`, written for a smaller exponent `e`. -/
def alignedSig (sig : ℕ) (exp e : ℤ) : ℕ := sig * 2 ^ (exp - e).toNat

theorem alignedSig_self (sig : ℕ) (e : ℤ) : alignedSig sig e e = sig := by
  simp [alignedSig]

theorem alignedSig_pos {sig : ℕ} (h : sig ≠ 0) (exp e : ℤ) : 0 < alignedSig sig exp e :=
  Nat.mul_pos (Nat.pos_of_ne_zero h) (by positivity)

theorem abs_value_alignedSig (neg : Bool) (sig : ℕ) {exp e : ℤ} (h : e ≤ exp) :
    |(Datum.fin neg sig exp).value| = (alignedSig sig exp e : ℚ) * 2 ^ e := by
  have hexp : exp = (exp - e).toNat + e := by omega
  rw [abs_value_fin, alignedSig]
  push_cast
  rw [mul_assoc, ← zpow_natCast, ← zpow_add₀ two_ne_zero, ← hexp]

theorem remFinite_eq (neg : Bool) (sig : ℕ) (exp : ℤ) (sig' : ℕ) (exp' : ℤ) :
    remFinite neg sig exp sig' exp' =
      (roundFinite single .rne neg (alignedSig sig exp (min exp exp') % alignedSig sig' exp' (min exp exp'))
        (min exp exp') : FpResult 32).value := rfl

/-- The remainder of two aligned significands has no more bits than the operand that stands at the common exponent. -/
theorem alignedSig_mod_lt {sig sig' b : ℕ} (hsig : sig < b) (hsig' : sig' < b) (h0 : sig' ≠ 0) (exp exp' : ℤ) :
    alignedSig sig exp (min exp exp') % alignedSig sig' exp' (min exp exp') < b := by
  obtain hle | hle := le_total exp exp'
  · rw [min_eq_left hle, alignedSig_self]
    exact (Nat.mod_le _ _).trans_lt hsig
  · rw [min_eq_right hle, alignedSig_self]
    exact (Nat.mod_lt _ (Nat.pos_of_ne_zero h0)).trans hsig'

/-- `v` is the remainder of the truncated division of `x` by `y`, with the sign of `x` (R386). -/
def IsRemainder (x y v : BitVec 32) : Prop :=
  (datum single v).isFinite = true ∧ v.msb = x.msb ∧ |(datum single v).value| < |(datum single y).value| ∧
    ∃ n : ℕ, |(datum single x).value| = n * |(datum single y).value| + |(datum single v).value|

section
variable {pick x y : BitVec 32} {neg neg' : Bool} {sig sig' : ℕ} {exp exp' : ℤ}

/-- A zero is the remainder of itself. -/
theorem isRemainder_zero (hx : datum single x = .fin neg 0 exp) (hy : datum single y = .fin neg' sig' exp') (h0 : sig' ≠ 0) :
    IsRemainder x y x := by
  have hzero : (datum single x).value = 0 := by rw [hx, value_eq_zero]
  have hdiv : (datum single y).value ≠ 0 := by rwa [hy, ne_eq, value_eq_zero]
  rw [IsRemainder, hzero, abs_zero]
  exact ⟨by rw [hx]; rfl, rfl, abs_pos.mpr hdiv, 0, by simp⟩

/-- The remainder of the significands aligned to the smaller exponent is a number single precision holds, so writing it as a
pattern changes nothing (R386, assumption log 15). -/
theorem isRemainder_remFinite (hx : datum single x = .fin neg sig exp) (hy : datum single y = .fin neg' sig' exp')
    (h0 : sig' ≠ 0) : IsRemainder x y (remFinite neg sig exp sig' exp') := by
  obtain ⟨hmsb, hsig, hlo, hhi⟩ := datum_fin_bounds single_fits hx
  obtain ⟨-, hsig', hlo', -⟩ := datum_fin_bounds single_fits hy
  obtain ⟨hfinite, hsign, hvalue⟩ := roundFinite_exact single_fits .rne neg (alignedSig_mod_lt hsig hsig' h0 exp exp')
    (le_min hlo hlo') (min_le_of_left_le hhi)
  rw [← remFinite_eq] at hfinite hsign hvalue
  refine ⟨hfinite, hsign.trans hmsb, ?_, alignedSig sig exp (min exp exp') / alignedSig sig' exp' (min exp exp'), ?_⟩
  all_goals rw [hvalue, abs_value_fin, hy, abs_value_alignedSig neg' sig' (min_le_right exp exp')]
  · gcongr
    exact Nat.mod_lt _ (alignedSig_pos h0 _ _)
  · rw [hx, abs_value_alignedSig neg sig (min_le_left exp exp'), ← mul_assoc, ← add_mul]
    congr 1
    exact_mod_cast (Nat.div_add_mod' _ _).symm

/-! ### The rows of R386, in its order -/

theorem fmodS_of_zero_divisor (hy : (datum single y).isZero = true) :
    fmodS pick x y = { value := canonicalNaN single, flags := flagNV } := by
  obtain ⟨neg', exp', hdy⟩ := Datum.exists_fin_of_isZero hy
  rw [fmodS, hdy]
  cases datum single x <;> rfl

theorem fmodS_of_isNaN (hy : (datum single y).isZero = false)
    (h : (datum single x).isNaN = true ∨ (datum single y).isNaN = true) :
    fmodS pick x y = nanResult single pick ((datum single x).isSignaling || (datum single y).isSignaling) := by
  obtain h | h := h
  · obtain ⟨quiet, hdx⟩ := Datum.exists_nan_of_isNaN h
    rw [fmodS, hdx]
    cases hdy : datum single y with
    | nan quiet' => rfl
    | inf neg' => simp [Datum.isSignaling]
    | fin neg' sig' exp' =>
      rw [hdy] at hy
      simp [Datum.isSignaling, of_decide_eq_false hy]
  · obtain ⟨quiet', hdy⟩ := Datum.exists_nan_of_isNaN h
    rw [fmodS, hdy]
    cases datum single x <;> rfl

theorem fmodS_of_inf_dividend (hy : (datum single y).isZero = false) (hx : (datum single x).isInf = true)
    (hnan : (datum single y).isNaN = false) : fmodS pick x y = nanResult single pick true := by
  obtain ⟨neg, hdx⟩ := Datum.exists_inf_of_isInf hx
  rw [fmodS, hdx]
  cases hdy : datum single y with
  | nan quiet' =>
    rw [hdy] at hnan
    cases hnan
  | inf neg' => rfl
  | fin neg' sig' exp' =>
    rw [hdy] at hy
    exact if_neg (of_decide_eq_false hy)

theorem fmodS_of_inf_divisor (hx : (datum single x).isFinite = true) (hy : (datum single y).isInf = true) :
    fmodS pick x y = exactResult x := by
  obtain ⟨neg, sig, exp, hdx⟩ := Datum.exists_fin_of_isFinite hx
  obtain ⟨neg', hdy⟩ := Datum.exists_inf_of_isInf hy
  rw [fmodS, hdx, hdy]

/-- `fmod_S` of two finite lanes raises nothing and is their remainder. -/
theorem fmodS_finite (hzero : (datum single y).isZero = false) (hx : (datum single x).isFinite = true)
    (hy : (datum single y).isFinite = true) :
    (fmodS pick x y).flags = 0#5 ∧ IsRemainder x y (fmodS pick x y).value := by
  obtain ⟨neg, sig, exp, hdx⟩ := Datum.exists_fin_of_isFinite hx
  obtain ⟨neg', sig', exp', hdy⟩ := Datum.exists_fin_of_isFinite hy
  rw [hdy] at hzero
  have h0 : sig' ≠ 0 := of_decide_eq_false hzero
  rw [fmodS, hdx, hdy]
  dsimp only
  rw [if_neg h0]
  split_ifs with hsig
  · subst hsig
    exact ⟨rfl, isRemainder_zero hdx hdy h0⟩
  · exact ⟨rfl, isRemainder_remFinite hdx hdy h0⟩

variable (pick x y)

theorem fmodS_result : RemainderResult x y (fmodS pick x y).value (fmodS pick x y).flags := by
  refine ⟨fun hzero => ?_, fun hzero => ⟨fun hnan => ?_, fun hx hy => ?_, fun hx hy => ?_, fun hx hy => ?_⟩⟩
  · rw [fmodS_of_zero_divisor hzero]
    exact ⟨rfl, rfl⟩
  · rw [fmodS_of_isNaN hzero hnan]
    exact ⟨nanResult_single _ _, nanResult_flags _ _⟩
  · rw [fmodS_of_inf_dividend hzero hx hy]
    exact ⟨nanResult_single _ _, nanResult_flags _ _⟩
  · rw [fmodS_of_inf_divisor hx hy]
    exact ⟨rfl, rfl⟩
  · exact fmodS_finite hzero hx hy

end

/-! ### The clamp -/

section
variable {x y v : BitVec 32} {g fl : BitVec 5}

theorem isInf_maxPattern (neg : Bool) : (datum single (maxPattern single neg : BitVec 32)).isInf = false := by
  cases neg <;> decide

theorem withSign_maxSingle (neg : Bool) : withSign neg 0x7F7FFFFF#32 = maxPattern single neg := by
  cases neg <;> decide

/-- The model's clamp is R381's. -/
theorem clampsTo_clampInf (r : FpResult 32) : ClampsTo r.value r.flags (clampInf r).value (clampInf r).flags := by
  refine ⟨fun h => ?_, fun h => ?_⟩
  · rw [clampInf, if_pos h, withSign_maxSingle]
    exact ⟨rfl, rfl⟩
  · rw [clampInf, h, if_neg Bool.false_ne_true]
    exact ⟨rfl, rfl⟩

theorem ClampsTo.isInf_eq_false (h : ClampsTo y g v fl) : (datum single v).isInf = false := by
  obtain ⟨hinf, hother⟩ := h
  cases hy : (datum single y).isInf with
  | true =>
    obtain ⟨rfl, -⟩ := hinf hy
    exact isInf_maxPattern _
  | false =>
    obtain ⟨rfl, -⟩ := hother hy
    exact hy

/-- No remainder is an infinity: it is a NaN, the finite dividend or a finite remainder (R386). -/
theorem RemainderResult.isInf_eq_false (h : RemainderResult x y v fl) : (datum single v).isInf = false := by
  obtain ⟨hzero, hother⟩ := h
  by_cases hdiv : (datum single y).isZero = true
  · obtain ⟨rfl, -⟩ := hzero hdiv
    decide
  obtain ⟨hnan, hinf, hinf', hfinite⟩ := hother (Bool.eq_false_iff.mpr hdiv)
  have hquiet : datum single v = .nan true → (datum single v).isInf = false := fun hv => by rw [hv]; rfl
  cases hx : datum single x with
  | nan quiet => exact hquiet (hnan (.inl (by rw [hx]; rfl))).1
  | inf neg =>
    cases hy : (datum single y).isNaN with
    | true => exact hquiet (hnan (.inr hy)).1
    | false => exact hquiet (hinf (by rw [hx]; rfl) hy).1
  | fin neg sig exp =>
    have hfin : (datum single x).isFinite = true := by rw [hx]; rfl
    cases hy : datum single y with
    | nan quiet => exact hquiet (hnan (.inr (by rw [hy]; rfl))).1
    | inf neg' =>
      obtain ⟨rfl, -⟩ := hinf' hfin (by rw [hy]; rfl)
      exact Datum.isInf_eq_false_of_isFinite hfin
    | fin neg' sig' exp' =>
      obtain ⟨-, hv, -⟩ := hfinite hfin (by rw [hy]; rfl)
      exact Datum.isInf_eq_false_of_isFinite hv

/-- The clamp of a remainder lane changes nothing (R381, R386). -/
theorem RemainderResult.of_clampsTo (h : RemainderResult x y v g) {r : BitVec 32} (hr : ClampsTo v g r fl) :
    RemainderResult x y r fl := by
  obtain ⟨-, hother⟩ := hr
  obtain ⟨rfl, rfl⟩ := hother h.isInf_eq_false
  exact h

end

/-! ### The lane procedure -/

theorem lane32_pack32_apply (l : ℕ → BitVec 32) {k : ℕ} (hk : k < 2) : lane32 (pack32 (l 0) (l 1)) k = l k := by
  obtain ⟨h0, h1⟩ := lane32_pack32 (l 0) (l 1)
  match k, hk with
  | 0, _ => exact h0
  | 1, _ => exact h1

/-- The float32 result of lane `k`, before the clamp (R380). -/
def pf32Float (s : State) (op : BitVec 8) (mode : Option RoundMode) (f : BitVec 32 → BitVec 32 → BitVec 32 → FpResult 32)
    (k : ℕ) : FpResult 32 :=
  let x := lane32 s.port.a k
  let y := lane32 s.port.b k
  f (drawS s op mode k x y 0#32) x y

theorem pf32Lane_eq (s : State) (op : BitVec 8) (mode : Option RoundMode)
    (f : BitVec 32 → BitVec 32 → BitVec 32 → FpResult 32) (k : ℕ) :
    pf32Lane s op mode f k = clampInf (pf32Float s op mode f k) := rfl

/-- The instruction `i` answers in state `s` with two lanes clamped from float32 results of which `P` holds, and with the
flags of both lanes ORed (R380). -/
def AnswersPf32 (P : BitVec 32 → BitVec 32 → BitVec 32 → BitVec 5 → Prop) (i : Instr) (s : State) : Prop :=
  ∃ (r : Word) (y : ℕ → BitVec 32) (g fl : ℕ → BitVec 5), exec i s = .next (s.answeredDrawing r (fl 0 ||| fl 1)) ∧
    ∀ k < 2, P (lane32 s.port.a k) (lane32 s.port.b k) (y k) (g k) ∧ ClampsTo (y k) (g k) (lane32 r k) (fl k)

section
variable {s t : State} {rm : BitVec 3} {m : RoundMode}

/-- A meaning by the lane procedure answers by whatever rule the lane's operation follows. -/
theorem AnswersPf32.of_answerPf32 {P : BitVec 32 → BitVec 32 → BitVec 32 → BitVec 5 → Prop} {i : Instr} (op : BitVec 8)
    (mode : Option RoundMode) {f : BitVec 32 → BitVec 32 → BitVec 32 → FpResult 32}
    (hf : ∀ pick x y, P x y (f pick x y).value (f pick x y).flags) (hexec : exec i s = .next (s.answerPf32 op mode f)) :
    AnswersPf32 P i s := by
  refine ⟨pack32 (pf32Lane s op mode f 0).value (pf32Lane s op mode f 1).value, fun k => (pf32Float s op mode f k).value,
    fun k => (pf32Float s op mode f k).flags, fun k => (pf32Lane s op mode f k).flags, hexec, fun k hk => ?_⟩
  rw [lane32_pack32_apply (fun k => (pf32Lane s op mode f k).value) hk, pf32Lane_eq]
  exact ⟨hf _ _ _, clampsTo_clampInf _⟩

theorem pf32Add_answers (hm : effMode s.ambientRm rm = some m) :
    AnswersPf32 (fun x y => SumResult single m (datum single x) (datum single y)) (.pf32Add rm) s :=
  .of_answerPf32 0xD0#8 (some m) (addF_result single_serves m) (withMode_of_some _ hm)

theorem pf32Sub_answers (hm : effMode s.ambientRm rm = some m) :
    AnswersPf32 (fun x y => SumResult single m (datum single x) ((datum single y).negateIf true)) (.pf32Sub rm) s :=
  .of_answerPf32 0xD1#8 (some m) (subF_result single_serves m) (withMode_of_some _ hm)

theorem pf32Mul_answers (hm : effMode s.ambientRm rm = some m) :
    AnswersPf32 (fun x y => ProductResult single m (datum single x) (datum single y)) (.pf32Mul rm) s :=
  .of_answerPf32 0xD2#8 (some m) (mulF_result single_serves m) (withMode_of_some _ hm)

theorem pf32Div_answers (hm : effMode s.ambientRm rm = some m) :
    AnswersPf32 (fun x y => DivisionResult single m (datum single x) (datum single y)) (.pf32Div rm) s :=
  .of_answerPf32 0xD3#8 (some m) (divF_result single_serves m) (withMode_of_some _ hm)

theorem pf32Rem_answers (rm : BitVec 3) (s : State) : AnswersPf32 RemainderResult (.pf32Rem rm) s :=
  .of_answerPf32 0xD4#8 none fmodS_result rfl

/-- The selectors 0xD0 to 0xD4 are the operations of the lane procedure, and they answer where they are not refused. -/
theorem exists_answersPf32 {i : Instr} (hlo : 0xD0 ≤ i.selector.toNat) (hhi : i.selector.toNat ≤ 0xD4)
    (ht : exec i s = .next t) : ∃ P, AnswersPf32 P i s := by
  cases i with
  | pf32Add rm =>
    obtain ⟨m, hm⟩ := exists_effMode_of_exec rfl ht
    exact ⟨_, pf32Add_answers hm⟩
  | pf32Sub rm =>
    obtain ⟨m, hm⟩ := exists_effMode_of_exec rfl ht
    exact ⟨_, pf32Sub_answers hm⟩
  | pf32Mul rm =>
    obtain ⟨m, hm⟩ := exists_effMode_of_exec rfl ht
    exact ⟨_, pf32Mul_answers hm⟩
  | pf32Div rm =>
    obtain ⟨m, hm⟩ := exists_effMode_of_exec rfl ht
    exact ⟨_, pf32Div_answers hm⟩
  | pf32Rem rm => exact ⟨_, pf32Rem_answers rm s⟩
  | _ => exact absurd (And.intro hlo hhi) (of_decide_eq_false rfl)

/-- Each lane of the response is clamped from some float32 result. -/
theorem AnswersPf32.exists_clampsTo {P : BitVec 32 → BitVec 32 → BitVec 32 → BitVec 5 → Prop} {i : Instr}
    (h : AnswersPf32 P i s) (ht : exec i s = .next t) {r : Response} (hr : t.response = some r) {k : ℕ} (hk : k < 2) :
    ∃ y g fl, ClampsTo y g (lane32 r.result k) fl := by
  obtain ⟨v, y, g, fl, hv, hlanes⟩ := h
  cases hv.symm.trans ht
  cases hr
  obtain ⟨-, hclamp⟩ := hlanes k hk
  exact ⟨y k, g k, fl k, hclamp⟩

end

/-! ### The statements -/

/-- Settles O57, by the lane procedure over each operation's float32 rule. -/
theorem pf32Elementwise : Obligations.Pf32Elementwise := fun _ _ _ hm =>
  ⟨pf32Add_answers hm, pf32Sub_answers hm, pf32Mul_answers hm, pf32Div_answers hm⟩

/-- Settles O58: whatever the float32 results are, the clamp leaves no infinity. -/
theorem pf32NeverInfinite : Obligations.Pf32NeverInfinite := by
  intro i s t r k hlo hhi hk ht hr
  obtain ⟨P, hP⟩ := exists_answersPf32 hlo hhi ht
  obtain ⟨y, g, fl, hclamp⟩ := hP.exists_clampsTo ht hr hk
  exact hclamp.isInf_eq_false

/-- Settles O59: each lane is `fmod_S`'s remainder, which the clamp leaves as it is. -/
theorem pf32Remainder : Obligations.Pf32Remainder := by
  refine ⟨.of_fields fun _ => ⟨rfl, rfl⟩, fun rm s => ?_⟩
  obtain ⟨r, y, g, fl, hexec, hlanes⟩ := pf32Rem_answers rm s
  refine ⟨r, fl, hexec, fun k hk => ?_⟩
  obtain ⟨hrem, hclamp⟩ := hlanes k hk
  exact hrem.of_clampsTo hclamp

/-- Settles O60: the low words of the operands stand side by side. -/
theorem pf32Pack : Obligations.Pf32Pack :=
  ⟨.of_fields fun _ => ⟨rfl, rfl⟩, fun _ s => ⟨pack32 (low32 s.port.a) (low32 s.port.b), rfl, lane32_pack32 _ _⟩⟩

end Sys2Proof.Machine

/-! PROOFS. Reset and hazards: the generator is seeded once (`70_reset_and_hazards.md` R490), overlapping requests are refused
(R464, R500), and a well-formed instruction completes with a response (`60_exceptions.md` R460). -/

namespace Sys2Proof.Machine

section
variable {s t : State}

theorem State.Completes.port_eq (h : s.Completes t) : t.port = s.port := by
  cases h <;> rfl

theorem State.Completes.rng_eq_or_next (h : s.Completes t) : t.rng = s.rng ∨ t.rng = Config.rngNext s.rng := by
  cases h with
  | answered | drawing => exact .inl rfl
  | injected => exact .inr rfl

end

/-- Settles O1: an idle step keeps the whole state, and completing a request at most advances the generator. -/
theorem resetSeedsGenerator : Obligations.ResetSeedsGenerator := by
  refine ⟨State.reset_rng, fun s t h => ?_⟩
  obtain ⟨-, rfl⟩ | ⟨q, rest, -, -, hc⟩ := step_cases h
  · exact .inl rfl
  · exact hc.rng_eq_or_next

/-- Settles O10: taking the oldest request finds the serialisation bit set. -/
theorem overlapRefused : Obligations.OverlapRefused := by
  intro s hs hp
  obtain ⟨q, rest, hr⟩ := List.exists_cons_of_ne_nil hs
  exact step_overlapping s q rest hr hp

/-- Settles O13: a well-formed instruction is not refused, so it completes, and completing has the frame stated. -/
theorem wellFormedCompletes : Obligations.WellFormedCompletes := by
  intro i s hi
  obtain ⟨t, ht⟩ := exec_of_wellFormed s hi
  have hc := exec_completes ht
  obtain ⟨r, hr⟩ := Option.ne_none_iff_exists'.mp hc.response_ne_none
  exact ⟨t, r, ht, hr, hc.requests_eq, hc.port_eq, hc.sameEnvironment⟩

end Sys2Proof.Machine

/-! PROOFS. Codec: parity as a count of ones and the Hamming field as an XOR of positions (`48_ecc_codec.md` R400 to R402), then
what one and two flipped bits make of a code word (R406, R408). -/

namespace Sys2Proof.Machine

/-! ### XOR over a list of positions -/

section
variable {f g : ℕ → Bool}

theorem xorOver_cons (p : ℕ) (ps : List ℕ) (f : ℕ → Bool) : xorOver (p :: ps) f = (f p ^^ xorOver ps f) := rfl

theorem xorOver_append (ps qs : List ℕ) (f : ℕ → Bool) : xorOver (ps ++ qs) f = (xorOver ps f ^^ xorOver qs f) := by
  induction ps with
  | nil => exact (Bool.false_xor _).symm
  | cons p ps ih => rw [List.cons_append, xorOver_cons, xorOver_cons, ih, Bool.xor_assoc]

theorem xorOver_congr {ps : List ℕ} (h : ∀ i ∈ ps, f i = g i) : xorOver ps f = xorOver ps g := by
  induction ps with
  | nil => rfl
  | cons p ps ih =>
    rw [xorOver_cons, xorOver_cons, h p List.mem_cons_self, ih fun i hi => h i (List.mem_cons_of_mem p hi)]

theorem xorOver_filter (p : ℕ → Bool) (ps : List ℕ) (f : ℕ → Bool) :
    xorOver (ps.filter p) f = xorOver ps fun i => p i && f i := by
  induction ps with
  | nil => rfl
  | cons i ps ih =>
    rw [xorOver_cons, ← ih]
    cases hp : p i with
    | true => rw [List.filter_cons_of_pos hp, xorOver_cons, Bool.true_and]
    | false => rw [List.filter_cons_of_neg (Bool.not_eq_true _ ▸ hp), Bool.false_and, Bool.false_xor]

theorem xorOver_range_add (m n : ℕ) (f : ℕ → Bool) :
    xorOver (List.range (m + n)) f = (xorOver (List.range m) f ^^ xorOver (List.range n) fun i => f (m + i)) := by
  rw [List.range_add, xorOver_append]
  congr 1
  exact List.foldr_map

theorem xorOver_range_single (n i : ℕ) (f : ℕ → Bool) :
    xorOver (List.range n) (fun j => f j && decide (i = j)) = (decide (i < n) && f i) := by
  induction n with
  | zero => rfl
  | succ n ih =>
    have hlast : xorOver [n] (fun j => f j && decide (i = j)) = (f n && decide (i = n)) := Bool.xor_false _
    rw [List.range_succ, xorOver_append, ih, hlast]
    obtain h | rfl | h := lt_trichotomy i n
    · simp [h, h.ne, Nat.lt_succ_of_lt h]
    · simp
    · simp [h.not_gt, h.ne', show ¬ i < n + 1 by omega]

/-- The XOR of some bits says whether an odd number of them is set. -/
theorem xorOver_eq_odd_length_filter (ps : List ℕ) (f : ℕ → Bool) :
    xorOver ps f = decide ((ps.filter f).length % 2 = 1) := by
  induction ps with
  | nil => rfl
  | cons p ps ih =>
    rw [xorOver_cons, ih]
    cases hp : f p with
    | true =>
      rw [List.filter_cons_of_pos hp, List.length_cons, Bool.true_xor, ← decide_not]
      exact decide_eq_decide.mpr (by omega)
    | false => rw [List.filter_cons_of_neg (Bool.not_eq_true _ ▸ hp), Bool.false_xor]

theorem testBit_foldr_xor (ps : List ℕ) (v : ℕ → ℕ) (k : ℕ) :
    (ps.foldr (fun i acc => v i ^^^ acc) 0).testBit k = xorOver ps fun i => (v i).testBit k := by
  induction ps with
  | nil => exact Nat.zero_testBit k
  | cons p ps ih => rw [List.foldr_cons, Nat.testBit_xor, ih, xorOver_cons]

end

/-! ### Parity and the Hamming field -/

section
variable {w v : ℕ}

theorem parity_append (x : BitVec w) (y : BitVec v) : parity (x ++ y) = (parity x ^^ parity y) := by
  unfold parity
  rw [show List.range (w + v) = List.range (v + w) by rw [Nat.add_comm], xorOver_range_add, Bool.xor_comm]
  congr 1
  · refine xorOver_congr fun i _ => ?_
    rw [BitVec.getLsbD_append, if_neg (by omega), Nat.add_sub_cancel_left]
  · refine xorOver_congr fun i hi => ?_
    rw [BitVec.getLsbD_append, if_pos (List.mem_range.mp hi)]

theorem parity_ofBool (b : Bool) : parity (BitVec.ofBool b) = b := by
  cases b <;> rfl

theorem one_shiftLeft_getLsbD {i : ℕ} (hi : i < w) (j : ℕ) : (1#w <<< i).getLsbD j = decide (i = j) := by
  refine (BitVec.getLsbD_twoPow i j).trans ?_
  rw [decide_eq_true hi, Bool.true_and]

theorem parity_one_shiftLeft (i : ℕ) : parity (1#w <<< i) = decide (i < w) := by
  have hbit : ∀ j, (BitVec.twoPow w i).getLsbD j = (decide (i < w) && decide (i = j)) := BitVec.getLsbD_twoPow i
  refine (xorOver_congr fun j _ => hbit j).trans ?_
  rw [xorOver_range_single, Bool.and_self]

/-- `p_{k+1}` is the XOR of bit `k` of the 1-based positions of the set data bits (R400). -/
theorem hammingBit_eq (k : ℕ) (d : BitVec 32) :
    hammingBit (k + 1) d = xorOver (List.range 32) fun i => (i + 1).testBit k && d.getLsbD i :=
  xorOver_filter _ _ _

/-- The Hamming field is the XOR of the 1-based positions of the set data bits (R400). -/
theorem ham6_toNat (d : BitVec 32) :
    (ham6 d).toNat = ((List.range 32).filter fun i => d.getLsbD i).foldr (fun i acc => (i + 1) ^^^ acc) 0 := by
  refine Nat.eq_of_testBit_eq fun k => ?_
  rw [testBit_foldr_xor, xorOver_filter]
  by_cases hk : k < 6
  · refine (ham6_getLsbD d k hk).trans ((hammingBit_eq k d).trans ?_)
    exact xorOver_congr fun i _ => Bool.and_comm _ _
  · have hpow : 2 ^ 6 ≤ 2 ^ k := Nat.pow_le_pow_right (by omega) (by omega)
    have hzero : ∀ i ∈ List.range 32, (d.getLsbD i && (i + 1).testBit k) = (false && decide (0 = i)) := by
      intro i hi
      have hi := List.mem_range.mp hi
      rw [Nat.testBit_lt_two_pow (by omega), Bool.and_false, Bool.false_and]
    rw [Nat.testBit_lt_two_pow ((ham6 d).isLt.trans_le hpow), xorOver_congr hzero, xorOver_range_single, Bool.and_false]

/-- A single data bit has its 1-based position as Hamming field (R400). -/
theorem ham6_one_shiftLeft {i : ℕ} (hi : i < 32) : (ham6 (1#32 <<< i)).toNat = i + 1 := by
  refine Nat.eq_of_testBit_eq fun k => ?_
  rw [ham6_toNat, testBit_foldr_xor, xorOver_filter]
  refine (xorOver_congr fun j _ => ?_).trans ((xorOver_range_single 32 i fun j => (j + 1).testBit k).trans ?_)
  · rw [one_shiftLeft_getLsbD hi, Bool.and_comm]
  · rw [decide_eq_true hi, Bool.true_and]

end

/-! ### The fields of a register -/

section
variable (m : BitVec 25) (o : Bool) (h : BitVec 6) (d : BitVec 32) (x y : Word) {i : ℕ}

@[simp] theorem eccLow_register : eccLow (eccRegister m o h d) = BitVec.ofBool o ++ h ++ d :=
  BitVec.extractLsb'_append_eq_right

theorem eccData_xor : eccData (x ^^^ y) = eccData x ^^^ eccData y := BitVec.extractLsb'_xor
theorem eccHam_xor : eccHam (x ^^^ y) = eccHam x ^^^ eccHam y := BitVec.extractLsb'_xor
theorem eccLow_xor : eccLow (x ^^^ y) = eccLow x ^^^ eccLow y := BitVec.extractLsb'_xor
theorem eccMeta_xor : eccMeta (x ^^^ y) = eccMeta x ^^^ eccMeta y := BitVec.extractLsb'_xor

/-- A field of a register with one bit set: that bit, if the field holds it. -/
theorem extractLsb'_one_shiftLeft (start len : ℕ) (hi : i < 64) :
    (1#64 <<< i).extractLsb' start len = if start ≤ i then 1#len <<< (i - start) else 0#len := by
  refine BitVec.eq_of_getLsbD_eq fun j hj => ?_
  rw [BitVec.getLsbD_extractLsb', one_shiftLeft_getLsbD hi, decide_eq_true hj, Bool.true_and]
  split
  case isTrue hs =>
    refine Eq.trans ?_ (BitVec.getLsbD_twoPow (i - start) j).symm
    rw [← Bool.decide_and]
    exact decide_eq_decide.mpr (by omega)
  case isFalse hs =>
    rw [BitVec.getLsbD_zero]
    exact decide_eq_false (by omega)

theorem eccData_one_shiftLeft (hi : i < 64) : eccData (1#64 <<< i) = 1#32 <<< i :=
  extractLsb'_one_shiftLeft 0 32 hi

theorem eccLow_one_shiftLeft (hi : i < 64) : eccLow (1#64 <<< i) = 1#39 <<< i :=
  extractLsb'_one_shiftLeft 0 39 hi

theorem eccHam_one_shiftLeft (hi : i < 64) : eccHam (1#64 <<< i) = if 32 ≤ i then 1#6 <<< (i - 32) else 0#6 :=
  extractLsb'_one_shiftLeft 32 6 hi

theorem eccMeta_one_shiftLeft (hi : i < 39) : eccMeta (1#64 <<< i) = 0#25 :=
  (extractLsb'_one_shiftLeft 39 25 (by omega)).trans (if_neg (by omega))

/-! ### Syndrome and overall parity, bit by bit -/

/-- The overall-parity check asks for an even number of ones among the bits 38:0 (R404). -/
theorem parityMatch_eq (r : Word) : parityMatch r = !parity (eccLow r) := by
  rw [← eccRegister_fields r]
  generalize eccMeta r = m, eccPov r = o, eccHam r = h, eccData r = d
  rw [parityMatch, eccData_register, eccHam_register, eccPov_register, eccLow_register, parity_append, parity_append,
    parity_ofBool]
  cases parity d <;> cases parity h <;> cases o <;> rfl

/-- A register that passes the check has an even number of ones among the bits 38:0. -/
theorem even_length_filter_of_parityMatch {r : Word} (hr : parityMatch r = true) :
    ((List.range 39).filter fun i => r.getLsbD i).length % 2 = 0 := by
  have hlow : ∀ i ∈ List.range 39, (eccLow r).getLsbD i = r.getLsbD i := by
    intro i hi
    rw [eccLow, BitVec.getLsbD_extractLsb', decide_eq_true (List.mem_range.mp hi), Bool.true_and, Nat.zero_add]
  have hparity : parity (eccLow r) = false := by
    rw [parityMatch_eq] at hr
    exact (Bool.not_eq_true' _).mp hr
  rw [parity, xorOver_congr hlow, xorOver_eq_odd_length_filter] at hparity
  exact Nat.mod_two_not_eq_one.mp (of_decide_eq_false hparity)

theorem syndrome_xor : syndrome (x ^^^ y) = syndrome x ^^^ syndrome y := by
  rw [syndrome, syndrome, syndrome, eccData_xor, eccHam_xor, ham6_xor]
  ac_rfl

/-- A data bit gives its 1-based position as syndrome (R403). -/
theorem syndrome_one_shiftLeft_data (hi : i < 32) : (syndrome (1#64 <<< i)).toNat = i + 1 := by
  rw [syndrome, eccData_one_shiftLeft (by omega), eccHam_one_shiftLeft (by omega), if_neg (by omega), BitVec.xor_zero,
    ham6_one_shiftLeft hi]

/-- A bit above the data gives itself as syndrome if it is a Hamming bit, and nothing else (R403). -/
theorem syndrome_one_shiftLeft_code (h32 : 32 ≤ i) (hi : i < 64) : syndrome (1#64 <<< i) = 1#6 <<< (i - 32) := by
  have hzero : ham6 0#32 = 0#6 := by decide
  rw [syndrome, eccData_one_shiftLeft hi, eccHam_one_shiftLeft hi, if_pos h32, BitVec.shiftLeft_eq_zero h32, hzero,
    BitVec.zero_xor]

end

/-! ### Code words and flipped bits -/

section
variable (e : BitVec 25) (d : BitVec 32)

/-- Flipping a bit of a data word changes it. -/
theorem xor_one_shiftLeft_ne {i : ℕ} (hi : i < 32) : d ^^^ 1#32 <<< i ≠ d := by
  intro h
  have hbit : (d ^^^ 1#32 <<< i).getLsbD i = (d.getLsbD i ^^ (1#32 <<< i).getLsbD i) := BitVec.getLsbD_xor
  rw [h, one_shiftLeft_getLsbD hi, decide_eq_true rfl, Bool.xor_true] at hbit
  exact (Bool.eq_not_self _).mp hbit

/-- A code word under any metadata, as a register (R402). -/
theorem append_codeword_eq : (e ++ codeword d : Word) = eccRegister e (overallParity d) (ham6 d) d := rfl

theorem eccEncode_eq_append : eccEncode d = (0#25 ++ codeword d : Word) := eccEncode_eq d

theorem parity_codeword : parity (codeword d) = false := by
  rw [codeword, parity_append, parity_append, parity_ofBool, overallParity]
  cases parity d <;> cases parity (ham6 d) <;> rfl

theorem eccData_codeword : eccData (e ++ codeword d) = d := by
  rw [append_codeword_eq, eccData_register]

theorem eccLow_codeword : eccLow (e ++ codeword d) = codeword d :=
  BitVec.extractLsb'_append_eq_right

theorem eccMeta_codeword : eccMeta (e ++ codeword d) = e := by
  rw [append_codeword_eq, eccMeta_register]

theorem eccHam_codeword : eccHam (e ++ codeword d) = ham6 d := by
  rw [append_codeword_eq, eccHam_register]

theorem syndrome_codeword : syndrome (e ++ codeword d) = 0#6 := by
  rw [append_codeword_eq, syndrome, eccData_register, eccHam_register, BitVec.xor_self]

theorem parityMatch_codeword : parityMatch (e ++ codeword d) = true := by
  rw [parityMatch_eq, eccLow_codeword, parity_codeword, Bool.not_false]

section
variable {i : ℕ}

/-- Flipping one of the bits 38:0 turns the overall parity around (R404). -/
theorem parityMatch_flip (r : Word) (hi : i < 39) : parityMatch (r ^^^ 1#64 <<< i) = !parityMatch r := by
  rw [parityMatch_eq, parityMatch_eq, eccLow_xor, eccLow_one_shiftLeft (by omega), parity_xor, parity_one_shiftLeft,
    decide_eq_true hi, Bool.xor_true]

theorem syndrome_codeword_flip (i : ℕ) : syndrome ((e ++ codeword d) ^^^ 1#64 <<< i) = syndrome (1#64 <<< i) := by
  rw [syndrome_xor, syndrome_codeword, BitVec.zero_xor]

theorem eccData_codeword_flip (hi : i < 64) : eccData ((e ++ codeword d) ^^^ 1#64 <<< i) = d ^^^ 1#32 <<< i := by
  rw [eccData_xor, eccData_codeword, eccData_one_shiftLeft hi]

theorem eccMeta_codeword_flip (hi : i < 39) : eccMeta ((e ++ codeword d) ^^^ 1#64 <<< i) = e := by
  rw [eccMeta_xor, eccMeta_codeword, eccMeta_one_shiftLeft hi, BitVec.xor_zero]

/-- A flipped data bit is the one the syndrome names. -/
theorem correctedData_data_flip (hi : i < 32) : correctedData ((e ++ codeword d) ^^^ 1#64 <<< i) = d := by
  have hsyn : (syndrome ((e ++ codeword d) ^^^ 1#64 <<< i)).toNat = i + 1 := by
    rw [syndrome_codeword_flip, syndrome_one_shiftLeft_data hi]
  rw [correctedData_of_data_syndrome (by omega) (by omega), hsyn, Nat.add_sub_cancel, eccData_codeword_flip e d (by omega),
    BitVec.xor_assoc, BitVec.xor_self, BitVec.xor_zero]

/-- A flipped Hamming bit `p_{k+1}` has the syndrome of the data bit `2^k - 1` (conflict C6). -/
theorem correctedData_ham_flip {k : ℕ} (hk : k < 6) :
    correctedData ((e ++ codeword d) ^^^ 1#64 <<< (32 + k)) = d ^^^ 1#32 <<< (2 ^ k - 1) := by
  have hsyn : (syndrome ((e ++ codeword d) ^^^ 1#64 <<< (32 + k))).toNat = 2 ^ k := by
    rw [syndrome_codeword_flip, syndrome_one_shiftLeft_code (by omega) (by omega), Nat.add_sub_cancel_left]
    exact BitVec.toNat_twoPow_of_lt hk
  have hpos : 1 ≤ 2 ^ k := Nat.one_le_two_pow
  have hle : 2 ^ k ≤ 2 ^ 5 := Nat.pow_le_pow_right (by omega) (by omega)
  rw [correctedData_of_data_syndrome (by omega) (by omega), hsyn, eccData_codeword_flip e d (by omega),
    BitVec.shiftLeft_eq_zero (show 32 ≤ 32 + k by omega), BitVec.xor_zero]

/-- The overall parity bit has no syndrome. -/
theorem correctedData_overall_flip : correctedData ((e ++ codeword d) ^^^ 1#64 <<< 38) = d := by
  have hsyn : syndrome ((e ++ codeword d) ^^^ 1#64 <<< 38) = 0#6 := by
    rw [syndrome_codeword_flip, syndrome_one_shiftLeft_code (by omega) (by omega), BitVec.shiftLeft_eq_zero (by omega)]
  rw [correctedData_of_other_syndrome (.inl (by rw [hsyn]; rfl)), eccData_codeword_flip e d (by omega),
    BitVec.shiftLeft_eq_zero (by omega), BitVec.xor_zero]

end

/-! ### Decoding -/

section
variable (rule : MetaRule) (r : Word) {i j : ℕ}

/-- A code word passes the parity check, and so is returned as it is. -/
theorem eccDecode_codeword : eccDecode rule (e ++ codeword d) = e ++ codeword d :=
  eccDecode_of_match rule (parityMatch_codeword e d)

/-- One flipped bit is always detected (R406). -/
theorem eccDecode_codeword_flip (hi : i < 39) : eccDecode rule ((e ++ codeword d) ^^^ 1#64 <<< i) =
    recoded rule ((e ++ codeword d) ^^^ 1#64 <<< i) (correctedData ((e ++ codeword d) ^^^ 1#64 <<< i)) := by
  refine eccDecode_of_mismatch rule ?_
  rw [parityMatch_flip _ hi, parityMatch_codeword, Bool.not_true]

/-- Under KEEP the metadata stays with the recoded word (R405). -/
theorem eccDecode_keep_codeword_flip (hi : i < 39) : eccDecode .keep ((e ++ codeword d) ^^^ 1#64 <<< i) =
    e ++ codeword (correctedData ((e ++ codeword d) ^^^ 1#64 <<< i)) := by
  rw [eccDecode_codeword_flip e d .keep hi, recoded, eccMeta_codeword_flip e d hi]

/-- Two flipped bits keep the overall parity, and so are never detected (R406, R463). -/
theorem eccDecode_codeword_flip_flip (hi : i < 39) (hj : j < 39) :
    eccDecode rule ((e ++ codeword d) ^^^ 1#64 <<< i ^^^ 1#64 <<< j) = (e ++ codeword d) ^^^ 1#64 <<< i ^^^ 1#64 <<< j := by
  refine eccDecode_of_match rule ?_
  rw [parityMatch_flip _ hj, parityMatch_flip _ hi, Bool.not_not, parityMatch_codeword]

variable {r} in
/-- Where the metadata is 0, both settings of DECODE_META recode to a fresh code word (R405). -/
theorem recoded_of_eccMeta_eq_zero (hr : eccMeta r = 0#25) : recoded rule r d = eccEncode d := by
  cases rule with
  | keep => rw [recoded, hr, eccEncode_eq_append]
  | zero => rfl

theorem eccMeta_eccDecode_keep : eccMeta (eccDecode .keep r) = eccMeta r := by
  cases hp : parityMatch r with
  | true => rw [eccDecode_of_match .keep hp]
  | false => rw [eccDecode_of_mismatch .keep hp, eccMeta_recoded_keep]

variable {r} in
/-- A recomputing decode leaves a true code (R408). -/
theorem eccDecode_code_of_mismatch (hr : parityMatch r = false) :
    eccHam (eccDecode rule r) = ham6 (eccData (eccDecode rule r)) ∧
      eccPov (eccDecode rule r) = overallParity (eccData (eccDecode rule r)) := by
  rw [eccDecode_of_mismatch rule hr, eccHam_recoded, eccPov_recoded, eccData_recoded]
  exact ⟨rfl, rfl⟩

end

end

/-! ### The statements -/

theorem exec_eccEncode (rm : BitVec 3) (s : State) :
    exec (.eccEncode rm) s = .next (s.answeredWith (eccEncode (low32 s.port.a)) false 0#5) := rfl

/-- ECC_CHECK's answer, from the decoded register and whether its data field is another one (R182). -/
theorem exec_eccCheck_of_eccDecode {rm : BitVec 3} {s : State} {r : Word} {o : Bool}
    (hr : eccDecode s.params.decodeMeta s.port.a = r) (ho : (eccData r != eccData s.port.a) = o) :
    exec (.eccCheck rm) s = .next (s.answeredWith r o 0#5) := by
  rw [exec_eccCheck, hr, ho]

/-- Settles O34: the Hamming field is the XOR of positions by `ham6_toNat`, and a code word passes the parity check, which
counts the ones among the bits 38:0. -/
theorem encodeRegister : Obligations.EncodeRegister := by
  refine ⟨.of_fields fun _ => ⟨rfl, rfl⟩, fun rm s => ⟨_, exec_eccEncode rm s, ?_⟩⟩
  rw [eccEncode_eq_append]
  refine ⟨eccData_codeword _ _, eccMeta_codeword _ _, ?_, ?_⟩
  · rw [eccHam_codeword, ham6_toNat]
    refine congrArg _ (List.filter_congr fun i hi => ?_)
    exact low32_getLsbD (List.mem_range.mp hi) _
  · exact even_length_filter_of_parityMatch (parityMatch_codeword _ _)

/-- Settles O36, law by law. -/
theorem decodeLaws : Obligations.DecodeLaws := by
  refine ⟨fun rule d => ?_, fun rule d i hi => ?_, fun rule d => ?_, eccMeta_eccDecode_keep,
    fun rule r hr => eccDecode_code_of_mismatch rule hr⟩
  · rw [eccEncode_eq_append, eccDecode_codeword]
  · rw [eccEncode_eq_append, eccDecode_codeword_flip _ d rule (by omega),
      recoded_of_eccMeta_eq_zero _ rule (eccMeta_codeword_flip _ d (by omega)), correctedData_data_flip _ d hi,
      eccEncode_eq_append]
  · rw [eccEncode_eq_append]
    exact eccDecode_codeword_flip_flip _ d rule (by omega) (by omega)

/-- ECC_CHECK of a code word with one bit flipped: the code word of the corrected data, and whether that differs from the data
received. -/
theorem exec_eccCheck_codeword_flip {s : State} {d : BitVec 32} {e : BitVec 25} {i : ℕ} (rm : BitVec 3)
    (hkeep : s.params.decodeMeta = .keep) (hi : i < 39) (ha : s.port.a = (e ++ codeword d) ^^^ 1#64 <<< i) :
    exec (.eccCheck rm) s =
      .next (s.answeredWith (e ++ codeword (correctedData s.port.a)) (correctedData s.port.a != d ^^^ 1#32 <<< i) 0#5) := by
  refine exec_eccCheck_of_eccDecode ?_ ?_
  · rw [hkeep, ha, eccDecode_keep_codeword_flip e d hi]
  · rw [eccData_codeword, ha, eccData_codeword_flip e d (by omega)]

/-- Settles O37: whichever bit is flipped, the answer is the code word of the corrected data. -/
theorem singleErrors : Obligations.SingleErrors := by
  intro rm s d e hkeep
  refine ⟨fun i hi ha => ?_, fun ha => ?_, fun k hk ha => ?_⟩
  · have hcorrected : correctedData s.port.a = d := by rw [ha, correctedData_data_flip e d hi]
    rw [exec_eccCheck_codeword_flip rm hkeep (by omega) ha, hcorrected, bne_iff_ne.mpr (xor_one_shiftLeft_ne d hi).symm]
  · have hcorrected : correctedData s.port.a = d := by rw [ha, correctedData_overall_flip]
    rw [exec_eccCheck_codeword_flip rm hkeep (by omega) ha, hcorrected, BitVec.shiftLeft_eq_zero (by omega), BitVec.xor_zero,
      bne_self_eq_false]
  · have hcorrected : correctedData s.port.a = d ^^^ 1#32 <<< (2 ^ k - 1) := by rw [ha, correctedData_ham_flip e d hk]
    have hle : 2 ^ k ≤ 2 ^ 5 := Nat.pow_le_pow_right (by omega) (by omega)
    rw [exec_eccCheck_codeword_flip rm hkeep (by omega) ha, hcorrected,
      BitVec.shiftLeft_eq_zero (show 32 ≤ 32 + k by omega), BitVec.xor_zero,
      bne_iff_ne.mpr (xor_one_shiftLeft_ne d (by omega))]

/-- Settles O38: the overall parity is turned around twice. -/
theorem doubleErrorsPassThrough : Obligations.DoubleErrorsPassThrough := by
  intro rm s d e i j hi hj _ ha
  have hdecode : eccDecode s.params.decodeMeta s.port.a = s.port.a := by
    rw [ha]
    exact eccDecode_codeword_flip_flip e d _ hi hj
  exact exec_eccCheck_of_eccDecode hdecode (bne_self_eq_false _)

end Sys2Proof.Machine

/-! PROOFS. Adapt: the repacked register read field by field (`49_ecc_adaptive.md` R430 to R435), and the escalation to SECDED,
which no later adaptation takes back (R436). -/

namespace Sys2Proof.Machine

/-! ### The repacked register -/

section
variable (rule : MetaRule) (r : Word)

theorem eccLow_eccAdapt : eccLow (eccAdapt rule r) = adaptLow rule r :=
  BitVec.extractLsb'_append_eq_right

theorem eccMode_eccAdapt : eccMode (eccAdapt rule r) = adaptMode rule r := by
  simp (disch := decide) only [eccMode, eccAdapt, BitVec.extractLsb'_append_eq_of_le, Nat.reduceSub,
    BitVec.extractLsb'_append_eq_right]

theorem eccHistory_eccAdapt : eccHistory (eccAdapt rule r) = adaptHistory rule r := by
  simp (disch := decide) only [eccHistory, eccAdapt, BitVec.extractLsb'_append_eq_of_le, Nat.reduceSub,
    BitVec.extractLsb'_append_eq_right]

theorem eccFrequency_eccAdapt : eccFrequency (eccAdapt rule r) = adaptFrequency r := by
  simp (disch := decide) only [eccFrequency, eccAdapt, BitVec.extractLsb'_append_eq_of_le, Nat.reduceSub,
    BitVec.extractLsb'_append_eq_right]

theorem eccSensitivity_eccAdapt : eccSensitivity (eccAdapt rule r) = eccSensitivity r := by
  simp (disch := decide) only [eccSensitivity, eccAdapt, BitVec.extractLsb'_append_eq_of_le, Nat.reduceSub,
    BitVec.extractLsb'_append_eq_right]

/-- The reserved bits 63:60 are written 0 (R435). -/
theorem eccAdapt_reserved_high : (eccAdapt rule r).extractLsb' 60 4 = 0#4 := by
  simp (disch := decide) only [eccAdapt, BitVec.extractLsb'_append_eq_of_le, Nat.reduceSub, BitVec.extractLsb'_eq_self]

/-- The reserved bit 39 is written 0 (R435). -/
theorem eccAdapt_reserved_low : (eccAdapt rule r).getLsbD 39 = false := by
  have hfield : (eccAdapt rule r).extractLsb' 39 1 = 0#1 := by
    simp (disch := decide) only [eccAdapt, BitVec.extractLsb'_append_eq_of_le, Nat.reduceSub,
      BitVec.extractLsb'_append_eq_right]
  have hbit := BitVec.getLsbD_extractLsb' 39 1 (eccAdapt rule r) 0
  rw [hfield] at hbit
  exact hbit.symm

/-- The data field is a part of `reg[38:0]` (R45). -/
theorem eccData_eq_extract_eccLow : eccData r = (eccLow r).extractLsb' 0 32 := by
  refine BitVec.eq_of_getLsbD_eq fun i hi => ?_
  simp only [eccData, eccLow, BitVec.getLsbD_extractLsb', Nat.zero_add, hi, show i < 39 by omega, decide_true,
    Bool.true_and]

/-! ### The updates -/

/-- The access counter goes up by one until 1023, whatever the mode (R431). -/
theorem adaptFrequency_toNat : (adaptFrequency r).toNat = min ((eccFrequency r).toNat + 1) 1023 :=
  (BitVec.toNat_ofNat _ _).trans (Nat.mod_eq_of_lt (by omega))

/-- The error counter goes up by one until 3 where the decode changed the data (R432). -/
theorem adaptHistory_toNat : (adaptHistory rule r).toNat =
    if adaptCorrected rule r then min ((eccHistory r).toNat + 1) 3 else (eccHistory r).toNat := by
  unfold adaptHistory
  split
  · exact (BitVec.toNat_ofNat _ _).trans (Nat.mod_eq_of_lt (by omega))
  · rfl

theorem adaptHistory_toNat_ge : (eccHistory r).toNat ≤ (adaptHistory rule r).toNat := by
  have hmax := (eccHistory r).isLt
  rw [adaptHistory_toNat]
  split <;> omega

variable {r}

/-- Under NONE step (b) runs no decode (R432). -/
theorem adaptCorrected_of_none (h : eccMode r = 0#2) : adaptCorrected rule r = false := by
  rw [adaptCorrected, h, bne_self_eq_false, Bool.false_and]

theorem adaptCorrected_of_protected (h : eccMode r ≠ 0#2) :
    adaptCorrected rule r = true ↔ eccData (eccDecode rule r) ≠ eccData r := by
  rw [adaptCorrected, bne_iff_ne.mpr h, Bool.true_and, bne_iff_ne]

theorem eccLow_eccAdapt_of_none (h : eccMode r = 0#2) : eccLow (eccAdapt rule r) = eccLow r := by
  rw [eccLow_eccAdapt, adaptLow, if_pos h]

theorem eccLow_eccAdapt_of_protected (h : eccMode r ≠ 0#2) : eccLow (eccAdapt rule r) = eccLow (eccDecode rule r) := by
  rw [eccLow_eccAdapt, adaptLow, if_neg h]

theorem eccHistory_eccAdapt_of_none (h : eccMode r = 0#2) : eccHistory (eccAdapt rule r) = eccHistory r := by
  rw [eccHistory_eccAdapt, adaptHistory, adaptCorrected_of_none rule h]
  exact if_neg Bool.false_ne_true

/-- The error counter counts the adaptations that change the data (R432). -/
theorem eccHistory_eccAdapt_of_protected (h : eccMode r ≠ 0#2) : (eccHistory (eccAdapt rule r)).toNat =
    if eccData (eccAdapt rule r) = eccData r then (eccHistory r).toNat else min ((eccHistory r).toNat + 1) 3 := by
  have hdata : eccData (eccAdapt rule r) = eccData (eccDecode rule r) := by
    rw [eccData_eq_extract_eccLow, eccLow_eccAdapt_of_protected rule h, ← eccData_eq_extract_eccLow]
  rw [eccHistory_eccAdapt, adaptHistory_toNat, hdata]
  simp only [adaptCorrected_of_protected rule h, ne_eq, ite_not]

/-! ### Escalation -/

/-- What makes the policy choose SECDED (R433): an error seen, a busy register or a sensitive one. -/
def Escalated (r : Word) : Prop :=
  1 ≤ (eccHistory r).toNat ∨ 700 < (eccFrequency r).toNat ∨ 4 ≤ (eccSensitivity r).toNat

variable (r) in
/-- The mode is chosen from the counters the result holds (R433). -/
theorem eccMode_eccAdapt_eq : eccMode (eccAdapt rule r) =
    if 700 < (eccFrequency (eccAdapt rule r)).toNat ∨ 4 ≤ (eccSensitivity (eccAdapt rule r)).toNat ∨
      1 ≤ (eccHistory (eccAdapt rule r)).toNat then 2#2 else 1#2 := by
  rw [eccMode_eccAdapt, eccFrequency_eccAdapt, eccSensitivity_eccAdapt, eccHistory_eccAdapt]
  rfl

theorem eccMode_eccAdapt_of_escalated (h : Escalated (eccAdapt rule r)) : eccMode (eccAdapt rule r) = 2#2 := by
  rw [eccMode_eccAdapt_eq, if_pos]
  obtain hhist | hfreq | hsens := h
  · exact .inr (.inr hhist)
  · exact .inl hfreq
  · exact .inr (.inl hsens)

/-- No adaptation takes an escalation back: neither counter falls and the sensitivity is kept (R436). -/
theorem Escalated.eccAdapt (h : Escalated r) : Escalated (eccAdapt rule r) := by
  unfold Escalated
  rw [eccHistory_eccAdapt, eccFrequency_eccAdapt, eccSensitivity_eccAdapt, adaptFrequency_toNat]
  obtain hhist | hfreq | hsens := h
  · exact .inl (hhist.trans (adaptHistory_toNat_ge rule r))
  · exact .inr (.inl (by omega))
  · exact .inr (.inr hsens)

end

/-! ### The statements -/

theorem exec_eccAdapt (rm : BitVec 3) (s : State) :
    exec (.eccAdapt rm) s = .next (s.answeredWith (eccAdapt s.params.decodeMeta s.port.a) false 0#5) := rfl

/-- Settles O39, by the fields of the repacked register. -/
theorem adaptRegister : Obligations.AdaptRegister := by
  refine ⟨.of_fields fun _ => ⟨rfl, rfl⟩, fun rm s => ⟨_, exec_eccAdapt rm s, ?_, eccSensitivity_eccAdapt _ _,
    eccAdapt_reserved_low _ _, eccAdapt_reserved_high _ _, fun hnone => ?_, fun hprotected => ?_, eccMode_eccAdapt_eq _ _⟩⟩
  · rw [eccFrequency_eccAdapt, adaptFrequency_toNat]
  · exact ⟨eccLow_eccAdapt_of_none _ hnone, eccHistory_eccAdapt_of_none _ hnone⟩
  · exact ⟨eccLow_eccAdapt_of_protected _ hprotected, eccHistory_eccAdapt_of_protected _ hprotected⟩

/-- The result of an ECC_ADAPT request, read from its response. -/
theorem result_eq_eccAdapt {rm : BitVec 3} {s t : State} {r : Response} (ht : exec (.eccAdapt rm) s = .next t)
    (hr : t.response = some r) : r.result = eccAdapt s.params.decodeMeta s.port.a := by
  cases (exec_eccAdapt rm s).symm.trans ht
  cases hr
  rfl

/-- Settles O40: each result is an adaptation of the result before it, so an escalation, once there, passes from each result to
the next by induction on the distance. -/
theorem adaptSequences : Obligations.AdaptSequences := by
  intro rm s t r hseq
  have hresult : ∀ n, (r n).result = eccAdapt (s n).params.decodeMeta (s n).port.a := by
    intro n
    obtain ⟨ht, hr, -⟩ := hseq n
    exact result_eq_eccAdapt ht hr
  have hnext : ∀ n, (r (n + 1)).result = eccAdapt (s (n + 1)).params.decodeMeta (r n).result := by
    intro n
    obtain ⟨-, -, ha⟩ := hseq n
    rw [hresult (n + 1), ha]
  refine ⟨fun n => ?_, fun n k hnk hescalated => ?_⟩
  · rw [hresult n, eccMode_eccAdapt_eq, eccFrequency_eccAdapt, adaptFrequency_toNat, eccSensitivity_eccAdapt]
    have hhistory := (eccHistory (eccAdapt (s n).params.decodeMeta (s n).port.a)).isLt
    refine ⟨min_le_right _ _, by omega, ?_, rfl, rfl, ?_⟩
    · rw [eccHistory_eccAdapt]
      exact adaptHistory_toNat_ge _ _
    · split
      · exact .inr rfl
      · exact .inl rfl
  · have hkept : ∀ k, n ≤ k → Escalated (r k).result := by
      intro k hk
      induction k, hk using Nat.le_induction with
      | base => exact hescalated
      | succ k _ ih => exact hnext k ▸ ih.eccAdapt _
    have hk := hkept k hnk.le
    rw [hresult k] at hk ⊢
    exact eccMode_eccAdapt_of_escalated _ hk

end Sys2Proof.Machine
